-- ==== Sys2Proof/Word.lean ====
section
/-! DEFINITION. The word and byte types of the engine (00_scope.md R8, R10, R11). -/

namespace Sys2Proof

/-- A 32-bit register or bus word (00_scope.md R8). -/
abbrev Word := BitVec 32

/-- One byte of a byte string or of the buffer (00_scope.md R11). -/
abbrev Byte := BitVec 8

end Sys2Proof
end

