-- ==== Sys2Proof/Syntax.lean ====
section
/-! DEFINITION. The engine's instructions: one constructor for each row of spec/opcode_table.json,
the two ports an instruction word is written to, and the error codes a command can end with. -/

namespace Sys2Proof

/-- The commands of 30_encoding.md R81 and the two `KEYCTL` actions of 10_state.md R39.
`DIGITS` is the only operand a command word carries (30_encoding.md R80, R82, log 8). Every other
operand is in a register (30_encoding.md R84). -/
inductive Instr where
  /-- `HMAC_SHA1`, 41_hmac_sha1.md R128. -/
  | hmacSha1
  /-- `HOTP`, 42_hotp.md R155, with the `DIGITS` field of its word. -/
  | hotp (digits : BitVec 4)
  /-- `HOTP_TRUNC`, 42_hotp.md R156, with the `DIGITS` field of its word. -/
  | hotpTrunc (digits : BitVec 4)
  /-- `B32_ENC`, 40_base32.md R107. -/
  | b32Enc
  /-- `B32_DEC`, 40_base32.md R108. -/
  | b32Dec
  /-- `GCM_ENC`, 43_aes_gcm.md R186. -/
  | gcmEnc
  /-- `GCM_DEC`, 43_aes_gcm.md R187. -/
  | gcmDec
  /-- `KEY_LOAD`, 43_aes_gcm.md R188. -/
  | keyLoad
  /-- `KEY_CLEAR`, 43_aes_gcm.md R189. -/
  | keyClear
  deriving DecidableEq, Repr

/-- The register an instruction word is written to: the table's formats `CMD32` and `KEYCTL32`. -/
inductive Port where
  /-- `CMD`, offset 0x004 (30_encoding.md R80). -/
  | cmd
  /-- `KEYCTL`, offset 0x03C (10_state.md R39). -/
  | keyctl
  deriving DecidableEq, Repr

/-- The seven errors a command can fail with (60_exceptions.md R211). -/
inductive ErrCode where
  | illegalCmd
  | badDigits
  | noKey
  | badLen
  | keyEmpty
  | range
  | authFail
  deriving DecidableEq, Repr

/-- Why a word is not an instruction of its port. -/
inductive Reject where
  /-- A command word that fails when it runs, with its error (30_encoding.md R86). -/
  | error (e : ErrCode)
  /-- A `KEYCTL` word with bits 0 and 1 both 0, which has no effect (10_state.md R39). -/
  | noAction
  deriving DecidableEq, Repr

end Sys2Proof
end

