-- ==== Sys2Proof/WellFormed.lean ====
section
/-! DEFINITION. Which instructions the encoding admits. -/

namespace Sys2Proof

/-- The one check on an instruction's fields: "The only legal value is 6" (30_encoding.md R82). -/
def Instr.wellFormed : Instr → Bool
  | .hmacSha1 => true
  | .hotp digits => digits == 6
  | .hotpTrunc digits => digits == 6
  | .b32Enc => true
  | .b32Dec => true
  | .gcmEnc => true
  | .gcmDec => true
  | .keyLoad => true
  | .keyClear => true

end Sys2Proof
end

