-- ==== Sys2Proof/Decode.lean ====
section
/-! DEFINITION. Decoding of command and `KEYCTL` words, total on every word, and the encoder. -/

namespace Sys2Proof

/-- `OP`, bits [3:0] of a command word (30_encoding.md R80). -/
def opField (w : Word) : BitVec 4 := w.extractLsb' 0 4

/-- `RSV0`, bits [7:4] (30_encoding.md R80). -/
def rsv0Field (w : Word) : BitVec 4 := w.extractLsb' 4 4

/-- `DIGITS`, bits [11:8] (30_encoding.md R80). -/
def digitsField (w : Word) : BitVec 4 := w.extractLsb' 8 4

/-- `RSV1`, bits [31:12] (30_encoding.md R80). -/
def rsv1Field (w : Word) : BitVec 20 := w.extractLsb' 12 20

/-- The command an `OP` value names, with the `DIGITS` field where the command has one
(30_encoding.md R81). -/
def opCommand (op digits : BitVec 4) : Option Instr :=
  if op = 0x1 then some .hmacSha1
  else if op = 0x2 then some (.hotp digits)
  else if op = 0x3 then some (.hotpTrunc digits)
  else if op = 0x4 then some .b32Enc
  else if op = 0x5 then some .b32Dec
  else if op = 0x6 then some .gcmEnc
  else if op = 0x7 then some .gcmDec
  else none

/-- Whether a command takes its `DIGITS` field: `HOTP` and `HOTP_TRUNC` alone (30_encoding.md R82). -/
def usesDigits : Instr → Bool
  | .hotp _ => true
  | .hotpTrunc _ => true
  | .hmacSha1 => false
  | .b32Enc => false
  | .b32Dec => false
  | .gcmEnc => false
  | .gcmDec => false
  | .keyLoad => false
  | .keyClear => false

/-- `DECODE` of 30_encoding.md R86, in its order of checks: reserved bits, `OP`, `DIGITS`. -/
def decodeCmd (w : Word) : Except ErrCode Instr :=
  if rsv0Field w ≠ 0 ∨ rsv1Field w ≠ 0 then .error .illegalCmd
  else match opCommand (opField w) (digitsField w) with
    | none => .error .illegalCmd
    | some i =>
      if usesDigits i then
        (if digitsField w ≠ 6 then .error .badDigits else .ok i)
      else
        (if digitsField w ≠ 0 then .error .illegalCmd else .ok i)

/-- The action a `KEYCTL` word asks for: CLEAR wins over LOAD, and bits [31:2] are ignored
(10_state.md R39). -/
def decodeKeyctl (w : Word) : Option Instr :=
  if w.getLsbD 1 then some .keyClear
  else if w.getLsbD 0 then some .keyLoad
  else none

/-- The decoder of both ports, total on every word, rejecting by name. -/
def decode (p : Port) (w : Word) : Except Reject Instr :=
  match p with
  | .cmd =>
    match decodeCmd w with
    | .ok i => .ok i
    | .error e => .error (.error e)
  | .keyctl =>
    match decodeKeyctl w with
    | some i => .ok i
    | none => .error .noAction

/-- A command word with the given `OP` and `DIGITS`, reserved bits 0 (30_encoding.md R80). -/
def cmdWord (op digits : BitVec 4) : Word := ((0 : BitVec 20) ++ digits ++ (0 : BitVec 4) ++ op)

/-- The word of an instruction (30_encoding.md R81, R82; 10_state.md R39). -/
def encode : Instr → Word
  | .hmacSha1 => cmdWord 0x1 0
  | .hotp digits => cmdWord 0x2 digits
  | .hotpTrunc digits => cmdWord 0x3 digits
  | .b32Enc => cmdWord 0x4 0
  | .b32Dec => cmdWord 0x5 0
  | .gcmEnc => cmdWord 0x6 0
  | .gcmDec => cmdWord 0x7 0
  | .keyLoad => 0x00000001
  | .keyClear => 0x00000002

/-- The register an instruction's word is written to. -/
def portOf : Instr → Port
  | .hmacSha1 => .cmd
  | .hotp _ => .cmd
  | .hotpTrunc _ => .cmd
  | .b32Enc => .cmd
  | .b32Dec => .cmd
  | .gcmEnc => .cmd
  | .gcmDec => .cmd
  | .keyLoad => .keyctl
  | .keyClear => .keyctl

/-- Which port a word of the opcode table is taken for (log 7). The table gives a `KEYCTL32` row
fewer than 32 bits. A 32-bit word is a command word where it is a legal one, and else a `KEYCTL`
word. Only the host's table probe uses this: a bus write names its register. -/
def tablePort (nbits w : Nat) : Port :=
  if nbits < 32 then .keyctl
  else match decodeCmd (BitVec.ofNat 32 w) with
    | .ok _ => .cmd
    | .error _ => .keyctl

/-- The instruction the decoder reads from a word as spec/opcode_table.json numbers its bits. -/
def decodeTableWord (nbits w : Nat) : Option Instr :=
  if w < 2 ^ 32 then
    match decode (tablePort nbits w) (BitVec.ofNat 32 w) with
    | .ok i => some i
    | .error _ => none
  else none

end Sys2Proof
end

