-- ==== Sys2Proof/Config.lean ====
section
/-! DEFINITION. What an implementation of the engine fixes, and the values the spec leaves open.
An `opaque` constant has no body: no proof can learn its value. -/

namespace Sys2Proof.Config

/-- The byte size of the engine buffer, `BUF_BYTES` (00_scope.md R8, 10_state.md R46). -/
def bufBytes : Nat := 4096

/-- The byte size of the host window (00_scope.md R8, 20_memory.md R60). -/
def windowBytes : Nat := 8192

/-- The window offset of `BUF[0]` (20_memory.md R60). -/
def bufOffset : Nat := 0x1000

/-- The width of a legal host access, in bits (00_scope.md R8, 20_memory.md R64). -/
def busWidth : Nat := 32

/-- The value of the `ID` register, "OTP1" in ASCII (00_scope.md R1, 10_state.md R22). -/
def idValue : Word := 0x4F545031

/-- `ENGINE_BASE`, the host bus address of window offset 0: the one parameter the spec leaves open
(00_scope.md R9). It enters nothing the engine does (log 5). -/
opaque engineBase : Nat

/-- The free value of a host read of a result location while busy (10_state.md R48), one for each
value of the counter `State.draws` (log 2). -/
opaque draw : Nat → Word

end Sys2Proof.Config
end

