-- ==== Sys2Proof/Machine/State.lean ====
section
/-! DEFINITION. The engine's state, the events the outside world sends it, the reasons a step can
stop, and the state after reset. -/

namespace Sys2Proof.Machine

/-- A host bus access: a window offset (the bus address less `ENGINE_BASE`, 00_scope.md R9), a
width in bits, and for a write the value (00_scope.md R16, 20_memory.md R64). -/
inductive Access where
  | read (offset width : Nat)
  | write (offset width : Nat) (value : Word)
  deriving DecidableEq, Repr

/-- What can happen next. The list of them in `State` is the schedule and the host's input
together, as plain data (00_scope.md R16, 70_reset_and_hazards.md R272, log 1). -/
inductive Event where
  /-- One host step. -/
  | access (a : Access)
  /-- The engine's turn: its step if a command is pending, else nothing. -/
  | engine
  /-- The reset input is asserted (70_reset_and_hazards.md R260). -/
  | reset
  deriving DecidableEq, Repr

/-- What the latest host access was answered with (the model's own record, log 6). -/
inductive Response where
  /-- No access yet. -/
  | none
  /-- A write was taken by the window. -/
  | written
  /-- A read returned this word. -/
  | data (v : Word)
  /-- The access was outside the window: the engine does not respond (20_memory.md R71, log 4). -/
  | undecoded
  deriving DecidableEq, Repr

/-- A location of the host window (10_state.md R23). -/
inductive Loc where
  | id | cmd | status | intEn | srcAddr | srcLen | keyAddr | keyLen | dstAddr | resLen
  | cntLo | cntHi | hotpCode | hotpOff | hotpBin | keyctl
  | aesKey (i : Fin 8)
  | iv (i : Fin 3)
  | tag (i : Fin 4)
  | digest (i : Fin 5)
  /-- A reserved offset (10_state.md R45). -/
  | reserved
  /-- The buffer word whose first byte has this offset in `BUF` (20_memory.md R61). -/
  | buf (a : Nat)
  deriving DecidableEq, Repr

/-- Why the machine stops with a fault. -/
inductive Fault where
  /-- A host access inside the window that is not 32 bits wide or not 4-byte aligned: a fault of the
  host agent that names the access (60_exceptions.md R223). Raised by `step` alone, when no command
  is pending. Safe: the engine's state is unchanged and the hardware too gives no data (log 3). -/
  | busError (a : Access)
  deriving DecidableEq, Repr

/-- Why a step has no meaning. -/
inductive Refusal where
  /-- An instruction without a meaning yet. No arm of `exec` raises it. Safe. -/
  | notModelled (mnemonic : String)
  deriving DecidableEq, Repr

/-- The buffer's bytes, by byte offset, in the canonical form of `Sys2Proof.Machine.Memory.wf`. -/
abbrev Memory := List Host.Cell

/-- The engine's architectural state (10_state.md R20), and three fields of the model's own. -/
@[ext]
structure State where
  /-- `CMD` (10_state.md R24); with `busy` it is the pending command (R50). -/
  cmd : Word
  /-- `STATUS.BUSY` (10_state.md R25). -/
  busy : Bool
  /-- `STATUS.DONE` (10_state.md R26). -/
  done : Bool
  /-- `STATUS.ERR` (10_state.md R27). -/
  err : Bool
  /-- `STATUS.WBUSY` (10_state.md R28). -/
  wbusy : Bool
  /-- `STATUS.ERRCODE` (10_state.md R27). -/
  errCode : BitVec 4
  /-- `INT_EN.DONE_IE` (10_state.md R30). -/
  doneIe : Bool
  /-- `SRC_ADDR` (10_state.md R31). -/
  srcAddr : Word
  /-- `SRC_LEN` (10_state.md R31). -/
  srcLen : Word
  /-- `KEY_ADDR` (10_state.md R32). -/
  keyAddr : Word
  /-- `KEY_LEN` (10_state.md R32). -/
  keyLen : Word
  /-- `DST_ADDR` (10_state.md R33). -/
  dstAddr : Word
  /-- `RES_LEN` (10_state.md R34). -/
  resLen : Word
  /-- `CNT_LO` (10_state.md R35). -/
  cntLo : Word
  /-- `CNT_HI` (10_state.md R35). -/
  cntHi : Word
  /-- `HOTP_CODE` (10_state.md R36). -/
  hotpCode : Word
  /-- `HOTP_OFF` (10_state.md R37). -/
  hotpOff : Word
  /-- `HOTP_BIN` (10_state.md R38). -/
  hotpBin : Word
  /-- `AESKEY0` to `AESKEY7` (10_state.md R40). -/
  aesKey : Vector Word 8
  /-- `IV0` to `IV2` (10_state.md R42). -/
  iv : Vector Word 3
  /-- `TAG0` to `TAG3` (10_state.md R43). -/
  tag : Vector Word 4
  /-- `DIGEST0` to `DIGEST4` (10_state.md R44). -/
  digest : Vector Word 5
  /-- `K_INT`, the AES-256 key in use (10_state.md R41). -/
  kInt : Vector Byte 32
  /-- `KEY_VALID` (10_state.md R41). -/
  keyValid : Bool
  /-- `BUF` (10_state.md R46). -/
  buf : Memory
  /-- The model's own: what happens next, first first (log 1). -/
  events : List Event
  /-- The model's own: what the latest host access was answered with (log 6). -/
  response : Response
  /-- The model's own: the number of draws taken so far (log 2). -/
  draws : Nat
  deriving DecidableEq, Repr

/-- The state after reset (10_state.md R52, 70_reset_and_hazards.md R261). The values of the last
three fields are the model's choice (logs 1, 2, 6). -/
def State.reset : State where
  cmd := 0
  busy := false
  done := false
  err := false
  wbusy := false
  errCode := 0
  doneIe := false
  srcAddr := 0
  srcLen := 0
  keyAddr := 0
  keyLen := 0
  dstAddr := 0
  resLen := 0
  cntLo := 0
  cntHi := 0
  hotpCode := 0
  hotpOff := 0
  hotpBin := 0
  aesKey := Vector.replicate 8 0
  iv := Vector.replicate 3 0
  tag := Vector.replicate 4 0
  digest := Vector.replicate 5 0
  kInt := Vector.replicate 32 0
  keyValid := false
  buf := []
  events := []
  response := .none
  draws := 0

end Sys2Proof.Machine
end

