-- ==== Sys2Proof/Machine/Flags.lean ====
section
/-! DEFINITION. STATUS, the error codes and the interrupt line. -/

namespace Sys2Proof.Machine

/-- The code of an error as `STATUS.ERRCODE` holds it (60_exceptions.md R211). -/
def errBits : ErrCode → BitVec 4
  | .illegalCmd => 0x1
  | .badDigits => 0x2
  | .noKey => 0x3
  | .badLen => 0x4
  | .keyEmpty => 0x5
  | .range => 0x6
  | .authFail => 0x7

/-- A flag as a number. -/
def bit (b : Bool) : Word := if b then 1 else 0

/-- The read value of `STATUS` (10_state.md R29). -/
def statusWord (s : State) : Word :=
  bit s.busy ||| (bit s.done <<< 1) ||| (bit s.err <<< 2) ||| (bit s.wbusy <<< 3) |||
    (s.errCode.setWidth 32 <<< 8)

/-- The read value of `INT_EN` (10_state.md R30). -/
def intEnWord (s : State) : Word := bit s.doneIe

/-- The read value of `KEYCTL` (10_state.md R39). -/
def keyctlWord (s : State) : Word := bit s.keyValid

/-- The interrupt output: `IRQ = STATUS.DONE & INT_EN.DONE_IE` (60_exceptions.md R224). -/
def irq (s : State) : Bool := s.done && s.doneIe

/-- A host write of `STATUS`: write 1 to clear `DONE` and `WBUSY`, nothing else
(10_state.md R26, R28, R29). -/
def writeStatus (s : State) (v : Word) : State :=
  { s with done := s.done && !v.getLsbD 1, wbusy := s.wbusy && !v.getLsbD 3 }

/-- A host write of `INT_EN` (10_state.md R30). -/
def writeIntEn (s : State) (v : Word) : State := { s with doneIe := v.getLsbD 0 }

/-- A host write ignored because of busy (10_state.md R28, R47). -/
def setWbusy (s : State) : State := { s with wbusy := true }

end Sys2Proof.Machine
end

