-- ==== Sys2Proof/Machine/Bytes.lean ====
section
/-! DEFINITION. Byte strings and their operators (00_scope.md R11, R12, R14). -/

namespace Sys2Proof.Machine

/-- `zeros(n)`: `n` zero bytes (00_scope.md R11). -/
def zeros (n : Nat) : List Byte := List.replicate n 0

/-- `BEval(b)`: the unsigned integer whose big-endian encoding is `b` (00_scope.md R11). -/
def beVal (b : List Byte) : Nat := b.foldl (fun n x => 256 * n + x.toNat) 0

/-- `BE_n(v)`: the `n`-byte big-endian encoding of `v` (00_scope.md R11). -/
def beBytes (n v : Nat) : List Byte :=
  (List.range n).map fun i => BitVec.ofNat 8 (v >>> (8 * (n - 1 - i)))

/-- `LEval(b)`: as `beVal`, byte 0 the least significant (00_scope.md R11). -/
def leVal (b : List Byte) : Nat := b.foldr (fun x n => x.toNat + 256 * n) 0

/-- `LE_n(v)`: as `beBytes`, byte 0 the least significant (00_scope.md R11). -/
def leBytes (n v : Nat) : List Byte :=
  (List.range n).map fun i => BitVec.ofNat 8 (v >>> (8 * i))

/-- The first `n` pieces of length `k` of a list, the last of them shorter where the list ends:
`b[ki .. ki+k)` for `i = 0 .. n-1`. -/
def pieces {α : Type} (k : Nat) : Nat → List α → List (List α)
  | 0, _ => []
  | n + 1, b => b.take k :: pieces k n (b.drop k)

/-- Byte by byte exclusive or, as long as the shorter operand (00_scope.md R12). -/
def xorBytes (a b : List Byte) : List Byte := List.zipWith (· ^^^ ·) a b

/-- `ROTL32(x, n)` (00_scope.md R12). -/
def rotl32 (x : Word) (n : Nat) : Word := (x <<< n) ||| (x >>> (32 - n))

/-- `REGBYTES(P, n)`: the byte string of a register group (00_scope.md R14). -/
def regBytes {n : Nat} (p : Vector Word n) : List Byte :=
  p.toList.flatMap fun w => leBytes 4 w.toNat

/-- `SETREGBYTES(P, b)`: the register group whose register `i` is `LEval(b[4i .. 4i+4))`
(00_scope.md R14). -/
def setRegBytes (n : Nat) (b : List Byte) : Vector Word n :=
  Vector.ofFn fun i => BitVec.ofNat 32 (leVal ((b.drop (4 * i.val)).take 4))

/-- The ASCII bytes of a word's four lanes as a bus word: `LEval` of four bytes (20_memory.md R61). -/
def leWord (b : List Byte) : Word := BitVec.ofNat 32 (leVal b)

end Sys2Proof.Machine
end

