-- ==== Sys2Proof/Machine/Memory.lean ====
section
/-! DEFINITION. The buffer's reads and writes over its canonical list form. -/

namespace Sys2Proof.Machine

/-- What a buffer byte that the list does not hold reads as: its reset value 0x00
(10_state.md R46, 70_reset_and_hazards.md R261). -/
def unlistedByte : Byte := 0x00

/-- The canonical form of a memory: offsets strictly rising, no entry equal to `unlistedByte`. -/
abbrev Memory.wf (m : Memory) : Prop :=
  m.Pairwise (fun c d => c.1 < d.1) ∧ ∀ c ∈ m, c.2 ≠ unlistedByte

/-- Every listed offset is a buffer offset (20_memory.md R60). -/
abbrev memInBuf (m : Memory) : Prop := ∀ c ∈ m, c.1 < Config.bufBytes

/-- `BUF[a]`. -/
def readByte : Memory → Nat → Byte
  | [], _ => unlistedByte
  | (k, v) :: m, a => if a = k then v else readByte m a

/-- A byte at the head of a memory, or nothing where it is what an unlisted offset reads as. -/
def consByte (a : Nat) (v : Byte) (m : Memory) : Memory :=
  if v = unlistedByte then m else (a, v) :: m

/-- `BUF[a] <- v`, keeping the canonical form. -/
def writeByte : Memory → Nat → Byte → Memory
  | [], a, v => consByte a v []
  | (k, w) :: m, a, v =>
    if a < k then consByte a v ((k, w) :: m)
    else if a = k then consByte a v m
    else (k, w) :: writeByte m a v

/-- `MemRead(addr, n)` (00_scope.md R13). -/
def memRead (m : Memory) (a n : Nat) : List Byte := (List.range n).map fun i => readByte m (a + i)

/-- `MemWrite(addr, n, v)` with `n` the length of `v` (00_scope.md R13). -/
def memWrite : Memory → Nat → List Byte → Memory
  | m, _, [] => m
  | m, a, b :: bs => memWrite (writeByte m a b) (a + 1) bs

end Sys2Proof.Machine
end

