-- ==== Sys2Proof/Machine/Operands.lean ====
section
/-! DEFINITION. How a command finds its operands (30_encoding.md R84) and its destination (R85). -/

namespace Sys2Proof.Machine

/-- A region is in bounds when `addr + len <= BUF_BYTES`, in unbounded arithmetic
(20_memory.md R66). -/
def inBounds (addr len : Nat) : Bool := addr + len ≤ Config.bufBytes

/-- The source region `(SRC_ADDR, SRC_LEN)` is in bounds. -/
def srcInBounds (s : State) : Bool := inBounds s.srcAddr.toNat s.srcLen.toNat

/-- The key region `(KEY_ADDR, KEY_LEN)` is in bounds. -/
def keyInBounds (s : State) : Bool := inBounds s.keyAddr.toNat s.keyLen.toNat

/-- The destination region `(DST_ADDR, L)` is in bounds (60_exceptions.md R217). -/
def dstInBounds (s : State) (l : Nat) : Bool := inBounds s.dstAddr.toNat l

/-- The bytes of the source region. -/
def srcBytes (s : State) : List Byte := memRead s.buf s.srcAddr.toNat s.srcLen.toNat

/-- The bytes of the HMAC key region. -/
def keyBytes (s : State) : List Byte := memRead s.buf s.keyAddr.toNat s.keyLen.toNat

/-- `COUNTER = x[CNT_HI] << 32 | x[CNT_LO]` (10_state.md R35). -/
def counter (s : State) : BitVec 64 := s.cntHi ++ s.cntLo

/-- The 32 bytes of `K_INT` (10_state.md R41). -/
def kIntBytes (s : State) : List Byte := s.kInt.toList

/-- The 12-byte IV (10_state.md R42). -/
def ivBytes (s : State) : List Byte := regBytes s.iv

/-- The 16-byte tag (10_state.md R43). -/
def tagBytes (s : State) : List Byte := regBytes s.tag

end Sys2Proof.Machine
end

