-- ==== Sys2Proof/Machine/Ops.lean ====
section
/-! DEFINITION. The named operations on the state that the instructions share: the start and the
completion of a command, its result writes, the key register, and reset. -/

namespace Sys2Proof.Machine

/-- Write a command's byte-string result at `DST_ADDR` and its length to `RES_LEN`
(30_encoding.md R85, 10_state.md R34). -/
def writeResult (s : State) (out : List Byte) : State :=
  { s with buf := memWrite s.buf s.dstAddr.toNat out, resLen := BitVec.ofNat 32 out.length }

/-- `SETREGBYTES(DIGEST, D)` (10_state.md R44). -/
def writeDigest (s : State) (d : List Byte) : State := { s with digest := setRegBytes 5 d }

/-- `SETREGBYTES(TAG, T)` (10_state.md R43). -/
def writeTag (s : State) (t : List Byte) : State := { s with tag := setRegBytes 4 t }

/-- The three HOTP result registers (10_state.md R36 to R38). -/
def writeHotp (s : State) (off : Nat) (bin : Word) (code : Nat) : State :=
  { s with hotpOff := BitVec.ofNat 32 off, hotpBin := bin, hotpCode := BitVec.ofNat 32 code }

/-- Completion with success: what the engine step sets beside the command's own writes
(60_exceptions.md R220, R221). -/
def succeed (s : State) : State :=
  { s with busy := false, done := true, err := false, errCode := 0 }

/-- Completion with an error, the engine's only form of an exception: `RES_LEN`, `STATUS` and
nothing else (60_exceptions.md R220, R222). It saves no other state and transfers no control
(R210), and there is no return from it (R227). -/
def failWith (e : ErrCode) (s : State) : State :=
  { s with busy := false, done := true, err := true, errCode := errBits e, resLen := 0 }

/-- The end of an engine step: on success the state with the command's writes made, on failure the
state before it (60_exceptions.md R220). -/
def complete (s : State) (r : Except ErrCode State) : Host.Outcome State Fault Refusal :=
  match r with
  | .ok t => .next (succeed t)
  | .error e => .next (failWith e s)

/-- An accepted host write to `CMD` (30_encoding.md R90). -/
def startCommand (s : State) (v : Word) : State :=
  { s with cmd := v, busy := true, done := false, err := false, errCode := 0 }

/-- The staged key `REGBYTES(AESKEY, 8)`, 32 bytes (10_state.md R40). -/
def stagedKey (p : Vector Word 8) : Vector Byte 32 :=
  Vector.ofFn fun i => (regBytes p).getD i.val 0

/-- What KEY_LOAD writes: `K_INT <- REGBYTES(AESKEY, 8)`, `KEY_VALID <- 1` (43_aes_gcm.md R188). -/
def loadKey (s : State) : State := { s with kInt := stagedKey s.aesKey, keyValid := true }

/-- What KEY_CLEAR writes (43_aes_gcm.md R189). -/
def clearKey (s : State) : State :=
  { s with aesKey := Vector.replicate 8 0, kInt := Vector.replicate 32 0, keyValid := false }

/-- The reset input: every piece of the engine's state takes its reset value, a pending command is
abandoned (70_reset_and_hazards.md R261, R262). The events to come are the outside world's and stay,
and so does the count of draws taken (log 14). -/
def resetEngine (s : State) : State :=
  { State.reset with events := s.events, draws := s.draws }

/-- Take the first event off the list. -/
def popEvent (s : State) : State := { s with events := s.events.tail }

/-- Record what a host access was answered with. -/
def respond (s : State) (r : Response) : State := { s with response := r }

/-- Put an event at the head of the list. -/
def pushEvent (s : State) (e : Event) : State := { s with events := e :: s.events }

end Sys2Proof.Machine
end

