-- ==== Sys2Proof/Machine/Base32.lean ====
section
/-! DEFINITION. The Base32 encoder and decoder (40_base32.md). -/

namespace Sys2Proof.Machine

/-- `SYM(j)`: the alphabet character of symbol value `j` (40_base32.md R100). -/
def b32Sym (j : Nat) : Byte :=
  if j ≤ 25 then BitVec.ofNat 8 (0x41 + j) else BitVec.ofNat 8 (0x32 + (j - 26))

/-- `SYMVAL(c)`: the value of an alphabet character, none of any other byte (40_base32.md R100). -/
def b32SymVal (c : Byte) : Option Nat :=
  if 0x41 ≤ c.toNat ∧ c.toNat ≤ 0x5A then some (c.toNat - 0x41)
  else if 0x32 ≤ c.toNat ∧ c.toNat ≤ 0x37 then some (c.toNat - 0x32 + 26)
  else none

/-- The bits of a byte, most significant first. -/
def byteBits (b : Byte) : List Bool :=
  [b.getLsbD 7, b.getLsbD 6, b.getLsbD 5, b.getLsbD 4, b.getLsbD 3, b.getLsbD 2, b.getLsbD 1, b.getLsbD 0]

/-- The bit string of a byte string, most significant bit first across byte boundaries
(40_base32.md R101). -/
def bitString (b : List Byte) : List Bool := b.flatMap byteBits

/-- The value of a bit string, first bit most significant. -/
def bitsVal (s : List Bool) : Nat := s.foldl (fun n x => 2 * n + x.toNat) 0

/-- The encoder's output length `ceil(8n / 5)` (30_encoding.md R85, 40_base32.md R101). -/
def b32EncLen (n : Nat) : Nat := (8 * n + 4) / 5

/-- `B32ENC(b)` (40_base32.md R101). -/
def b32Encode (b : List Byte) : List Byte :=
  let m := b32EncLen b.length
  let padded := bitString b ++ List.replicate (5 * m - 8 * b.length) false
  (pieces 5 m padded).map fun s => b32Sym (bitsVal s)

/-- ASCII upper-casing of one byte (40_base32.md R103). -/
def asciiUpper (c : Byte) : Byte := if 0x61 ≤ c.toNat ∧ c.toNat ≤ 0x7A then c - 0x20 else c

/-- Removal of the longest suffix of `=` bytes (40_base32.md R104). -/
def stripEquals (t : List Byte) : List Byte := (t.reverse.dropWhile (· == 0x3D)).reverse

/-- The decoder's loop, with its 12-bit accumulator and its count of held bits
(40_base32.md R105, R106). -/
def b32DecodeLoop : List Byte → BitVec 12 → Nat → List Byte
  | [], _, _ => []
  | c :: cs, acc, nbits =>
    match b32SymVal c with
    | none => b32DecodeLoop cs acc nbits
    | some v =>
      let acc' := (acc <<< 5) ||| BitVec.ofNat 12 v
      if 8 ≤ nbits + 5 then
        (acc' >>> (nbits + 5 - 8)).setWidth 8 :: b32DecodeLoop cs acc' (nbits + 5 - 8)
      else b32DecodeLoop cs acc' (nbits + 5)

/-- `B32DEC(t)` (40_base32.md R103 to R106). -/
def b32Decode (t : List Byte) : List Byte := b32DecodeLoop (stripEquals (t.map asciiUpper)) 0 0

/-- The checks and writes of `B32_ENC` (40_base32.md R107). -/
def performB32Enc (s : State) : Except ErrCode State :=
  if !srcInBounds s then .error .range
  else if !dstInBounds s (b32EncLen s.srcLen.toNat) then .error .range
  else .ok (writeResult s (b32Encode (srcBytes s)))

/-- `B32_ENC` (40_base32.md R107). -/
def execB32Enc (s : State) : Host.Outcome State Fault Refusal := complete s (performB32Enc s)

/-- The checks and writes of `B32_DEC` (40_base32.md R108). -/
def performB32Dec (s : State) : Except ErrCode State :=
  if !srcInBounds s then .error .range
  else
    let out := b32Decode (srcBytes s)
    if !dstInBounds s out.length then .error .range
    else .ok (writeResult s out)

/-- `B32_DEC` (40_base32.md R108). -/
def execB32Dec (s : State) : Host.Outcome State Fault Refusal := complete s (performB32Dec s)

end Sys2Proof.Machine
end

