-- ==== Sys2Proof/Machine/Aes.lean ====
section
/-! DEFINITION. The AES-256 forward cipher (43_aes_gcm.md R170 to R178). A word is a list of four
bytes, and the state array is a list of sixteen with `s[r][c]` at `r + 4c` (R170). -/

namespace Sys2Proof.Machine

/-- The S-box table, one row for each high nibble (43_aes_gcm.md R171). -/
def sboxRows : List (List Byte) :=
  [[0x63, 0x7c, 0x77, 0x7b, 0xf2, 0x6b, 0x6f, 0xc5, 0x30, 0x01, 0x67, 0x2b, 0xfe, 0xd7, 0xab, 0x76],
   [0xca, 0x82, 0xc9, 0x7d, 0xfa, 0x59, 0x47, 0xf0, 0xad, 0xd4, 0xa2, 0xaf, 0x9c, 0xa4, 0x72, 0xc0],
   [0xb7, 0xfd, 0x93, 0x26, 0x36, 0x3f, 0xf7, 0xcc, 0x34, 0xa5, 0xe5, 0xf1, 0x71, 0xd8, 0x31, 0x15],
   [0x04, 0xc7, 0x23, 0xc3, 0x18, 0x96, 0x05, 0x9a, 0x07, 0x12, 0x80, 0xe2, 0xeb, 0x27, 0xb2, 0x75],
   [0x09, 0x83, 0x2c, 0x1a, 0x1b, 0x6e, 0x5a, 0xa0, 0x52, 0x3b, 0xd6, 0xb3, 0x29, 0xe3, 0x2f, 0x84],
   [0x53, 0xd1, 0x00, 0xed, 0x20, 0xfc, 0xb1, 0x5b, 0x6a, 0xcb, 0xbe, 0x39, 0x4a, 0x4c, 0x58, 0xcf],
   [0xd0, 0xef, 0xaa, 0xfb, 0x43, 0x4d, 0x33, 0x85, 0x45, 0xf9, 0x02, 0x7f, 0x50, 0x3c, 0x9f, 0xa8],
   [0x51, 0xa3, 0x40, 0x8f, 0x92, 0x9d, 0x38, 0xf5, 0xbc, 0xb6, 0xda, 0x21, 0x10, 0xff, 0xf3, 0xd2],
   [0xcd, 0x0c, 0x13, 0xec, 0x5f, 0x97, 0x44, 0x17, 0xc4, 0xa7, 0x7e, 0x3d, 0x64, 0x5d, 0x19, 0x73],
   [0x60, 0x81, 0x4f, 0xdc, 0x22, 0x2a, 0x90, 0x88, 0x46, 0xee, 0xb8, 0x14, 0xde, 0x5e, 0x0b, 0xdb],
   [0xe0, 0x32, 0x3a, 0x0a, 0x49, 0x06, 0x24, 0x5c, 0xc2, 0xd3, 0xac, 0x62, 0x91, 0x95, 0xe4, 0x79],
   [0xe7, 0xc8, 0x37, 0x6d, 0x8d, 0xd5, 0x4e, 0xa9, 0x6c, 0x56, 0xf4, 0xea, 0x65, 0x7a, 0xae, 0x08],
   [0xba, 0x78, 0x25, 0x2e, 0x1c, 0xa6, 0xb4, 0xc6, 0xe8, 0xdd, 0x74, 0x1f, 0x4b, 0xbd, 0x8b, 0x8a],
   [0x70, 0x3e, 0xb5, 0x66, 0x48, 0x03, 0xf6, 0x0e, 0x61, 0x35, 0x57, 0xb9, 0x86, 0xc1, 0x1d, 0x9e],
   [0xe1, 0xf8, 0x98, 0x11, 0x69, 0xd9, 0x8e, 0x94, 0x9b, 0x1e, 0x87, 0xe9, 0xce, 0x55, 0x28, 0xdf],
   [0x8c, 0xa1, 0x89, 0x0d, 0xbf, 0xe6, 0x42, 0x68, 0x41, 0x99, 0x2d, 0x0f, 0xb0, 0x54, 0xbb, 0x16]]

/-- `SBOX[x]` (43_aes_gcm.md R171). -/
def sbox (x : Byte) : Byte := (sboxRows.getD (x.toNat / 16) []).getD (x.toNat % 16) 0

/-- Multiplication by 2 in GF(2^8) (43_aes_gcm.md R172). -/
def xtime (a : Byte) : Byte := (a <<< 1) ^^^ (if a.getLsbD 7 then 0x1B else 0x00)

/-- Multiplication by 3 in GF(2^8) (43_aes_gcm.md R172). -/
def times3 (a : Byte) : Byte := xtime a ^^^ a

/-- The general product's loop: the low `n` bits of `b`, with `a` doubled at each. -/
def gf8MulLoop : Nat → Byte → Byte → Byte → Byte
  | 0, _, _, z => z
  | n + 1, a, b, z => gf8MulLoop n (xtime a) (b >>> 1) (if b.getLsbD 0 then z ^^^ a else z)

/-- The general product in GF(2^8) (43_aes_gcm.md R172). -/
def gf8Mul (a b : Byte) : Byte := gf8MulLoop 8 a b 0

/-- `RotWord` (43_aes_gcm.md R173). -/
def rotWord : List Byte → List Byte
  | [] => []
  | a :: r => r ++ [a]

/-- `SubWord` (43_aes_gcm.md R173). -/
def subWord (w : List Byte) : List Byte := w.map sbox

/-- `RC[i]` for `i = 1 .. 7` (43_aes_gcm.md R173). -/
def roundConst (i : Nat) : Byte := [0x00, 0x01, 0x02, 0x04, 0x08, 0x10, 0x20, 0x40].getD i 0

/-- The word `temp` of 43_aes_gcm.md R173 at index `i`, from `w[i-1]`. -/
def keyTemp (i : Nat) (prev : List Byte) : List Byte :=
  if i % 8 = 0 then xorBytes (subWord (rotWord prev)) [roundConst (i / 8), 0, 0, 0]
  else if i % 8 = 4 then subWord prev
  else prev

/-- Extend a key schedule by `n` words from index `i` on. The list is held newest first, so `w[i-1]`
and `w[i-8]` stand at 0 and 7 (43_aes_gcm.md R173). -/
def keyExtend : Nat → Nat → List (List Byte) → List (List Byte)
  | 0, _, w => w
  | n + 1, i, w => keyExtend n (i + 1) (xorBytes (w.getD 7 []) (keyTemp i (w.getD 0 [])) :: w)

/-- The key expansion `w[0] .. w[59]` of a 32-byte key (43_aes_gcm.md R173). -/
def keyExpansion (k : List Byte) : List (List Byte) :=
  (keyExtend 52 8 (pieces 4 8 k).reverse).reverse

/-- Round key `rnd`: the words `w[4 rnd .. 4 rnd + 3]` (43_aes_gcm.md R173). -/
def roundKey (w : List (List Byte)) (rnd : Nat) : List Byte := ((w.drop (4 * rnd)).take 4).flatten

/-- SubBytes (43_aes_gcm.md R174). -/
def subBytes (s : List Byte) : List Byte := s.map sbox

/-- ShiftRows: `s'[r][c] = s[r][(c + r) mod 4]` (43_aes_gcm.md R175). -/
def shiftRows (s : List Byte) : List Byte :=
  (List.range 16).map fun i => s.getD (i % 4 + 4 * ((i / 4 + i % 4) % 4)) 0

/-- MixColumns, column by column (43_aes_gcm.md R176). -/
def mixColumns : List Byte → List Byte
  | a0 :: a1 :: a2 :: a3 :: rest =>
    (xtime a0 ^^^ times3 a1 ^^^ a2 ^^^ a3) :: (a0 ^^^ xtime a1 ^^^ times3 a2 ^^^ a3) ::
      (a0 ^^^ a1 ^^^ xtime a2 ^^^ times3 a3) :: (times3 a0 ^^^ a1 ^^^ a2 ^^^ xtime a3) :: mixColumns rest
  | _ => []

/-- AddRoundKey(rnd) (43_aes_gcm.md R177). -/
def addRoundKey (w : List (List Byte)) (rnd : Nat) (s : List Byte) : List Byte :=
  xorBytes s (roundKey w rnd)

/-- `n` full rounds from round `rnd` on (43_aes_gcm.md R178). -/
def aesRounds (w : List (List Byte)) : Nat → Nat → List Byte → List Byte
  | 0, _, s => s
  | n + 1, rnd, s => aesRounds w n (rnd + 1) (addRoundKey w rnd (mixColumns (shiftRows (subBytes s))))

/-- The cipher under an expanded key (43_aes_gcm.md R178). -/
def aesCipher (w : List (List Byte)) (block : List Byte) : List Byte :=
  addRoundKey w 14 (shiftRows (subBytes (aesRounds w 13 1 (addRoundKey w 0 block))))

/-- `AES_K(in)` (43_aes_gcm.md R178). -/
def aes (k block : List Byte) : List Byte := aesCipher (keyExpansion k) block

end Sys2Proof.Machine
end

