-- ==== Sys2Proof/Machine/Gcm.lean ====
section
/-! DEFINITION. GCM and the `GCM_ENC` and `GCM_DEC` commands (43_aes_gcm.md R179 to R187). -/

namespace Sys2Proof.Machine

/-- The loop of `GFMUL` with `n` bits of `X` left to read, most significant first: at GCM bit `i` the
count left is `128 - i` and the integer bit is `127 - i` (43_aes_gcm.md R179). -/
def gfMulLoop (x : BitVec 128) : Nat → BitVec 128 → BitVec 128 → BitVec 128
  | 0, _, z => z
  | n + 1, v, z =>
    gfMulLoop x n
      (if v.getLsbD 0 then (v >>> 1) ^^^ ((0xE1 : BitVec 128) <<< 120) else v >>> 1)
      (if x.getLsbD n then z ^^^ v else z)

/-- `GFMUL(X, Y)` (43_aes_gcm.md R179). -/
def gfMul (x y : BitVec 128) : BitVec 128 := gfMulLoop x 128 y 0

/-- A 16-byte block as a 128-bit integer, `BEval` (43_aes_gcm.md R179). -/
def blockVal (b : List Byte) : BitVec 128 := BitVec.ofNat 128 (beVal b)

/-- `BE_16` of a 128-bit integer. -/
def blockBytes (x : BitVec 128) : List Byte := beBytes 16 x.toNat

/-- `GHASH_H(X)` (43_aes_gcm.md R180). -/
def ghash (h : BitVec 128) (x : List Byte) : List Byte :=
  blockBytes ((pieces 16 (x.length / 16) x).foldl (fun y b => gfMul (y ^^^ blockVal b) h) 0)

/-- `inc32(CB)` (43_aes_gcm.md R181). -/
def inc32 (cb : List Byte) : List Byte :=
  cb.take 12 ++ beBytes 4 ((beVal (cb.drop 12) + 1) % 2 ^ 32)

/-- The loop of `GCTR` over `n` blocks, under an expanded key (43_aes_gcm.md R182). -/
def gctrLoop (w : List (List Byte)) : Nat → List Byte → List Byte → List Byte
  | 0, _, _ => []
  | n + 1, cb, x => xorBytes (x.take 16) (aesCipher w cb) ++ gctrLoop w n (inc32 cb) (x.drop 16)

/-- The number of 16-byte blocks of `n` bytes, `ceil(n / 16)`. -/
def blockCount (n : Nat) : Nat := (n + 15) / 16

/-- `GCTR_K(ICB, X)` (43_aes_gcm.md R182). -/
def gctr (k icb x : List Byte) : List Byte := gctrLoop (keyExpansion k) (blockCount x.length) icb x

/-- `H = BEval(AES_K(zeros(16)))` (43_aes_gcm.md R183). -/
def hashSubkey (k : List Byte) : BitVec 128 := blockVal (aes k (zeros 16))

/-- `J0 = IV || 00 00 00 01` (43_aes_gcm.md R183). -/
def preCounter (iv : List Byte) : List Byte := iv ++ [0x00, 0x00, 0x00, 0x01]

/-- The string GHASH runs over: `C || zeros(u) || BE_8(0) || BE_8(8 len(C))`
(43_aes_gcm.md R184). -/
def ghashInput (c : List Byte) : List Byte :=
  c ++ zeros (16 * blockCount c.length - c.length) ++ beBytes 8 0 ++ beBytes 8 (8 * c.length)

/-- The tag of a ciphertext: `AES_K(J0) ^ S` (43_aes_gcm.md R184, R185). -/
def gcmTag (k iv c : List Byte) : List Byte :=
  xorBytes (aes k (preCounter iv)) (ghash (hashSubkey k) (ghashInput c))

/-- The ciphertext and the tag, `GCM_AE(K, IV, P)` (43_aes_gcm.md R184). -/
def gcmAE (k iv p : List Byte) : List Byte × List Byte :=
  let c := gctr k (inc32 (preCounter iv)) p
  (c, gcmTag k iv c)

/-- `GCM_AD(K, IV, C, T)`, none for FAIL: the tag is compared in full first (43_aes_gcm.md R185). -/
def gcmAD (k iv c t : List Byte) : Option (List Byte) :=
  if gcmTag k iv c ≠ t then none else some (gctr k (inc32 (preCounter iv)) c)

/-- The checks and writes of `GCM_ENC` (43_aes_gcm.md R186). -/
def performGcmEnc (s : State) : Except ErrCode State :=
  if !s.keyValid then .error .noKey
  else if !srcInBounds s then .error .range
  else if !dstInBounds s s.srcLen.toNat then .error .range
  else
    let r := gcmAE (kIntBytes s) (ivBytes s) (srcBytes s)
    .ok (writeTag (writeResult s r.1) r.2)

/-- `GCM_ENC` (43_aes_gcm.md R186). -/
def execGcmEnc (s : State) : Host.Outcome State Fault Refusal := complete s (performGcmEnc s)

/-- The checks and writes of `GCM_DEC` (43_aes_gcm.md R187). -/
def performGcmDec (s : State) : Except ErrCode State :=
  if !s.keyValid then .error .noKey
  else if !srcInBounds s then .error .range
  else if !dstInBounds s s.srcLen.toNat then .error .range
  else match gcmAD (kIntBytes s) (ivBytes s) (srcBytes s) (tagBytes s) with
    | none => .error .authFail
    | some p => .ok (writeResult s p)

/-- `GCM_DEC` (43_aes_gcm.md R187). -/
def execGcmDec (s : State) : Host.Outcome State Fault Refusal := complete s (performGcmDec s)

end Sys2Proof.Machine
end

