-- ==== Sys2Proof/Machine/Sha1.lean ====
section
/-! DEFINITION. SHA-1, HMAC-SHA1 and the `HMAC_SHA1` command (41_hmac_sha1.md). -/

namespace Sys2Proof.Machine

/-- The count `z` of zero bytes in the padding: the least with `(len + 1 + z) mod 64 = 56`
(41_hmac_sha1.md R120). -/
def sha1PadZeros (len : Nat) : Nat := (119 - len % 64) % 64

/-- `PAD(M)` (41_hmac_sha1.md R120). -/
def sha1Pad (m : List Byte) : List Byte :=
  m ++ [0x80] ++ zeros (sha1PadZeros m.length) ++ beBytes 8 (8 * m.length)

/-- The five chaining words `H0` to `H4`, or the five working variables `a` to `e`
(41_hmac_sha1.md R121, R124). -/
structure Sha1Vars where
  a : Word
  b : Word
  c : Word
  d : Word
  e : Word
  deriving DecidableEq, Repr

/-- The initial hash value (41_hmac_sha1.md R121). -/
def sha1Init : Sha1Vars := ⟨0x67452301, 0xEFCDAB89, 0x98BADCFE, 0x10325476, 0xC3D2E1F0⟩

/-- The first sixteen schedule words of a block (41_hmac_sha1.md R122). -/
def sha1BlockWords (block : List Byte) : List Word :=
  (pieces 4 16 block).map fun q => BitVec.ofNat 32 (beVal q)

/-- Extend a schedule by `n` words. The list is held newest first, so `W[t-3]`, `W[t-8]`, `W[t-14]`
and `W[t-16]` stand at 2, 7, 13 and 15 (41_hmac_sha1.md R122). -/
def sha1Extend : Nat → List Word → List Word
  | 0, w => w
  | n + 1, w =>
    sha1Extend n (rotl32 (w.getD 2 0 ^^^ w.getD 7 0 ^^^ w.getD 13 0 ^^^ w.getD 15 0) 1 :: w)

/-- The message schedule `W[0] .. W[79]` of a block (41_hmac_sha1.md R122). -/
def sha1Schedule (block : List Byte) : List Word :=
  (sha1Extend 64 (sha1BlockWords block).reverse).reverse

/-- `f_t(b, c, d)` (41_hmac_sha1.md R123). -/
def sha1F (t : Nat) (b c d : Word) : Word :=
  if t < 20 then (b &&& c) ^^^ (~~~b &&& d)
  else if t < 40 then b ^^^ c ^^^ d
  else if t < 60 then (b &&& c) ^^^ (b &&& d) ^^^ (c &&& d)
  else b ^^^ c ^^^ d

/-- `K_t` (41_hmac_sha1.md R123). -/
def sha1K (t : Nat) : Word :=
  if t < 20 then 0x5A827999
  else if t < 40 then 0x6ED9EBA1
  else if t < 60 then 0x8F1BBCDC
  else 0xCA62C1D6

/-- Round `t` with schedule word `w` (41_hmac_sha1.md R124). -/
def sha1Round (t : Nat) (w : Word) (v : Sha1Vars) : Sha1Vars where
  a := rotl32 v.a 5 + sha1F t v.b v.c v.d + v.e + sha1K t + w
  b := v.a
  c := rotl32 v.b 30
  d := v.c
  e := v.d

/-- The rounds from round `t` on, one for each schedule word left (41_hmac_sha1.md R124). -/
def sha1Rounds : Nat → List Word → Sha1Vars → Sha1Vars
  | _, [], v => v
  | t, w :: ws, v => sha1Rounds (t + 1) ws (sha1Round t w v)

/-- The compression of one block (41_hmac_sha1.md R124). -/
def sha1Compress (h : Sha1Vars) (block : List Byte) : Sha1Vars :=
  let v := sha1Rounds 0 (sha1Schedule block) h
  ⟨h.a + v.a, h.b + v.b, h.c + v.c, h.d + v.d, h.e + v.e⟩

/-- `BE_4(H0) || .. || BE_4(H4)` (41_hmac_sha1.md R125). -/
def sha1Digest (h : Sha1Vars) : List Byte :=
  [h.a, h.b, h.c, h.d, h.e].flatMap fun w => beBytes 4 w.toNat

/-- `SHA1(M)` (41_hmac_sha1.md R120 to R125). -/
def sha1 (m : List Byte) : List Byte :=
  let padded := sha1Pad m
  sha1Digest ((pieces 64 (padded.length / 64) padded).foldl sha1Compress sha1Init)

/-- `K0`, the key filled up to one block, hashed first where it is longer
(41_hmac_sha1.md R126). -/
def hmacKeyBlock (k : List Byte) : List Byte :=
  if k.length ≤ 64 then k ++ zeros (64 - k.length) else sha1 k ++ zeros 44

/-- `HMAC_SHA1(K, M)` (41_hmac_sha1.md R127). -/
def hmacSha1 (k m : List Byte) : List Byte :=
  let k0 := hmacKeyBlock k
  sha1 (xorBytes k0 (List.replicate 64 0x5C) ++ sha1 (xorBytes k0 (List.replicate 64 0x36) ++ m))

/-- The checks and writes of `HMAC_SHA1` (41_hmac_sha1.md R128). -/
def performHmacSha1 (s : State) : Except ErrCode State :=
  if !srcInBounds s then .error .range
  else if !keyInBounds s then .error .range
  else if !dstInBounds s 20 then .error .range
  else
    let d := hmacSha1 (keyBytes s) (srcBytes s)
    .ok (writeDigest (writeResult s d) d)

/-- `HMAC_SHA1` (41_hmac_sha1.md R128). -/
def execHmacSha1 (s : State) : Host.Outcome State Fault Refusal := complete s (performHmacSha1 s)

end Sys2Proof.Machine
end

