-- ==== Sys2Proof/Machine/Hotp.lean ====
section
/-! DEFINITION. HOTP and dynamic truncation (42_hotp.md). -/

namespace Sys2Proof.Machine

/-- `COUNTERBYTES(c) = BE_8(c)` (42_hotp.md R150). -/
def counterBytes (c : BitVec 64) : List Byte := beBytes 8 c.toNat

/-- `OFF(D) = D[19] & 0x0F` (42_hotp.md R151). -/
def hotpOffset (d : List Byte) : Nat := (d.getD 19 0 &&& 0x0F).toNat

/-- `BIN(D) = BEval(D[OFF(D) .. OFF(D)+4)) & 0x7FFFFFFF` (42_hotp.md R152). -/
def hotpBinary (d : List Byte) : Word :=
  BitVec.ofNat 32 (beVal ((d.drop (hotpOffset d)).take 4)) &&& 0x7FFFFFFF

/-- `CODE(D) = BIN(D) mod 1000000` (42_hotp.md R153). -/
def hotpCodeOf (d : List Byte) : Nat := (hotpBinary d).toNat % 1000000

/-- `DIGITS6(v)`: six ASCII decimal digits, most significant first (42_hotp.md R154). -/
def digits6 (v : Nat) : List Byte :=
  (List.range 6).map fun i => BitVec.ofNat 8 (0x30 + v / 10 ^ (5 - i) % 10)

/-- The writes both HOTP commands make from a digest (42_hotp.md R155, R156). -/
def writeCode (s : State) (d : List Byte) : State :=
  writeHotp (writeResult s (digits6 (hotpCodeOf d))) (hotpOffset d) (hotpBinary d) (hotpCodeOf d)

/-- The digest `HOTP` truncates: HMAC-SHA1 of the counter's eight bytes (42_hotp.md R155). -/
def hotpDigest (s : State) : List Byte := hmacSha1 (keyBytes s) (counterBytes (counter s))

/-- The checks and writes of `HOTP` (42_hotp.md R155), with the `DIGITS` check of
60_exceptions.md R213 first (log 8). -/
def performHotp (digits : BitVec 4) (s : State) : Except ErrCode State :=
  if digits ≠ 6 then .error .badDigits
  else if s.keyLen = 0 then .error .keyEmpty
  else if !keyInBounds s then .error .range
  else if !dstInBounds s 6 then .error .range
  else .ok (writeDigest (writeCode s (hotpDigest s)) (hotpDigest s))

/-- `HOTP` (42_hotp.md R155). -/
def execHotp (digits : BitVec 4) (s : State) : Host.Outcome State Fault Refusal :=
  complete s (performHotp digits s)

/-- The checks and writes of `HOTP_TRUNC` (42_hotp.md R156), with the `DIGITS` check of
60_exceptions.md R213 first (log 8). -/
def performHotpTrunc (digits : BitVec 4) (s : State) : Except ErrCode State :=
  if digits ≠ 6 then .error .badDigits
  else if s.srcLen ≠ 20 then .error .badLen
  else if !srcInBounds s then .error .range
  else if !dstInBounds s 6 then .error .range
  else .ok (writeCode s (srcBytes s))

/-- `HOTP_TRUNC` (42_hotp.md R156). -/
def execHotpTrunc (digits : BitVec 4) (s : State) : Host.Outcome State Fault Refusal :=
  complete s (performHotpTrunc digits s)

end Sys2Proof.Machine
end

