-- ==== Sys2Proof/Machine/KeyCtl.lean ====
section
/-! DEFINITION. The two `KEYCTL` actions (43_aes_gcm.md R188, R189; 10_state.md R39). -/

namespace Sys2Proof.Machine

/-- `KEY_LOAD` (43_aes_gcm.md R188). While busy the write is ignored (10_state.md R47). -/
def execKeyLoad (s : State) : Host.Outcome State Fault Refusal :=
  if s.busy then .next (setWbusy s) else .next (loadKey s)

/-- `KEY_CLEAR` (43_aes_gcm.md R189). While busy the write is ignored (10_state.md R47). -/
def execKeyClear (s : State) : Host.Outcome State Fault Refusal :=
  if s.busy then .next (setWbusy s) else .next (clearKey s)

end Sys2Proof.Machine
end

