-- ==== Sys2Proof/Machine/Dispatch.lean ====
section
/-! DEFINITION. One arm for each instruction: the engine step of a command (60_exceptions.md R220),
or the action of a `KEYCTL` write. -/

namespace Sys2Proof.Machine

def exec (i : Instr) (s : State) : Host.Outcome State Fault Refusal :=
  match i with
  | .hmacSha1 => Sys2Proof.Machine.execHmacSha1 s
  | .hotp digits => Sys2Proof.Machine.execHotp digits s
  | .hotpTrunc digits => Sys2Proof.Machine.execHotpTrunc digits s
  | .b32Enc => Sys2Proof.Machine.execB32Enc s
  | .b32Dec => Sys2Proof.Machine.execB32Dec s
  | .gcmEnc => Sys2Proof.Machine.execGcmEnc s
  | .gcmDec => Sys2Proof.Machine.execGcmDec s
  | .keyLoad => Sys2Proof.Machine.execKeyLoad s
  | .keyClear => Sys2Proof.Machine.execKeyClear s

end Sys2Proof.Machine
end

