-- ==== Sys2Proof/Machine/Bus.lean ====
section
/-! DEFINITION. The host bus: the register map, what a host read returns and what a host write does
(10_state.md, 20_memory.md R60 to R64). -/

namespace Sys2Proof.Machine

/-- The host bus address of a window offset (00_scope.md R9, log 5). -/
def busAddress (offset : Nat) : Nat := Config.engineBase + offset

/-- The offset of an access. -/
def accessOffset : Access → Nat
  | .read offset _ => offset
  | .write offset _ _ => offset

/-- The width of an access in bits. -/
def accessWidth : Access → Nat
  | .read _ width => width
  | .write _ width _ => width

/-- The engine decodes the offset at all (20_memory.md R64, R71). -/
def inWindow (a : Access) : Bool := accessOffset a < Config.windowBytes

/-- The access is one 20_memory.md R64 allows: 32 bits wide and 4-byte aligned. -/
def legalAccess (a : Access) : Bool := accessWidth a == Config.busWidth && accessOffset a % 4 == 0

/-- The register map, from 0x000 to 0xFFC (10_state.md R23, R45). -/
def registerAt (offset : Nat) : Loc :=
  if offset = 0x000 then .id
  else if offset = 0x004 then .cmd
  else if offset = 0x008 then .status
  else if offset = 0x00C then .intEn
  else if offset = 0x010 then .srcAddr
  else if offset = 0x014 then .srcLen
  else if offset = 0x018 then .keyAddr
  else if offset = 0x01C then .keyLen
  else if offset = 0x020 then .dstAddr
  else if offset = 0x024 then .resLen
  else if offset = 0x028 then .cntLo
  else if offset = 0x02C then .cntHi
  else if offset = 0x030 then .hotpCode
  else if offset = 0x034 then .hotpOff
  else if offset = 0x038 then .hotpBin
  else if offset = 0x03C then .keyctl
  else if offset < 0x060 then .aesKey (Fin.ofNat 8 ((offset - 0x040) / 4))
  else if offset < 0x06C then .iv (Fin.ofNat 3 ((offset - 0x060) / 4))
  else if offset < 0x070 then .reserved
  else if offset < 0x080 then .tag (Fin.ofNat 4 ((offset - 0x070) / 4))
  else if offset < 0x094 then .digest (Fin.ofNat 5 ((offset - 0x080) / 4))
  else .reserved

/-- The location of an aligned window offset (20_memory.md R60). -/
def locate (offset : Nat) : Loc :=
  if offset < Config.bufOffset then registerAt offset else .buf (offset - Config.bufOffset)

/-- The busy-blocked locations (10_state.md R47, the "blk" rows of R23). -/
def busyBlocked : Loc → Bool
  | .cmd | .srcAddr | .srcLen | .keyAddr | .keyLen | .dstAddr | .cntLo | .cntHi | .keyctl => true
  | .aesKey _ | .iv _ | .tag _ | .buf _ => true
  | .id | .status | .intEn | .resLen | .hotpCode | .hotpOff | .hotpBin | .digest _ | .reserved => false

/-- The result locations (10_state.md R48). -/
def resultLoc : Loc → Bool
  | .resLen | .hotpCode | .hotpOff | .hotpBin | .tag _ | .digest _ | .buf _ => true
  | .id | .cmd | .status | .intEn | .srcAddr | .srcLen | .keyAddr | .keyLen | .dstAddr => false
  | .cntLo | .cntHi | .keyctl | .aesKey _ | .iv _ | .reserved => false

/-- The defined read value of a location (10_state.md R22 to R46, 20_memory.md R61). -/
def locValue (s : State) : Loc → Word
  | .id => Config.idValue
  | .cmd => s.cmd
  | .status => statusWord s
  | .intEn => intEnWord s
  | .srcAddr => s.srcAddr
  | .srcLen => s.srcLen
  | .keyAddr => s.keyAddr
  | .keyLen => s.keyLen
  | .dstAddr => s.dstAddr
  | .resLen => s.resLen
  | .cntLo => s.cntLo
  | .cntHi => s.cntHi
  | .hotpCode => s.hotpCode
  | .hotpOff => s.hotpOff
  | .hotpBin => s.hotpBin
  | .keyctl => keyctlWord s
  | .aesKey _ => 0
  | .iv i => s.iv[i]
  | .tag i => s.tag[i]
  | .digest i => s.digest[i]
  | .reserved => 0
  | .buf a => leWord (memRead s.buf a 4)

/-- A host read: a fresh draw from a result location while busy (10_state.md R48), and else the
defined value, with no side effect (20_memory.md R69). -/
def hostRead (s : State) (l : Loc) : State :=
  if s.busy && resultLoc l then
    { respond s (.data (Config.draw s.draws)) with draws := s.draws + 1 }
  else respond s (.data (locValue s l))

/-- What an accepted host write of `v` does. A `KEYCTL` word that names an action does not come here
(`busAction`); one that names none has no effect (10_state.md R39). Writes to RO and reserved
locations are ignored (R45). -/
def storeLoc (s : State) (v : Word) : Loc → State
  | .cmd => startCommand s v
  | .status => writeStatus s v
  | .intEn => writeIntEn s v
  | .srcAddr => { s with srcAddr := v }
  | .srcLen => { s with srcLen := v }
  | .keyAddr => { s with keyAddr := v }
  | .keyLen => { s with keyLen := v }
  | .dstAddr => { s with dstAddr := v }
  | .cntLo => { s with cntLo := v }
  | .cntHi => { s with cntHi := v }
  | .aesKey i => { s with aesKey := s.aesKey.set i.val v i.isLt }
  | .iv i => { s with iv := s.iv.set i.val v i.isLt }
  | .tag i => { s with tag := s.tag.set i.val v i.isLt }
  | .buf a => { s with buf := memWrite s.buf a (leBytes 4 v.toNat) }
  | .keyctl => s
  | .id | .resLen | .hotpCode | .hotpOff | .hotpBin | .digest _ | .reserved => s

/-- A host write: ignored, with `WBUSY` set, at a busy-blocked location while busy
(10_state.md R47). -/
def hostWrite (s : State) (l : Loc) (v : Word) : State :=
  if s.busy && busyBlocked l then setWbusy (respond s .written) else storeLoc (respond s .written) v l

/-- A legal host access that is not a `KEYCTL` action. -/
def hostAccess (s : State) : Access → State
  | .read offset _ => hostRead s (locate offset)
  | .write offset _ v => hostWrite s (locate offset) v

/-- The instruction a host access is, if it is one: a write of an action word to `KEYCTL`
(10_state.md R39). -/
def busAction : Access → Option Instr
  | .read _ _ => none
  | .write offset _ v => if locate offset = .keyctl then decodeKeyctl v else none

end Sys2Proof.Machine
end

