-- ==== Sys2Proof/Machine/Schedule.lean ====
section
/-! DEFINITION. Who moves next: the engine, the host, the reset input, or nobody (log 1). -/

namespace Sys2Proof.Machine

/-- What the next step is. -/
inductive Turn where
  /-- The engine's step on the pending command, with the state it starts from. -/
  | engineStep (s : State)
  /-- The reset input. -/
  | resetStep (s : State)
  /-- A legal host access, with the state after the access is taken off the list. -/
  | hostStep (a : Access) (s : State)
  /-- A host access outside the window. -/
  | outside (s : State)
  /-- The host agent is at an access that is a bus error, and no command is pending. -/
  | busError (a : Access)
  /-- Nothing happens. -/
  | idle (s : State)
  deriving DecidableEq, Repr

/-- The turn of a host access at the head of the events. A host stopped at a bus error takes no
further step, so a pending command completes first (log 3). -/
def accessTurn (s : State) (a : Access) : Turn :=
  if !inWindow a then .outside (popEvent s)
  else if legalAccess a then .hostStep a (popEvent s)
  else if s.busy then .engineStep s
  else .busError a

/-- The next turn. With no event left, a pending command still completes: the list is finite, so
every pending command does (70_reset_and_hazards.md R272). An idle engine holds its state
(60_exceptions.md R243). -/
def turn (s : State) : Turn :=
  match s.events with
  | [] => if s.busy then .engineStep s else .idle s
  | .engine :: _ => if s.busy then .engineStep (popEvent s) else .idle (popEvent s)
  | .reset :: _ => .resetStep (popEvent s)
  | .access a :: _ => accessTurn s a

/-- The state that has the word of an instruction where the next step takes it: a command word in
`CMD` with the command pending and the engine's turn next, or a `KEYCTL` word in a host write that
comes next, with no command pending (log 7). -/
def placeWord (p : Port) (s : State) (w : Word) : State :=
  match p with
  | .cmd => pushEvent (startCommand s w) .engine
  | .keyctl => pushEvent { s with busy := false } (.access (.write 0x03C 32 w))

end Sys2Proof.Machine
end

