-- ==== Sys2Proof/Machine/Step.lean ====
section
/-! DEFINITION. One step of the machine. -/

namespace Sys2Proof.Machine

/-- `ENGINE_STEP` (60_exceptions.md R220): the stored word is decoded here, and a word that is no
command fails with its error (30_encoding.md R86, R90). -/
def engineStep (s : State) : Host.Outcome State Fault Refusal :=
  match decodeCmd s.cmd with
  | .ok i => exec i s
  | .error e => .next (failWith e s)

/-- A legal host access: a `KEYCTL` action is an instruction, any other access is the bus's. -/
def hostStep (a : Access) (s : State) : Host.Outcome State Fault Refusal :=
  match busAction a with
  | some i => exec i (respond s .written)
  | none => .next (hostAccess s a)

/-- One step: the turn of whoever moves next (00_scope.md R16). -/
def step (s : State) : Host.Outcome State Fault Refusal :=
  match turn s with
  | .engineStep t => engineStep t
  | .resetStep t => .next (resetEngine t)
  | .hostStep a t => hostStep a t
  | .outside t => .next (respond t .undecoded)
  | .busError a => .fault (.busError a)
  | .idle t => .next t

/-- A table word placed where the very next step runs it (log 7). -/
def State.withFetchWord (s : State) (nbits w : Nat) : State :=
  placeWord (tablePort nbits w) s (BitVec.ofNat 32 w)

end Sys2Proof.Machine
end

