-- ==== Sys2Proof/Machine/HostOps.lean ====
section
/-! DEFINITION. The pseudo-instructions of host programs as the host accesses they expand to
(30_encoding.md R88, R89). Labels, `goto` and host variables are host-side and stay outside (R88). -/

namespace Sys2Proof.Machine

/-- `WR <reg>, <value>`, by the register's offset (30_encoding.md R88). -/
def hostWr (offset : Nat) (v : Word) : Event := .access (.write offset 32 v)

/-- `RD <reg>` (30_encoding.md R88). -/
def hostRd (offset : Nat) : Event := .access (.read offset 32)

/-- Writes of consecutive words from an offset on. -/
def hostWrs : Nat → List Word → List Event
  | _, [] => []
  | offset, w :: ws => hostWr offset w :: hostWrs (offset + 4) ws

/-- `WRW <boff>, <w0>, <w1>, ...` (30_encoding.md R88). -/
def hostWrw (boff : Nat) (ws : List Word) : List Event := hostWrs (Config.bufOffset + boff) ws

/-- `WRB <boff>, <bytes>`: zero-padded to whole words, packed little-endian (30_encoding.md R88). -/
def hostWrb (boff : Nat) (b : List Byte) : List Event :=
  hostWrw boff ((pieces 4 ((b.length + 3) / 4) b).map leWord)

/-- One pass of `POLL`: `RD STATUS` (30_encoding.md R89). -/
def hostPoll : Event := hostRd 0x008

/-- `HMAC_SHA1 d, s, n, k, m` (30_encoding.md R89). -/
def hostHmacSha1 (d s n k m : Word) : List Event :=
  [hostWr 0x010 s, hostWr 0x014 n, hostWr 0x018 k, hostWr 0x01C m, hostWr 0x020 d, hostWr 0x004 0x00000001]

/-- `HOTP d, k, m, c` (30_encoding.md R89). -/
def hostHotp (d k m : Word) (c : BitVec 64) : List Event :=
  [hostWr 0x018 k, hostWr 0x01C m, hostWr 0x028 (c.extractLsb' 0 32), hostWr 0x02C (c.extractLsb' 32 32),
    hostWr 0x020 d, hostWr 0x004 0x00000602]

/-- `HOTP_TRUNC d, s` (30_encoding.md R89). -/
def hostHotpTrunc (d s : Word) : List Event :=
  [hostWr 0x010 s, hostWr 0x014 20, hostWr 0x020 d, hostWr 0x004 0x00000603]

/-- The common shape of the four commands with a source alone (30_encoding.md R89). -/
def hostSourceOp (d s n word : Word) : List Event :=
  [hostWr 0x010 s, hostWr 0x014 n, hostWr 0x020 d, hostWr 0x004 word]

/-- `B32_ENC d, s, n` (30_encoding.md R89). -/
def hostB32Enc (d s n : Word) : List Event := hostSourceOp d s n 0x00000004

/-- `B32_DEC d, s, n` (30_encoding.md R89). -/
def hostB32Dec (d s n : Word) : List Event := hostSourceOp d s n 0x00000005

/-- `GCM_ENC d, s, n` (30_encoding.md R89). -/
def hostGcmEnc (d s n : Word) : List Event := hostSourceOp d s n 0x00000006

/-- `GCM_DEC d, s, n` (30_encoding.md R89). -/
def hostGcmDec (d s n : Word) : List Event := hostSourceOp d s n 0x00000007

/-- `KEY_LOAD w0..w7` (30_encoding.md R89). -/
def hostKeyLoad (w : Vector Word 8) : List Event := hostWrs 0x040 w.toList ++ [hostWr 0x03C 0x1]

/-- `KEY_CLEAR` (30_encoding.md R89). -/
def hostKeyClear : List Event := [hostWr 0x03C 0x2]

/-- `SET_IV w0,w1,w2` (30_encoding.md R89). -/
def hostSetIv (w : Vector Word 3) : List Event := hostWrs 0x060 w.toList

/-- `SET_TAG w0..w3` (30_encoding.md R89). -/
def hostSetTag (w : Vector Word 4) : List Event := hostWrs 0x070 w.toList

/-- `ACK` (30_encoding.md R89). -/
def hostAck : Event := hostWr 0x008 0x2

end Sys2Proof.Machine
end

