-- ==== Sys2Proof/Safety.lean ====
section
/-! DEFINITION. What a good state of the engine is, and the words claims about runs are made of. -/

namespace Sys2Proof.Machine

/-- The next state of an outcome, if it has one. -/
def nextState : Host.Outcome State Fault Refusal → Option State
  | .next s => some s
  | .fault _ => none
  | .refused _ => none

/-- The buffer is in its canonical form and within its 4096 bytes. -/
abbrev BufOk (s : State) : Prop := Memory.wf s.buf ∧ memInBuf s.buf

/-- `STATUS` while busy reads BUSY = 1, DONE = 0, ERR = 0, ERRCODE = 0 (10_state.md R48), and ERR and
ERRCODE go together, with the reserved codes never produced (10_state.md R27, 60_exceptions.md R211). -/
abbrev StatusOk (s : State) : Prop :=
  (s.busy = true → s.done = false ∧ s.err = false) ∧
  (s.err = false → s.errCode = 0) ∧
  (s.err = true → 1 ≤ s.errCode.toNat ∧ s.errCode.toNat ≤ 7)

/-- The HOTP result registers stay in their ranges, and RES_LEN names a length the buffer has
(10_state.md R34, R36 to R38). -/
abbrev ResultsOk (s : State) : Prop :=
  s.hotpCode.toNat < 1000000 ∧ s.hotpOff.toNat < 16 ∧ s.hotpBin.toNat < 2 ^ 31 ∧
    s.resLen.toNat ≤ Config.bufBytes

/-- With no key loaded, `K_INT` holds zeros (10_state.md R41). -/
abbrev KeyOk (s : State) : Prop := s.keyValid = false → s.kInt = Vector.replicate 32 0

/-- The invariant of the machine. -/
abbrev EngineOk (s : State) : Prop := BufOk s ∧ StatusOk s ∧ ResultsOk s ∧ KeyOk s

end Sys2Proof.Machine
end

