-- ==== Sys2Proof/Certificates/Slice0/Obligations.lean ====
section
/-! DEFINITION. The statements for the provers, from the numbered rules of spec/. -/

open Sys2Proof Sys2Proof.Machine

namespace Sys2Proof.Claims

/-- The next event is a 32-bit host write of `v` at a window offset. -/
def NextIsWrite (s : State) (offset : Nat) (v : Word) (rest : List Event) : Prop :=
  s.events = .access (.write offset 32 v) :: rest

/-- The next event is a 32-bit host read of a window offset. -/
def NextIsRead (s : State) (offset : Nat) (rest : List Event) : Prop :=
  s.events = .access (.read offset 32) :: rest

/-- An aligned offset of the window (20_memory.md R60, R64). -/
abbrev WordOffset (offset : Nat) : Prop := offset % 4 = 0 ∧ offset < 0x2000

/-- The offsets 10_state.md R47 lists: `CMD`, `SRC_ADDR` to `DST_ADDR`, `CNT_LO`, `CNT_HI`, `KEYCTL`,
`AESKEY0..7`, `IV0..2`, `TAG0..3` and every `BUF` word. -/
abbrev BusyBlockedOffset (o : Nat) : Prop :=
  o % 4 = 0 ∧ (o = 0x004 ∨ (0x010 ≤ o ∧ o ≤ 0x020) ∨ (0x028 ≤ o ∧ o ≤ 0x02C) ∨ o = 0x03C ∨
    (0x040 ≤ o ∧ o ≤ 0x05C) ∨ (0x060 ≤ o ∧ o ≤ 0x068) ∨ (0x070 ≤ o ∧ o ≤ 0x07C) ∨ (0x1000 ≤ o ∧ o ≤ 0x1FFC))

/-- The offsets 10_state.md R48 lists: `RES_LEN`, `HOTP_CODE`, `HOTP_OFF`, `HOTP_BIN`, `TAG0..3`,
`DIGEST0..4` and any `BUF` word. -/
abbrev ResultOffset (o : Nat) : Prop :=
  o % 4 = 0 ∧ (o = 0x024 ∨ (0x030 ≤ o ∧ o ≤ 0x038) ∨ (0x070 ≤ o ∧ o ≤ 0x07C) ∨
    (0x080 ≤ o ∧ o ≤ 0x090) ∨ (0x1000 ≤ o ∧ o ≤ 0x1FFC))

/-- The reserved offsets of 10_state.md R45. -/
abbrev ReservedOffset (o : Nat) : Prop := o % 4 = 0 ∧ (o = 0x06C ∨ (0x094 ≤ o ∧ o ≤ 0xFFC))

/-- The read-only registers of 10_state.md R45. -/
abbrev ReadOnlyOffset (o : Nat) : Prop :=
  o % 4 = 0 ∧ (o = 0x000 ∨ o = 0x024 ∨ (0x030 ≤ o ∧ o ≤ 0x038) ∨ (0x080 ≤ o ∧ o ≤ 0x090))

/-- In state `s`, a 32-bit host read of the offset returns `v` and changes nothing else. -/
def ReadsAs (s : State) (offset : Nat) (v : Word) : Prop :=
  ∀ rest, step { s with events := .access (.read offset 32) :: rest } =
    .next { s with events := rest, response := .data v }

/-- In state `s`, a 32-bit host write of `v` at the offset leaves the state `t`, but for the event
taken and the answer. -/
def WriteLeaves (s : State) (offset : Nat) (v : Word) (t : State) : Prop :=
  ∀ rest, step { s with events := .access (.write offset 32 v) :: rest } =
    .next { t with events := rest, response := .written }

/-- What 60_exceptions.md R222 leaves of a failed command. -/
def failedState (s : State) (code : BitVec 4) : State :=
  { s with busy := false, done := true, err := true, errCode := code, resLen := 0 }

/-- The instruction answers the failed state with an error code. -/
def FailsWith (i : Instr) (s : State) (code : BitVec 4) : Prop := exec i s = .next (failedState s code)

/-- The source region is in bounds (20_memory.md R66). -/
abbrev SrcOk (s : State) : Prop := s.srcAddr.toNat + s.srcLen.toNat ≤ 4096

/-- The key region is in bounds (20_memory.md R66). -/
abbrev KeyRegionOk (s : State) : Prop := s.keyAddr.toNat + s.keyLen.toNat ≤ 4096

/-- The destination region of length `l` is in bounds (20_memory.md R66). -/
abbrev DstOk (s : State) (l : Nat) : Prop := s.dstAddr.toNat + l ≤ 4096

/-- The source bytes, `MemRead(x[SRC_ADDR], x[SRC_LEN])`. -/
def src (s : State) : List Byte := memRead s.buf s.srcAddr.toNat s.srcLen.toNat

/-- The key bytes, `MemRead(x[KEY_ADDR], x[KEY_LEN])`. -/
def hmacKey (s : State) : List Byte := memRead s.buf s.keyAddr.toNat s.keyLen.toNat

/-- `MemWrite(addr, len(out), out)` and no other byte: each byte of `out` at its place, every byte
outside as before. -/
def Stores (m m' : Memory) (addr : Nat) (out : List Byte) : Prop :=
  memRead m' addr out.length = out ∧
    ∀ a, (a < addr ∨ addr + out.length ≤ a) → readByte m' a = readByte m a

/-- A successful completion from `s` to `t` that stores `out` at `DST_ADDR`: memory, `RES_LEN` and
`STATUS` (60_exceptions.md R220, R221). -/
def Completes (s t : State) (out : List Byte) : Prop :=
  Stores s.buf t.buf s.dstAddr.toNat out ∧ t.resLen.toNat = out.length ∧ t.busy = false ∧ t.done = true ∧
    t.err = false ∧ t.errCode = 0

/-- All but the fields a completion may write and the result registers is as before. -/
def OnlyResults (s t : State) : Prop :=
  t = { s with
    buf := t.buf, resLen := t.resLen, busy := t.busy, done := t.done, err := t.err, errCode := t.errCode,
    digest := t.digest, tag := t.tag, hotpCode := t.hotpCode, hotpOff := t.hotpOff, hotpBin := t.hotpBin }

/-- The HOTP result registers are as before. -/
def SameHotp (s t : State) : Prop :=
  t.hotpCode = s.hotpCode ∧ t.hotpOff = s.hotpOff ∧ t.hotpBin = s.hotpBin

/-- The HOTP result registers hold the truncation of a digest (42_hotp.md R151 to R153). -/
def HotpOf (t : State) (d : List Byte) : Prop :=
  t.hotpOff.toNat = hotpOffset d ∧ t.hotpBin = hotpBinary d ∧ t.hotpCode.toNat = hotpCodeOf d

/-- The words whose `OP` is the command's: the one with every other bit 0 is the command, and any other
is an ILLEGAL_CMD (30_encoding.md R80, R82, R83). -/
def OneWord (op : BitVec 4) (i : Instr) : Prop :=
  ∀ w : Word, w.extractLsb' 0 4 = op →
    decodeCmd w = if w.extractLsb' 4 28 = 0 then .ok i else .error .illegalCmd

/-- The same of a command with `DIGITS`: a reserved bit is an ILLEGAL_CMD, and else `DIGITS` other than
6 a BAD_DIGITS. -/
def OneDigitsWord (op : BitVec 4) (i : Instr) : Prop :=
  ∀ w : Word, w.extractLsb' 0 4 = op →
    decodeCmd w =
      if w.extractLsb' 4 4 ≠ 0 ∨ w.extractLsb' 12 20 ≠ 0 then .error .illegalCmd
      else if w.extractLsb' 8 4 ≠ 6 then .error .badDigits
      else .ok i

/-- Two states that differ at most in the staged and the loaded AES key. -/
def SameButKey (s t : State) : Prop := t = { s with aesKey := t.aesKey, kInt := t.kInt }

/-- The state that a host program of plain writes leaves: no event left, the last write answered. -/
def written (s : State) : State := { s with events := [], response := .written }

/-- A list of events, run from a state without others, ends in the outcome. -/
def Runs (s : State) (p : List Event) (extra : Nat) (r : Host.Outcome State Fault Refusal) : Prop :=
  Host.Core.run Sys2Proof.core (p.length + extra) { s with events := p } = r

end Sys2Proof.Claims

open Sys2Proof.Claims

/-! Reset. -/

/-- 70_reset_and_hazards.md R261, 10_state.md R52. -/
def Obligations.ResetStateIsAllZero : Prop :=
  let s := State.reset
  s.cmd = 0 ∧ s.doneIe = false ∧ s.srcAddr = 0 ∧ s.srcLen = 0 ∧ s.keyAddr = 0 ∧ s.keyLen = 0 ∧ s.dstAddr = 0 ∧
    s.resLen = 0 ∧ s.cntLo = 0 ∧ s.cntHi = 0 ∧ s.hotpCode = 0 ∧ s.hotpOff = 0 ∧ s.hotpBin = 0 ∧
    (∀ i : Fin 8, s.aesKey[i] = 0) ∧ (∀ i : Fin 3, s.iv[i] = 0) ∧ (∀ i : Fin 4, s.tag[i] = 0) ∧
    (∀ i : Fin 5, s.digest[i] = 0) ∧ statusWord s = 0 ∧ s.busy = false ∧ s.done = false ∧ s.err = false ∧
    s.wbusy = false ∧ s.errCode = 0 ∧ keyctlWord s = 0 ∧ s.keyValid = false ∧ (∀ i : Fin 32, s.kInt[i] = 0) ∧
    (∀ a, readByte s.buf a = 0) ∧ locValue s .id = 0x4F545031 ∧ irq s = false

/-- 70_reset_and_hazards.md R262: whatever the state before, a pending command included, the reset
input leaves the engine in the reset state. The model's own three fields are left out (log 14). -/
def Obligations.ResetInputAbandonsCommand : Prop :=
  ∀ s rest, s.events = .reset :: rest →
    ∃ t, step s = .next t ∧ { t with events := [], response := .none, draws := 0 } = State.reset

/-- The invariant holds after reset. -/
def Obligations.ResetMeetsInvariant : Prop := EngineOk State.reset

/-! Encoding. -/

/-- 30_encoding.md R81, R82 and the table's KEYCTL rows, on words written out from the spec. -/
def Obligations.SpecWordsDecode : Prop :=
  decode .cmd 0x00000001 = .ok .hmacSha1 ∧ decode .cmd 0x00000602 = .ok (.hotp 6) ∧
    decode .cmd 0x00000603 = .ok (.hotpTrunc 6) ∧ decode .cmd 0x00000004 = .ok .b32Enc ∧
    decode .cmd 0x00000005 = .ok .b32Dec ∧ decode .cmd 0x00000006 = .ok .gcmEnc ∧
    decode .cmd 0x00000007 = .ok .gcmDec ∧ decode .keyctl 0x00000001 = .ok .keyLoad ∧
    decode .keyctl 0x00000002 = .ok .keyClear ∧ decode .keyctl 0x00000003 = .ok .keyClear ∧
    decode .cmd 0x00000612 = .error (.error .illegalCmd) ∧ decode .cmd 0x00000802 = .error (.error .badDigits) ∧
    decode .keyctl 0xFFFFFFFC = .error .noAction

/-- 30_encoding.md R86: the legal words are exactly seven, BAD_DIGITS is exactly the two families
with `d != 6`, and every other word gives ILLEGAL_CMD. -/
def Obligations.LegalCommandWordsAreExactlySeven : Prop :=
  ∀ w : Word,
    (∀ i, decodeCmd w = .ok i ↔
      (w, i) ∈ [(0x00000001, Instr.hmacSha1), (0x00000602, .hotp 6), (0x00000603, .hotpTrunc 6), (0x00000004, .b32Enc),
        (0x00000005, .b32Dec), (0x00000006, .gcmEnc), (0x00000007, .gcmDec)]) ∧
    (decodeCmd w = .error .badDigits ↔
      ∃ d : BitVec 4, d ≠ 6 ∧ (w = 2 + (d.setWidth 32 <<< 8) ∨ w = 3 + (d.setWidth 32 <<< 8))) ∧
    ((∀ i, decodeCmd w ≠ .ok i) → decodeCmd w ≠ .error .badDigits → decodeCmd w = .error .illegalCmd)

/-- Decode and encode agree, in both directions and at both ports: an instruction is well-formed
exactly when its word decodes to it; a word that decodes is its instruction's word at `CMD`, and at
`KEYCTL` it has the instruction's action bits (10_state.md R39 ignores the others). -/
def Obligations.EncodeAndDecodeAgree : Prop :=
  (∀ i : Instr, i.wellFormed = true ↔ decode (portOf i) (encode i) = .ok i) ∧
    ∀ (p : Port) (w : Word) (i : Instr), decode p w = .ok i →
      i.wellFormed = true ∧ portOf i = p ∧ (p = .cmd → w = encode i) ∧
        (p = .keyctl → (i = .keyClear ∧ w.getLsbD 1 = true) ∨
          (i = .keyLoad ∧ w.getLsbD 1 = false ∧ w.getLsbD 0 = true))

/-- 60_exceptions.md R212 and R213, in the fields of 30_encoding.md R80, at the engine step. -/
def Obligations.IllegalWordsFailAtTheEngineStep : Prop :=
  ∀ s : State,
    let op := s.cmd.extractLsb' 0 4
    let rsv0 := s.cmd.extractLsb' 4 4
    let digits := s.cmd.extractLsb' 8 4
    let rsv1 := s.cmd.extractLsb' 12 20
    let illegal := rsv0 ≠ 0 ∨ rsv1 ≠ 0 ∨ op = 0 ∨ 8 ≤ op.toNat ∨ (digits ≠ 0 ∧ op ≠ 2 ∧ op ≠ 3)
    let badDigits := rsv0 = 0 ∧ rsv1 = 0 ∧ (op = 2 ∨ op = 3) ∧ digits ≠ 6
    (illegal → engineStep s = .next (failedState s 1)) ∧ (badDigits → engineStep s = .next (failedState s 2)) ∧
      (¬illegal → ¬badDigits → ∃ i, decodeCmd s.cmd = .ok i ∧ engineStep s = exec i s)

/-! The step. -/

/-- A step runs the decoded instruction: the pending command at the engine's turn, and the `KEYCTL`
action at its host write (60_exceptions.md R220, 10_state.md R39). The model's choice, not the spec's: that a
pending command also runs when no event is left (log 1), and where `withFetchWord` places a table word,
a `CMD` word or a `KEYCTL` word (log 7). -/
def Obligations.StepRunsTheDecodedInstruction : Prop :=
  (∀ s i, s.busy = true → s.events = [] → decode .cmd s.cmd = .ok i → step s = exec i s) ∧
    (∀ s i rest, s.busy = true → s.events = .engine :: rest → decode .cmd s.cmd = .ok i →
      step s = exec i { s with events := rest }) ∧
    (∀ s e, s.busy = true → s.events = [] → decode .cmd s.cmd = .error (.error e) →
      step s = .next (failedState s (errBits e))) ∧
    (∀ s e rest, s.busy = true → s.events = .engine :: rest → decode .cmd s.cmd = .error (.error e) →
      step s = .next (failedState { s with events := rest } (errBits e))) ∧
    (∀ s i v rest, NextIsWrite s 0x03C v rest → decode .keyctl v = .ok i →
      step s = exec i { s with events := rest, response := .written }) ∧
    (∀ s i (w : Word), decode .cmd w = .ok i → step (s.withFetchWord 32 w.toNat) = exec i (startCommand s w)) ∧
    (∀ (s : State) i (w : Word) n, (n < 32 ∨ ∀ j, decode .cmd w ≠ .ok j) → decode .keyctl w = .ok i →
      step (s.withFetchWord n w.toNat) = exec i { s with busy := false, response := .written })

/-- 30_encoding.md R90: a `CMD` write starts a command while idle, and while busy it starts none. The
word is not decoded here. That the engine step is the very next one when no event is left is the
model's choice (log 1). -/
def Obligations.CmdWriteStartsACommand : Prop :=
  ∀ s v rest, NextIsWrite s 0x004 v rest →
    (s.busy = false →
      let t := { s with cmd := v, busy := true, done := false, err := false, errCode := 0, events := rest, response := .written }
      step s = .next t ∧ (rest = [] → step t = engineStep t)) ∧
    (s.busy = true → step s = .next { s with wbusy := true, events := rest, response := .written })

/-- 70_reset_and_hazards.md R272, by the model's form of the schedule (log 1): a pending command
completes, or is abandoned by reset, within as many steps as events are left and one more. -/
def Obligations.PendingCommandCompletes : Prop :=
  ∀ s : State, s.busy = true →
    ∃ k, k ≤ s.events.length + 1 ∧ ∃ t, Host.Core.run Sys2Proof.core k s = .next t ∧ t.busy = false

/-- 60_exceptions.md R220 and R243: the engine steps exactly when `BUSY` = 1, and then it completes
whatever the word and the state; an idle engine holds all its state. What a step does when no event is
left is the model's choice: the engine step while busy (log 1), nothing while idle (log 11). -/
def Obligations.EngineStepsExactlyWhenBusy : Prop :=
  ∀ s : State,
    (s.busy = true → (s.events = [] ∨ ∃ rest, s.events = .engine :: rest) →
      ∃ t, step s = .next t ∧ t.events = s.events.tail ∧ t.busy = false ∧ t.done = true ∧ t.cmd = s.cmd ∧
        t.wbusy = s.wbusy ∧ (t.err = false → t.errCode = 0) ∧ (t.err = true → t.resLen = 0)) ∧
    (s.busy = false → s.events = [] → step s = .next s) ∧
    (s.busy = false → ∀ rest, s.events = .engine :: rest → step s = .next { s with events := rest })

/-- The machine's invariant is kept by every step (`EngineOk`, Sys2Proof/Safety.lean). -/
def Obligations.StepKeepsInvariant : Prop := ∀ s t, EngineOk s → step s = .next t → EngineOk t

/-! The host bus. -/

/-- 10_state.md R47: a busy-blocked write is ignored and sets WBUSY, so no input of the running command
changes before its engine step. -/
def Obligations.BusyBlockProtectsTheInputs : Prop :=
  (∀ s o v rest, s.busy = true → BusyBlockedOffset o → NextIsWrite s o v rest →
    step s = .next { s with wbusy := true, events := rest, response := .written }) ∧
  ∀ s t, s.busy = true → step s = .next t → t.busy = true →
    t.cmd = s.cmd ∧ t.srcAddr = s.srcAddr ∧ t.srcLen = s.srcLen ∧ t.keyAddr = s.keyAddr ∧ t.keyLen = s.keyLen ∧
      t.dstAddr = s.dstAddr ∧ t.cntLo = s.cntLo ∧ t.cntHi = s.cntHi ∧ t.aesKey = s.aesKey ∧ t.iv = s.iv ∧
      t.tag = s.tag ∧ t.kInt = s.kInt ∧ t.keyValid = s.keyValid ∧ t.buf = s.buf

/-- 10_state.md R48: while busy a result location reads as a draw, fresh each time, and every other
location reads its defined value. The draw is a free value: nothing is said of it. -/
def Obligations.BusyReadsOfResultsAreDraws : Prop :=
  ∀ s o rest, s.busy = true → NextIsRead s o rest →
    (ResultOffset o → step s =
      .next { s with events := rest, response := .data (Config.draw s.draws), draws := s.draws + 1 }) ∧
    (WordOffset o → ¬ResultOffset o →
      step s = .next { s with events := rest, response := .data (locValue s (locate o)) }) ∧
    (o = 0x008 → StatusOk s →
      step s = .next { s with events := rest, response := .data (if s.wbusy then 0x00000009 else 0x00000001) })

/-- 20_memory.md R69: a host read has no side effect, and outside the busy-interval exception it is
idempotent: after it the same read returns the same value, also with any other reads in between, which
can change the answer and the count of draws alone. -/
def Obligations.ReadsHaveNoSideEffect : Prop :=
  ∀ s o rest, WordOffset o → NextIsRead s o rest →
    (∃ v n, step s = .next { s with events := rest, response := .data v, draws := n }) ∧
    (¬(s.busy = true ∧ ResultOffset o) → ∃ v, step s = .next { s with events := rest, response := .data v } ∧
      ReadsAs { s with response := .data v } o v ∧ ∀ r n, ReadsAs { s with response := r, draws := n } o v)

/-- The register map of 10_state.md section 2: what each offset reads as while idle. -/
def Obligations.RegisterMapReads : Prop :=
  ∀ s : State, s.busy = false →
    ReadsAs s 0x000 0x4F545031 ∧ ReadsAs s 0x004 s.cmd ∧ ReadsAs s 0x008 (statusWord s) ∧
      ReadsAs s 0x00C (if s.doneIe then 1 else 0) ∧ ReadsAs s 0x010 s.srcAddr ∧ ReadsAs s 0x014 s.srcLen ∧
      ReadsAs s 0x018 s.keyAddr ∧ ReadsAs s 0x01C s.keyLen ∧ ReadsAs s 0x020 s.dstAddr ∧ ReadsAs s 0x024 s.resLen ∧
      ReadsAs s 0x028 s.cntLo ∧ ReadsAs s 0x02C s.cntHi ∧ ReadsAs s 0x030 s.hotpCode ∧ ReadsAs s 0x034 s.hotpOff ∧
      ReadsAs s 0x038 s.hotpBin ∧ ReadsAs s 0x03C (if s.keyValid then 1 else 0) ∧
      (∀ i : Fin 8, ReadsAs s (0x040 + 4 * i) 0) ∧ (∀ i : Fin 3, ReadsAs s (0x060 + 4 * i) s.iv[i]) ∧
      (∀ i : Fin 4, ReadsAs s (0x070 + 4 * i) s.tag[i]) ∧ (∀ i : Fin 5, ReadsAs s (0x080 + 4 * i) s.digest[i]) ∧
      (∀ o, ReservedOffset o → ReadsAs s o 0)

/-- 10_state.md R31, R32, R33, R35, R42 and R43 on host writes: while idle all 32 bits are stored, in
that register alone. -/
def Obligations.OperandRegistersStore : Prop :=
  ∀ (s : State) (v : Word), s.busy = false →
    WriteLeaves s 0x010 v { s with srcAddr := v } ∧ WriteLeaves s 0x014 v { s with srcLen := v } ∧
      WriteLeaves s 0x018 v { s with keyAddr := v } ∧ WriteLeaves s 0x01C v { s with keyLen := v } ∧
      WriteLeaves s 0x020 v { s with dstAddr := v } ∧ WriteLeaves s 0x028 v { s with cntLo := v } ∧
      WriteLeaves s 0x02C v { s with cntHi := v } ∧
      (∀ i : Fin 3, WriteLeaves s (0x060 + 4 * i) v { s with iv := s.iv.set i v i.isLt }) ∧
      (∀ i : Fin 4, WriteLeaves s (0x070 + 4 * i) v { s with tag := s.tag.set i v i.isLt })

/-- 10_state.md R40: the staging registers store while idle, never change the key in use, read 0 at all
times, are busy-blocked, and key byte `4i + b` is bits `[8b+7 : 8b]` of `AESKEYi`. -/
def Obligations.AesKeyRegistersAreWriteOnlyStaging : Prop :=
  (∀ (s : State) (v : Word) (i : Fin 8),
    ReadsAs s (0x040 + 4 * i) 0 ∧
    (s.busy = false → WriteLeaves s (0x040 + 4 * i) v { s with aesKey := s.aesKey.set i v i.isLt }) ∧
    (s.busy = true → WriteLeaves s (0x040 + 4 * i) v { s with wbusy := true })) ∧
  (∀ (p : Vector Word 8) (i : Fin 8) (b : Fin 4), (regBytes p)[4 * i.val + b.val]? = some (p[i].extractLsb' (8 * b) 8)) ∧
  State.reset.aesKey = Vector.replicate 8 0

/-- 10_state.md R29 with R26 and R28: a `STATUS` write is accepted busy or not and can only clear DONE
and WBUSY; the read value. -/
def Obligations.StatusWriteClearsDoneAndWbusyOnly : Prop :=
  ∀ (s : State) (v : Word),
    WriteLeaves s 0x008 v
      { s with done := if v.getLsbD 1 then false else s.done, wbusy := if v.getLsbD 3 then false else s.wbusy } ∧
    ReadsAs s 0x008 (statusWord s) ∧
    (statusWord s).toNat = s.busy.toNat + 2 * s.done.toNat + 4 * s.err.toNat + 8 * s.wbusy.toNat +
      256 * s.errCode.toNat

/-- 10_state.md R45: writes to read-only and reserved offsets are ignored, busy or not, without WBUSY,
and a reserved offset reads 0. -/
def Obligations.ReadOnlyAndReservedWritesAreIgnored : Prop :=
  ∀ (s : State) (o : Nat) (v : Word),
    (ReadOnlyOffset o ∨ ReservedOffset o → WriteLeaves s o v s) ∧ (ReservedOffset o → ReadsAs s o 0)

/-- 20_memory.md R61: the buffer window and the register groups are little-endian. -/
def Obligations.BufferWindowIsLittleEndian : Prop :=
  (∀ s j v rest, Memory.wf s.buf → s.busy = false → j < 1024 → NextIsWrite s (0x1000 + 4 * j) v rest →
    ∃ t, step s = .next t ∧ t = { s with buf := t.buf, events := rest, response := .written } ∧
      (∀ b : Fin 4, readByte t.buf (4 * j + b) = v.extractLsb' (8 * b) 8) ∧
      ∀ a, (a < 4 * j ∨ 4 * j + 4 ≤ a) → readByte t.buf a = readByte s.buf a) ∧
  (∀ s j, s.busy = false → j < 1024 → ∃ v : Word, ReadsAs s (0x1000 + 4 * j) v ∧
    ∀ b : Fin 4, v.extractLsb' (8 * b) 8 = readByte s.buf (4 * j + b)) ∧
  (∀ (n : Nat) (p : Vector Word n) (i : Fin n) (b : Fin 4),
    (regBytes p)[4 * i.val + b.val]? = some (p[i].extractLsb' (8 * b) 8)) ∧
  (∀ (n : Nat) (d : List Byte), d.length = 4 * n → regBytes (setRegBytes n d) = d)

/-- 60_exceptions.md R223 and 20_memory.md R64 and R71, with the model's choices of logs 3 and 4: a bad
access in the window is a fault of the host agent that names it, after a pending command has
completed; an access outside the window changes nothing in the engine. -/
def Obligations.BadAccessesAreHostFaults : Prop :=
  ∀ s a rest, s.events = .access a :: rest →
    (accessOffset a < 0x2000 → (accessWidth a ≠ 32 ∨ accessOffset a % 4 ≠ 0) →
      (s.busy = false → step s = .fault (.busError a)) ∧ (s.busy = true → step s = engineStep s)) ∧
    (0x2000 ≤ accessOffset a → step s = .next { s with events := rest, response := .undecoded })

/-! STATUS and the interrupt. -/

/-- 10_state.md R25 and R26: what changes BUSY and DONE, over all steps. A completion is the engine's
step. -/
def Obligations.BusyAndDoneChangeOnlyAsStated : Prop :=
  ∀ s t, step s = .next t →
    (s.busy = false → t.busy = true → ∃ v rest, NextIsWrite s 0x004 v rest ∧ t.cmd = v ∧ t.done = false) ∧
    (s.busy = true → t.busy = false →
      (t.done = true ∧ ∃ u, turn s = .engineStep u) ∨ ∃ rest, s.events = .reset :: rest) ∧
    (s.done = false → t.done = true → s.busy = true ∧ t.busy = false ∧ ∃ u, turn s = .engineStep u) ∧
    (s.done = true → t.done = false →
      (∃ v rest, NextIsWrite s 0x008 v rest ∧ v.getLsbD 1 = true) ∨
      (s.busy = false ∧ ∃ v rest, NextIsWrite s 0x004 v rest) ∨ ∃ rest, s.events = .reset :: rest)

/-- 10_state.md R27 and R28: ERR and ERRCODE hold until the next accepted `CMD` write, completion or
reset; WBUSY is set only by an ignored busy write, and cleared only by its W1C write or reset. A
completion is the engine's step. -/
def Obligations.ErrAndWbusyChangeOnlyAsStated : Prop :=
  ∀ s t, step s = .next t →
    (t.err ≠ s.err ∨ t.errCode ≠ s.errCode →
      (s.busy = false ∧ (∃ v rest, NextIsWrite s 0x004 v rest) ∧ t.err = false ∧ t.errCode = 0) ∨
      (s.busy = true ∧ t.busy = false ∧ ∃ u, turn s = .engineStep u) ∨ ∃ rest, s.events = .reset :: rest) ∧
    (s.wbusy = false → t.wbusy = true → s.busy = true ∧ ∃ o v rest, NextIsWrite s o v rest ∧ BusyBlockedOffset o) ∧
    (s.wbusy = true → t.wbusy = false →
      (∃ v rest, NextIsWrite s 0x008 v rest ∧ v.getLsbD 3 = true) ∨ ∃ rest, s.events = .reset :: rest)

/-- 10_state.md R30 and 60_exceptions.md R224: `INT_EN` is one bit, accepted busy or not; the level of
`IRQ`, and its assertion by every completion while `DONE_IE` is 1. -/
def Obligations.InterruptEnableAndLevel : Prop :=
  (∀ (s : State) (v : Word), WriteLeaves s 0x00C v { s with doneIe := v.getLsbD 0 } ∧
    ReadsAs s 0x00C (if s.doneIe then 1 else 0)) ∧ State.reset.doneIe = false ∧
    (∀ s : State, irq s = (s.done && s.doneIe)) ∧ ∀ s t, engineStep s = .next t → irq t = s.doneIe

/-- 60_exceptions.md R225: exactly four things deassert `IRQ`, and a completion never does. -/
def Obligations.IrqIsDeassertedOnlyAsListed : Prop :=
  (∀ s t, step s = .next t → irq s = true → irq t = false →
    (∃ v rest, NextIsWrite s 0x008 v rest ∧ v.getLsbD 1 = true) ∨
    (s.busy = false ∧ ∃ v rest, NextIsWrite s 0x004 v rest) ∨
    (∃ v rest, NextIsWrite s 0x00C v rest ∧ v.getLsbD 0 = false) ∨ ∃ rest, s.events = .reset :: rest) ∧
  (∀ s v rest, NextIsWrite s 0x008 v rest → v.getLsbD 1 = true → ∃ t, step s = .next t ∧ irq t = false) ∧
  (∀ s v rest, s.busy = false → NextIsWrite s 0x004 v rest → ∃ t, step s = .next t ∧ irq t = false) ∧
  (∀ s v rest, NextIsWrite s 0x00C v rest → v.getLsbD 0 = false → ∃ t, step s = .next t ∧ irq t = false) ∧
  (∀ s rest, s.events = .reset :: rest → ∃ t, step s = .next t ∧ irq t = false) ∧
  ∀ s t, engineStep s = .next t → t.done = true

/-! The key. -/

/-- 43_aes_gcm.md R188: a write of `KEYCTL` with bit 0 = 1 and bit 1 = 0 while not busy is KEY_LOAD, its
result and its frame, and the write itself does it. -/
def Obligations.KeyLoadCopiesTheStagedKey : Prop :=
  ∀ s : State, s.busy = false →
    ∃ t, exec .keyLoad s = .next t ∧ kIntBytes t = regBytes s.aesKey ∧ t = { s with kInt := t.kInt, keyValid := true } ∧
      ∀ v : Word, v.getLsbD 1 = false → v.getLsbD 0 = true → decode .keyctl v = .ok .keyLoad ∧ WriteLeaves s 0x03C v t

/-- 43_aes_gcm.md R189: a write of `KEYCTL` with bit 1 = 1 while not busy is KEY_CLEAR, its result and its
frame; the GCM commands then fail with NO_KEY, and only a KEY_LOAD write ends that. -/
def Obligations.KeyClearZeroesAllKeyMaterial : Prop :=
  (∀ s : State, s.busy = false →
    ∃ t, exec .keyClear s = .next t ∧ kIntBytes t = List.replicate 32 0 ∧ regBytes t.aesKey = List.replicate 32 0 ∧
      t = { s with kInt := t.kInt, aesKey := t.aesKey, keyValid := false } ∧
      ∀ v : Word, v.getLsbD 1 = true → decode .keyctl v = .ok .keyClear ∧ WriteLeaves s 0x03C v t) ∧
  (∀ s : State, s.keyValid = false → FailsWith .gcmEnc s 3 ∧ FailsWith .gcmDec s 3) ∧
  ∀ s t : State, step s = .next t → s.keyValid = false → t.keyValid = true →
    ∃ v rest, NextIsWrite s 0x03C v rest ∧ v.getLsbD 1 = false ∧ v.getLsbD 0 = true

/-- 10_state.md R39: what a write of `v` to `KEYCTL` does, bits [31:2] ignored, and what it reads as. -/
def Obligations.KeyctlWriteActsOnTwoBits : Prop :=
  State.reset.keyValid = false ∧ ∀ (s : State) (v : Word),
    (s.busy = false → v.getLsbD 1 = true → ∀ u, exec .keyClear s = .next u → WriteLeaves s 0x03C v u) ∧
    (s.busy = false → v.getLsbD 1 = false → v.getLsbD 0 = true →
      ∀ u, exec .keyLoad s = .next u → WriteLeaves s 0x03C v u) ∧
    (s.busy = false → v.getLsbD 1 = false → v.getLsbD 0 = false → WriteLeaves s 0x03C v s) ∧
    (s.busy = true → WriteLeaves s 0x03C v { s with wbusy := true }) ∧
    ReadsAs s 0x03C (if s.keyValid then 1 else 0)

/-- 10_state.md R41: KEY_LOAD and KEY_CLEAR write both items, reset clears both, and nothing else
writes either, over all steps. -/
def Obligations.OnlyKeyActionsAndResetChangeTheKey : Prop :=
  ∀ s t, step s = .next t →
    (t.kInt = s.kInt ∧ t.keyValid = s.keyValid) ∨
    (s.busy = false ∧ (∃ v rest, NextIsWrite s 0x03C v rest ∧ v.getLsbD 1 = false ∧ v.getLsbD 0 = true) ∧
      kIntBytes t = regBytes s.aesKey ∧ t.keyValid = true) ∨
    (s.busy = false ∧ (∃ v rest, NextIsWrite s 0x03C v rest ∧ v.getLsbD 1 = true) ∧
      kIntBytes t = List.replicate 32 0 ∧ t.keyValid = false) ∨
    ((∃ rest, s.events = .reset :: rest) ∧ kIntBytes t = List.replicate 32 0 ∧ t.keyValid = false)

/-- 60_exceptions.md R229 and 10_state.md R40: no step but the engine step of a GCM command lets the
key bear on anything but the key itself. So no host read returns any of it. -/
def Obligations.AesKeyCannotBeReadBack : Prop :=
  ∀ s t, SameButKey s t → (∀ u, turn s = .engineStep u → s.cmd ≠ 6 ∧ s.cmd ≠ 7) →
    (∀ s', step s = .next s' → ∃ t', step t = .next t' ∧ SameButKey s' t') ∧
    ∀ r, step s = .fault r → step t = .fault r

/-! The commands: each one's word, its result and frame with the conditions it completes under, and its
errors. -/

/-- 41_hmac_sha1.md R128. -/
def Obligations.HmacSha1WritesTheDigest : Prop :=
  OneWord 0x1 .hmacSha1 ∧ ∀ s : State,
    (Memory.wf s.buf → SrcOk s → KeyRegionOk s → DstOk s 20 →
      ∃ t, exec .hmacSha1 s = .next t ∧ Completes s t (hmacSha1 (hmacKey s) (src s)) ∧ t.resLen = 20 ∧
        regBytes t.digest = hmacSha1 (hmacKey s) (src s) ∧ OnlyResults s t ∧ t.tag = s.tag ∧ SameHotp s t) ∧
    (¬(SrcOk s ∧ KeyRegionOk s ∧ DstOk s 20) → FailsWith .hmacSha1 s 6)

/-- 42_hotp.md R155. -/
def Obligations.HotpWritesTheCode : Prop :=
  OneDigitsWord 0x2 (.hotp 6) ∧ ∀ s : State,
    (Memory.wf s.buf → s.keyLen ≠ 0 → KeyRegionOk s → DstOk s 6 →
      let d := hmacSha1 (hmacKey s) (beBytes 8 (s.cntHi.toNat * 2 ^ 32 + s.cntLo.toNat))
      ∃ t, exec (.hotp 6) s = .next t ∧ Completes s t (digits6 (hotpCodeOf d)) ∧ t.resLen = 6 ∧ HotpOf t d ∧
        regBytes t.digest = d ∧ OnlyResults s t ∧ t.tag = s.tag) ∧
    (s.keyLen = 0 → FailsWith (.hotp 6) s 5) ∧
    (s.keyLen ≠ 0 → ¬(KeyRegionOk s ∧ DstOk s 6) → FailsWith (.hotp 6) s 6)

/-- 42_hotp.md R156. -/
def Obligations.HotpTruncWritesTheCode : Prop :=
  OneDigitsWord 0x3 (.hotpTrunc 6) ∧ ∀ s : State,
    (Memory.wf s.buf → s.srcLen = 20 → SrcOk s → DstOk s 6 →
      ∃ t, exec (.hotpTrunc 6) s = .next t ∧ Completes s t (digits6 (hotpCodeOf (src s))) ∧ t.resLen = 6 ∧
        HotpOf t (src s) ∧ OnlyResults s t ∧ t.tag = s.tag ∧ t.digest = s.digest) ∧
    (s.srcLen ≠ 20 → FailsWith (.hotpTrunc 6) s 4) ∧
    (s.srcLen = 20 → ¬(SrcOk s ∧ DstOk s 6) → FailsWith (.hotpTrunc 6) s 6)

/-- 40_base32.md R107. -/
def Obligations.Base32EncodeWritesTheText : Prop :=
  OneWord 0x4 .b32Enc ∧ ∀ s : State,
    (Memory.wf s.buf → SrcOk s → DstOk s ((8 * s.srcLen.toNat + 4) / 5) →
      ∃ t, exec .b32Enc s = .next t ∧ Completes s t (b32Encode (src s)) ∧
        t.resLen.toNat = (8 * s.srcLen.toNat + 4) / 5 ∧ OnlyResults s t ∧ t.tag = s.tag ∧ t.digest = s.digest ∧
        SameHotp s t) ∧
    (¬(SrcOk s ∧ DstOk s ((8 * s.srcLen.toNat + 4) / 5)) → FailsWith .b32Enc s 6)

/-- 40_base32.md R108. -/
def Obligations.Base32DecodeWritesTheBytes : Prop :=
  OneWord 0x5 .b32Dec ∧ ∀ s : State,
    (Memory.wf s.buf → SrcOk s → DstOk s (b32Decode (src s)).length →
      ∃ t, exec .b32Dec s = .next t ∧ Completes s t (b32Decode (src s)) ∧ OnlyResults s t ∧ t.tag = s.tag ∧
        t.digest = s.digest ∧ SameHotp s t ∧ (s.srcLen ≠ 0 → t.resLen.toNat < s.srcLen.toNat)) ∧
    (¬(SrcOk s ∧ DstOk s (b32Decode (src s)).length) → FailsWith .b32Dec s 6)

/-- 43_aes_gcm.md R186. -/
def Obligations.GcmEncryptWritesCiphertextAndTag : Prop :=
  OneWord 0x6 .gcmEnc ∧ ∀ s : State,
    (Memory.wf s.buf → s.keyValid = true → SrcOk s → DstOk s s.srcLen.toNat →
      let r := gcmAE (kIntBytes s) (regBytes s.iv) (src s)
      ∃ t, exec .gcmEnc s = .next t ∧ Completes s t r.1 ∧ t.resLen = s.srcLen ∧ regBytes t.tag = r.2 ∧
        OnlyResults s t ∧ t.digest = s.digest ∧ SameHotp s t) ∧
    (s.keyValid = false → FailsWith .gcmEnc s 3) ∧
    (s.keyValid = true → ¬(SrcOk s ∧ DstOk s s.srcLen.toNat) → FailsWith .gcmEnc s 6)

/-- 43_aes_gcm.md R187: with the tag of the ciphertext in `TAG0..3` the plaintext is written,
and the tag registers are not; with any other tag it fails with AUTH_FAIL and nothing is written. -/
def Obligations.GcmDecryptChecksTheTagFirst : Prop :=
  OneWord 0x7 .gcmDec ∧ ∀ s : State,
    (Memory.wf s.buf → s.keyValid = true → SrcOk s → DstOk s s.srcLen.toNat →
      regBytes s.tag = gcmTag (kIntBytes s) (regBytes s.iv) (src s) →
      ∃ t, exec .gcmDec s = .next t ∧
        Completes s t (gctr (kIntBytes s) (inc32 (regBytes s.iv ++ [0x00, 0x00, 0x00, 0x01])) (src s)) ∧
        t.resLen = s.srcLen ∧ OnlyResults s t ∧ t.tag = s.tag ∧ t.digest = s.digest ∧ SameHotp s t) ∧
    (s.keyValid = false → FailsWith .gcmDec s 3) ∧
    (s.keyValid = true → ¬(SrcOk s ∧ DstOk s s.srcLen.toNat) → FailsWith .gcmDec s 6) ∧
    (s.keyValid = true → SrcOk s → DstOk s s.srcLen.toNat →
      regBytes s.tag ≠ gcmTag (kIntBytes s) (regBytes s.iv) (src s) → FailsWith .gcmDec s 7)

/-- 60_exceptions.md R219 with R214 to R218: when several errors apply, the first in this order is the
one reported. What `exec` does with a `HOTP` or `HOTP_TRUNC` term whose `DIGITS` is not 6 is the model's
choice (log 8): the decoder gives no such term, so no run reaches it. -/
def Obligations.ErrorsAreReportedInPriorityOrder : Prop :=
  ∀ s : State,
    (∀ e, decodeCmd s.cmd = .error e → engineStep s = .next (failedState s (errBits e))) ∧
    (∀ i, decodeCmd s.cmd = .ok i → engineStep s = exec i s) ∧
    (∀ d, d ≠ 6 → FailsWith (.hotp d) s 2 ∧ FailsWith (.hotpTrunc d) s 2) ∧
    (s.keyValid = false → FailsWith .gcmEnc s 3 ∧ FailsWith .gcmDec s 3) ∧
    (s.srcLen ≠ 20 → FailsWith (.hotpTrunc 6) s 4) ∧
    (s.keyLen = 0 → FailsWith (.hotp 6) s 5) ∧
    (¬(SrcOk s ∧ KeyRegionOk s ∧ DstOk s 20) → FailsWith .hmacSha1 s 6) ∧
    (s.keyLen ≠ 0 → ¬(KeyRegionOk s ∧ DstOk s 6) → FailsWith (.hotp 6) s 6) ∧
    (s.srcLen = 20 → ¬(SrcOk s ∧ DstOk s 6) → FailsWith (.hotpTrunc 6) s 6) ∧
    (¬(SrcOk s ∧ DstOk s ((8 * s.srcLen.toNat + 4) / 5)) → FailsWith .b32Enc s 6) ∧
    (¬(SrcOk s ∧ DstOk s (b32Decode (src s)).length) → FailsWith .b32Dec s 6) ∧
    (s.keyValid = true → ¬(SrcOk s ∧ DstOk s s.srcLen.toNat) → FailsWith .gcmEnc s 6 ∧ FailsWith .gcmDec s 6) ∧
    (s.keyValid = true → SrcOk s → DstOk s s.srcLen.toNat →
      gcmAD (kIntBytes s) (regBytes s.iv) (src s) (regBytes s.tag) = none → FailsWith .gcmDec s 7)

/-- 60_exceptions.md R222: a failed command's only writes, over all words and states. -/
def Obligations.FailedCommandWritesNothing : Prop :=
  ∀ s t, engineStep s = .next t → t.err = true →
    t = failedState s t.errCode ∧ 1 ≤ t.errCode.toNat ∧ t.errCode.toNat ≤ 7

/-- 60_exceptions.md R221: a successful command's writes are exactly those of its family: the bytes
from `DST_ADDR` for `RES_LEN`, the result registers of 30_encoding.md R85, and `STATUS`. -/
def Obligations.SuccessfulCommandWritesOnlyItsResults : Prop :=
  ∀ i s t, Memory.wf s.buf → portOf i = .cmd → exec i s = .next t → t.err = false →
    OnlyResults s t ∧ t.done = true ∧ t.busy = false ∧ t.errCode = 0 ∧ t.wbusy = s.wbusy ∧
      (∀ a, (a < s.dstAddr.toNat ∨ s.dstAddr.toNat + t.resLen.toNat ≤ a) → readByte t.buf a = readByte s.buf a) ∧
      (i ≠ .gcmEnc → t.tag = s.tag) ∧ (i ≠ .hmacSha1 → i ≠ .hotp 6 → t.digest = s.digest) ∧
      (i ≠ .hotp 6 → i ≠ .hotpTrunc 6 → SameHotp s t)

/-! Base32. -/

/-- 40_base32.md R100: the alphabet and its two directions. -/
def Obligations.Base32AlphabetIsABijection : Prop :=
  (List.range 32).map b32Sym = [0x41, 0x42, 0x43, 0x44, 0x45, 0x46, 0x47, 0x48, 0x49, 0x4A, 0x4B, 0x4C, 0x4D, 0x4E, 0x4F,
    0x50, 0x51, 0x52, 0x53, 0x54, 0x55, 0x56, 0x57, 0x58, 0x59, 0x5A, 0x32, 0x33, 0x34, 0x35, 0x36, 0x37] ∧
  ∀ (c : Byte) (j : Nat), b32SymVal c = some j ↔ j < 32 ∧ c = b32Sym j

/-- 40_base32.md R101: symbol `j` is the value of the bits `S'[5j .. 5j+5)`, where `S'` is the source's
bits, most significant first, filled with zeros; there are `ceil(8n/5)` symbols and no `=`. -/
def Obligations.Base32EncodeTakesFiveBitsASymbol : Prop :=
  ∀ b : List Byte,
    (b32Encode b).length = (8 * b.length + 4) / 5 ∧ (0x3D : Byte) ∉ b32Encode b ∧
    ∀ j, j < (8 * b.length + 4) / 5 →
      ∃ v, (b32Encode b)[j]? = some (b32Sym v) ∧ v < 32 ∧
        ∀ k, k < 5 → v.testBit (4 - k) = (((b[(5 * j + k) / 8]?).getD 0).getLsbD (7 - (5 * j + k) % 8))

/-- 40_base32.md R106, second form: with the valid symbols' values as a string of `5v` bits, byte `k` of
the output is the value of bits `8k` to `8k+7`, and there are `floor(5v/8)` bytes. -/
def Obligations.Base32DecodeTakesEightBitsAByte : Prop :=
  ∀ t : List Byte,
    let vals := (t.map asciiUpper).filterMap b32SymVal
    (b32Decode t).length = 5 * vals.length / 8 ∧
    ∀ k, k < 5 * vals.length / 8 → ∀ i, i < 8 →
      ((b32Decode t)[k]?.getD 0).getLsbD (7 - i) = (vals[(8 * k + i) / 5]?.getD 0).testBit (4 - (8 * k + i) % 5)

/-- 40_base32.md R105 with R103 and R104: only the valid symbols count, letters of either case alike,
so an `=` is skipped wherever it stands. -/
def Obligations.Base32DecodeSkipsEverythingElse : Prop :=
  ∀ t : List Byte,
    b32Decode t = b32DecodeLoop (t.map asciiUpper) 0 0 ∧
    b32Decode t = b32Decode ((t.map asciiUpper).filter fun c => (b32SymVal c).isSome)

/-- Encoding then decoding gives the bytes back, for every byte string, the empty one included
(40_base32.md section 5). -/
def Obligations.Base32RoundTrip : Prop := ∀ b : List Byte, b32Decode (b32Encode b) = b

/-! SHA-1, HMAC and HOTP. -/

/-- 41_hmac_sha1.md R120. -/
def Obligations.Sha1PaddingFillsWholeBlocks : Prop :=
  ∀ m : List Byte, ∃ z N, N ≥ 1 ∧ sha1Pad m = m ++ [0x80] ++ List.replicate z 0 ++ beBytes 8 (8 * m.length) ∧
    (sha1Pad m).length = 64 * N ∧ (m.length + 1 + z) % 64 = 56 ∧ ∀ y, (m.length + 1 + y) % 64 = 56 → z ≤ y

/-- 41_hmac_sha1.md R122. -/
def Obligations.Sha1ScheduleFollowsItsRecurrence : Prop :=
  ∀ block : List Byte, block.length = 64 →
    (sha1Schedule block).length = 80 ∧
    (∀ t, t < 16 → (sha1Schedule block)[t]? = some (BitVec.ofNat 32 (beVal ((block.drop (4 * t)).take 4)))) ∧
    ∀ t, 16 ≤ t → t < 80 →
      (sha1Schedule block)[t]? = some (rotl32 ((sha1Schedule block).getD (t - 3) 0 ^^^ (sha1Schedule block).getD (t - 8) 0 ^^^
        (sha1Schedule block).getD (t - 14) 0 ^^^ (sha1Schedule block).getD (t - 16) 0) 1)

/-- 41_hmac_sha1.md R126 and R127: the key block `K0`, the key filled with zeros to 64 bytes or, where it
is longer, its 20-byte hash so filled; and the nested hash of it and the message. With it the
consequences: a longer key stands for its hash, and a shorter one for itself with zeros behind it. -/
def Obligations.HmacKeysAreHashedOrFilledToABlock : Prop :=
  ∀ k m : List Byte,
    let k0 := if k.length ≤ 64 then k ++ List.replicate (64 - k.length) 0 else sha1 k ++ List.replicate 44 0
    k0.length = 64 ∧ hmacSha1 k m = sha1 (k0.map (· ^^^ 0x5C) ++ sha1 (k0.map (· ^^^ 0x36) ++ m)) ∧
    (sha1 k).length = 20 ∧ (hmacSha1 k m).length = 20 ∧ (64 < k.length → hmacSha1 k m = hmacSha1 (sha1 k) m) ∧
    (∀ z, k.length + z ≤ 64 → hmacSha1 (k ++ List.replicate z 0) m = hmacSha1 k m)

/-- 42_hotp.md R151, R152, R153 in plain arithmetic: `OFF` is `D[19]` mod 16, `BIN` the big-endian value
of the four bytes from `OFF` on mod 2^31, `CODE` that mod 10^6. With them R157: the truncation reads
inside the digest whatever its contents, `D[19]` counts only by its low nibble, and the three values are
bounded. -/
def Obligations.TruncationStaysInBounds : Prop :=
  ∀ d : List Byte, d.length = 20 →
    let off := hotpOffset d
    off = (d.getD 19 0).toNat % 16 ∧
      (hotpBinary d).toNat = (2 ^ 24 * (d.getD off 0).toNat + 2 ^ 16 * (d.getD (off + 1) 0).toNat +
        2 ^ 8 * (d.getD (off + 2) 0).toNat + (d.getD (off + 3) 0).toNat) % 2 ^ 31 ∧
      hotpCodeOf d = (hotpBinary d).toNat % 10 ^ 6 ∧
    off < 16 ∧ off + 3 ≤ 18 ∧ (hotpBinary d).toNat < 2 ^ 31 ∧ hotpCodeOf d < 10 ^ 6 ∧
    ∀ x : Byte, x &&& 0x0F = d.getD 19 0 &&& 0x0F →
      hotpOffset (d.take 19 ++ [x]) = off ∧ hotpBinary (d.take 19 ++ [x]) = hotpBinary d ∧
        hotpCodeOf (d.take 19 ++ [x]) = hotpCodeOf d

/-- 42_hotp.md R154: six bytes, each an ASCII digit, most significant first, and together the code. -/
def Obligations.CodeIsRenderedInSixDigits : Prop :=
  ∀ v, v < 1000000 →
    (∀ i, i < 6 → ((digits6 v)[i]?.getD 0).toNat = 0x30 + v / 10 ^ (5 - i) % 10) ∧ (digits6 v).length = 6 ∧
    (∀ c ∈ digits6 v, 0x30 ≤ c.toNat ∧ c.toNat ≤ 0x39) ∧
    (digits6 v).foldl (fun n c => 10 * n + (c.toNat - 0x30)) 0 = v

/-! AES and GCM. -/

/-- 43_aes_gcm.md R171: each entry is the inverse in GF(2^8), 0 for 0, then the affine transform with
constant 0x63: bit `i` is the sum of bits `i`, `i+4` .. `i+7` mod 8. -/
def Obligations.SboxIsInverseThenAffine : Prop :=
  ∀ x : Byte, ∃ y : Byte, ((x = 0 ∧ y = 0) ∨ gf8Mul x y = 1) ∧
    sbox x = y ^^^ y.rotateLeft 1 ^^^ y.rotateLeft 2 ^^^ y.rotateLeft 3 ^^^ y.rotateLeft 4 ^^^ 0x63

/-- 43_aes_gcm.md R173. -/
def Obligations.KeyExpansionFollowsItsRecurrence : Prop :=
  ∀ k : List Byte, k.length = 32 →
    let w := keyExpansion k
    w.length = 60 ∧ (∀ i, i < 8 → w[i]? = some ((k.drop (4 * i)).take 4)) ∧
    (∀ i, 8 ≤ i → i < 60 →
      w[i]? = some (xorBytes (w.getD (i - 8) [])
        (if i % 8 = 0 then
          xorBytes (((w.getD (i - 1) []).rotateLeft 1).map sbox)
            [[0x01, 0x02, 0x04, 0x08, 0x10, 0x20, 0x40].getD (i / 8 - 1) 0, 0, 0, 0]
        else if i % 8 = 4 then (w.getD (i - 1) []).map sbox
        else w.getD (i - 1) []))) ∧
    ∀ r, r < 15 → roundKey w r =
      w.getD (4 * r) [] ++ w.getD (4 * r + 1) [] ++ w.getD (4 * r + 2) [] ++ w.getD (4 * r + 3) []

/-- 43_aes_gcm.md R175 and R176, on the state array with `s[r][c]` at `r + 4c` (R170). -/
def Obligations.RoundStepsMoveAndMixAsStated : Prop :=
  ∀ s : List Byte, s.length = 16 → ∀ r c, r < 4 → c < 4 →
    (shiftRows s)[r + 4 * c]? = some (s.getD (r + 4 * ((c + r) % 4)) 0) ∧
    (mixColumns s)[r + 4 * c]? = some (gf8Mul 2 (s.getD (r + 4 * c) 0) ^^^ gf8Mul 3 (s.getD ((r + 1) % 4 + 4 * c) 0) ^^^
      s.getD ((r + 2) % 4 + 4 * c) 0 ^^^ s.getD ((r + 3) % 4 + 4 * c) 0)

/-- 43_aes_gcm.md R179: the block 80 00 .. 00 is the multiplicative identity, on both sides. -/
def Obligations.GfMulHasItsIdentity : Prop :=
  ∀ x : BitVec 128, gfMul x (blockVal ([0x80] ++ List.replicate 15 0)) = x ∧
    gfMul (blockVal ([0x80] ++ List.replicate 15 0)) x = x

/-- 43_aes_gcm.md R180: GHASH of nothing is zero, and each block multiplies the running value with that
block added to it. -/
def Obligations.GhashFoldsBlockByBlock : Prop :=
  ∀ (h : BitVec 128) (x b : List Byte), ghash h [] = List.replicate 16 0 ∧
    (x.length % 16 = 0 → b.length = 16 →
      ghash h (x ++ b) = beBytes 16 (gfMul (blockVal (ghash h x) ^^^ blockVal b) h).toNat)

/-- 43_aes_gcm.md R181 and R182: inc32 leaves the high 96 bits and counts the low 32 modulo 2^32; byte
`i` of GCTR's output is byte `i` of its input with byte `i mod 16` of the enciphered counter block
number `floor(i / 16)`. -/
def Obligations.GctrIsAnXorWithEncipheredCounters : Prop :=
  (∀ cb : List Byte, cb.length = 16 →
    (inc32 cb).length = 16 ∧ (inc32 cb).take 12 = cb.take 12 ∧
      beVal ((inc32 cb).drop 12) = (beVal (cb.drop 12) + 1) % 2 ^ 32) ∧
  ∀ k icb x : List Byte, k.length = 32 →
    (gctr k icb x).length = x.length ∧
    ∀ i, i < x.length → (gctr k icb x)[i]? = some (x.getD i 0 ^^^ (aes k (inc32^[i / 16] icb)).getD (i % 16) 0)

/-- Decrypting with the tag that encryption gave restores the plaintext, for every key, IV and
plaintext (43_aes_gcm.md section 5). -/
def Obligations.GcmRoundTrip : Prop :=
  ∀ k iv p : List Byte, k.length = 32 → gcmAD k iv (gcmAE k iv p).1 (gcmAE k iv p).2 = some p

/-- The round trip through the engine: after a successful `GCM_ENC`, a `GCM_DEC` with the same key, IV
and tag registers and the ciphertext as source restores the plaintext (43_aes_gcm.md section 5). -/
def Obligations.GcmCommandsRoundTrip : Prop :=
  ∀ s t u : State, Memory.wf s.buf → exec .gcmEnc s = .next t → t.err = false →
    Memory.wf u.buf → u.kInt = s.kInt → u.keyValid = s.keyValid → u.iv = s.iv → u.tag = t.tag → u.srcLen = s.srcLen → SrcOk u →
    src u = memRead t.buf t.dstAddr.toNat t.resLen.toNat → DstOk u u.srcLen.toNat →
      ∃ v, exec .gcmDec u = .next v ∧ Completes u v (src s) ∧ OnlyResults u v ∧ v.tag = u.tag ∧ v.digest = u.digest ∧
        SameHotp u v

/-! Host programs. -/

/-- 30_encoding.md R88 and R89, by the expansions of Sys2Proof/Machine/HostOps.lean: run on an idle
engine, a command's expansion and then the engine step end as that command does on the registers it was
given; a pass of `POLL` reads STATUS, busy or not. That the expansions are these lists of accesses is the
model's choice (log 16), and so is that the engine step is the one after the last of them (log 1). -/
def Obligations.ExpansionsRunTheirCommands : Prop :=
  (∀ s : State, Runs s [hostPoll] 0 (.next { s with events := [], response := .data (statusWord s) }) ∧
    (statusWord s).getLsbD 0 = s.busy) ∧
  ∀ (s : State), s.busy = false → ∀ (d a n k m : Word) (c : BitVec 64),
    let t := written { s with srcAddr := a, srcLen := n, dstAddr := d }
    Runs s (hostHmacSha1 d a n k m) 1 (exec .hmacSha1 (startCommand { t with keyAddr := k, keyLen := m } 0x00000001)) ∧
    Runs s (hostHotp d k m c) 1 (exec (.hotp 6) (startCommand (written { s with
      keyAddr := k, keyLen := m, cntLo := c.extractLsb' 0 32, cntHi := c.extractLsb' 32 32, dstAddr := d }) 0x00000602)) ∧
    Runs s (hostHotpTrunc d a) 1 (exec (.hotpTrunc 6) (startCommand { t with srcLen := 20 } 0x00000603)) ∧
    Runs s (hostB32Enc d a n) 1 (exec .b32Enc (startCommand t 0x00000004)) ∧
    Runs s (hostB32Dec d a n) 1 (exec .b32Dec (startCommand t 0x00000005)) ∧
    Runs s (hostGcmEnc d a n) 1 (exec .gcmEnc (startCommand t 0x00000006)) ∧
    Runs s (hostGcmDec d a n) 1 (exec .gcmDec (startCommand t 0x00000007)) ∧
    (∀ w, Runs s (hostKeyLoad w) 0 (exec .keyLoad (written { s with aesKey := w }))) ∧
    Runs s hostKeyClear 0 (exec .keyClear (written s)) ∧
    (∀ w, Runs s (hostSetIv w) 0 (.next (written { s with iv := w }))) ∧
    (∀ w, Runs s (hostSetTag w) 0 (.next (written { s with tag := w }))) ∧
    Runs s [hostAck] 0 (.next (written { s with done := false })) ∧
    (∀ boff ws, Memory.wf s.buf → boff % 4 = 0 → boff + 4 * ws.length ≤ 4096 →
      ∃ t, Runs s (hostWrw boff ws) 0 (.next t) ∧ t = { s with buf := t.buf, events := [], response := t.response } ∧
        Stores s.buf t.buf boff
          ((List.range (4 * ws.length)).map fun i => (ws.getD (i / 4) 0).extractLsb' (8 * (i % 4)) 8)) ∧
    (∀ boff b, Memory.wf s.buf → boff % 4 = 0 → boff + 4 * ((b.length + 3) / 4) ≤ 4096 →
      ∃ t, Runs s (hostWrb boff b) 0 (.next t) ∧ t = { s with buf := t.buf, events := [], response := t.response } ∧
        Stores s.buf t.buf boff (b ++ List.replicate (4 * ((b.length + 3) / 4) - b.length) 0))
end

