-- ==== Sys2Proof/Laws/Bytes.lean ====
section
/-! SUPPORT. The laws of the byte-string operators. -/

namespace Sys2Proof.Machine

@[simp] theorem zeros_length (n : Nat) : (zeros n).length = n := by simp [zeros]

@[simp] theorem beBytes_length (n v : Nat) : (beBytes n v).length = n := by simp [beBytes]

@[simp] theorem leBytes_length (n v : Nat) : (leBytes n v).length = n := by simp [leBytes]

@[simp] theorem xorBytes_length (a b : List Byte) : (xorBytes a b).length = min a.length b.length := by
  simp [xorBytes]

@[simp] theorem pieces_length {α : Type} (k n : Nat) (b : List α) : (pieces k n b).length = n := by
  induction n generalizing b with
  | zero => rfl
  | succ n ih => simp [pieces, ih]

/-- Piece `i` is `b[ki .. ki+k)`. -/
theorem pieces_getElem {α : Type} (k n : Nat) (b : List α) (i : Nat) (h : i < (pieces k n b).length) :
    (pieces k n b)[i] = (b.drop (k * i)).take k := by
  induction n generalizing b i with
  | zero => simp at h
  | succ n ih =>
    cases i with
    | zero => simp [pieces]
    | succ i =>
      have := ih (b.drop k) i (by simpa using h)
      simp only [pieces, List.getElem_cons_succ, this, List.drop_drop]
      congr 2
      rw [Nat.mul_succ, Nat.add_comm]

/-- The pieces of a list that they cover make it up again. -/
theorem pieces_flatten {α : Type} (k n : Nat) (b : List α) (h : b.length ≤ k * n) :
    (pieces k n b).flatten = b := by
  induction n generalizing b with
  | zero => simpa [pieces] using (List.length_eq_zero_iff.1 (Nat.le_zero.1 (by simpa using h))).symm
  | succ n ih =>
    simp only [pieces, List.flatten_cons]
    rw [ih _ (by rw [List.length_drop, Nat.mul_succ] at *; omega), List.take_append_drop]

theorem pieces_append {α : Type} (k n m : Nat) (b c : List α) (h : b.length = k * n) :
    pieces k (n + m) (b ++ c) = pieces k n b ++ pieces k m c := by
  induction n generalizing b with
  | zero =>
    have : b = [] := List.length_eq_zero_iff.1 (by simpa using h)
    subst this; simp [pieces]
  | succ n ih =>
    have hk : k ≤ b.length := by rw [h, Nat.mul_succ]; omega
    rw [show n + 1 + m = (n + m) + 1 by omega]
    simp only [pieces, List.cons_append]
    rw [List.take_append_of_le_length hk, List.drop_append_of_le_length hk,
      ih (b.drop k) (by rw [List.length_drop, h, Nat.mul_succ]; omega)]

/-- Exclusive or with the same string twice gives the operand back. -/
theorem xorBytes_xorBytes (a b : List Byte) (h : a.length ≤ b.length) : xorBytes (xorBytes a b) b = a := by
  refine List.ext_getElem (by simp; omega) fun i h1 h2 => ?_
  simp [xorBytes]

theorem leVal_leBytes4 (w : BitVec 32) : BitVec.ofNat 32 (leVal (leBytes 4 w.toNat)) = w := by
  apply BitVec.eq_of_toNat_eq
  have := w.isLt
  simp [leBytes, leVal, List.range_succ, Nat.shiftRight_eq_div_pow]
  omega

theorem leBytes4_leVal (b0 b1 b2 b3 : Byte) :
    leBytes 4 (BitVec.ofNat 32 (leVal [b0, b1, b2, b3])).toNat = [b0, b1, b2, b3] := by
  have h0 := b0.isLt
  have h1 := b1.isLt
  have h2 := b2.isLt
  have h3 := b3.isLt
  simp only [leBytes, leVal, List.range_succ, List.range_zero, List.foldr, List.map_cons, List.map_nil,
    List.nil_append, List.cons_append, List.cons.injEq, and_true]
  refine ⟨?_, ?_, ?_, ?_⟩ <;>
  · apply BitVec.eq_of_toNat_eq
    simp [Nat.shiftRight_eq_div_pow]
    omega

theorem leBytes4_leVal_of_length (b : List Byte) (h : b.length = 4) :
    leBytes 4 (BitVec.ofNat 32 (leVal b)).toNat = b := by
  match b, h with
  | [b0, b1, b2, b3], _ => exact leBytes4_leVal b0 b1 b2 b3

@[simp] theorem regBytes_length {n : Nat} (p : Vector Word n) : (regBytes p).length = 4 * n := by
  have : ∀ l : List Word, (l.flatMap fun w => leBytes 4 w.toNat).length = 4 * l.length := by
    intro l
    induction l with
    | nil => rfl
    | cons a l ih => simp [List.flatMap_cons, ih]; omega
  simp [regBytes, this]

theorem flatMap_leBytes_pieces (n : Nat) (b : List Byte) (h : b.length = 4 * n) :
    ((List.range n).map fun i => BitVec.ofNat 32 (leVal ((b.drop (4 * i)).take 4))).flatMap
      (fun w => leBytes 4 w.toNat) = b := by
  induction n generalizing b with
  | zero => simpa using (List.length_eq_zero_iff.1 (by simpa using h)).symm
  | succ n ih =>
    have hb : (b.take 4).length = 4 := by simp; omega
    have := ih (b.drop 4) (by simp; omega)
    simp only [List.drop_drop] at this
    rw [List.range_succ_eq_map, List.map_cons, List.flatMap_cons, List.map_map]
    simp only [Nat.mul_zero, List.drop_zero, leBytes4_leVal_of_length _ hb]
    refine (congrArg (b.take 4 ++ ·) ?_).trans (List.take_append_drop 4 b)
    refine Eq.trans ?_ this
    congr 1
    refine List.map_congr_left fun i _ => ?_
    simp only [Function.comp, Nat.succ_eq_add_one, Nat.mul_add, Nat.mul_one, Nat.add_comm]

/-- Reading a register group back gives the byte string it was set to. -/
theorem regBytes_setRegBytes (n : Nat) (b : List Byte) (h : b.length = 4 * n) :
    regBytes (setRegBytes n b) = b := by
  have h2 : (setRegBytes n b).toList =
      (List.range n).map fun i => BitVec.ofNat 32 (leVal ((b.drop (4 * i)).take 4)) := by
    refine List.ext_getElem (by simp) fun i h1 h2 => ?_
    simp [setRegBytes]
  rw [regBytes, h2, flatMap_leBytes_pieces n b h]

/-- Item `j` of piece `i`, where every piece has length `k`. -/
theorem flatMap_getElem? {α β : Type} (f : α → List β) (k : Nat) (hf : ∀ x, (f x).length = k) (l : List α)
    (i j : Nat) (hi : i < l.length) (hj : j < k) : (l.flatMap f)[k * i + j]? = (f l[i])[j]? := by
  induction l generalizing i with
  | nil => simp at hi
  | cons a l ih =>
    rw [List.flatMap_cons]
    cases i with
    | zero => rw [List.getElem?_append_left (by rw [hf]; omega)]; simp
    | succ i =>
      rw [List.getElem?_append_right (by rw [hf, Nat.mul_succ]; omega), hf]
      have := ih i (by simpa using hi)
      rw [show k * (i + 1) + j - k = k * i + j by rw [Nat.mul_succ]; omega, this]
      simp

/-- Byte `b` of a word's little-endian bytes. -/
theorem leBytes_getElem? (w : Word) (b : Nat) (hb : b < 4) : (leBytes 4 w.toNat)[b]? = some (w.extractLsb' (8 * b) 8) := by
  simp [leBytes, hb]
  apply BitVec.eq_of_toNat_eq
  simp

/-- Byte `4i + b` of a register group is bits `[8b+7 : 8b]` of register `i` (00_scope.md R14). -/
theorem regBytes_getElem? {n : Nat} (p : Vector Word n) (i : Fin n) (b : Fin 4) :
    (regBytes p)[4 * i.val + b.val]? = some (p[i].extractLsb' (8 * b) 8) := by
  rw [regBytes, flatMap_getElem? _ 4 (by simp) _ _ _ (by simp) b.isLt]
  simp only [Vector.getElem_toList]
  exact leBytes_getElem? _ _ b.isLt

end Sys2Proof.Machine
end

