-- ==== Sys2Proof/Laws/Memory.lean ====
section
/-! SUPPORT. The laws of the buffer's reads and writes, and that every write keeps the canonical form. -/

namespace Sys2Proof.Machine

theorem readByte_of_lt {m : Memory} {a : Nat} (h : ∀ c ∈ m, a < c.1) : readByte m a = unlistedByte := by
  induction m with
  | nil => rfl
  | cons c m ih =>
    obtain ⟨k, v⟩ := c
    have hk : a < k := h (k, v) (by simp)
    rw [readByte, if_neg (by omega)]
    exact ih fun c hc => h c (by simp [hc])

theorem readByte_consByte_self {m : Memory} {a : Nat} {v : Byte} (h : ∀ c ∈ m, a < c.1) :
    readByte (consByte a v m) a = v := by
  unfold consByte
  split
  · rename_i hv; rw [readByte_of_lt h, hv]
  · simp [readByte]

theorem readByte_consByte_ne {m : Memory} {a b : Nat} {v : Byte} (h : b ≠ a) :
    readByte (consByte a v m) b = readByte m b := by
  unfold consByte
  split <;> simp [readByte, h]

theorem readByte_writeByte_ne {m : Memory} {a b : Nat} {v : Byte} (h : b ≠ a) :
    readByte (writeByte m a v) b = readByte m b := by
  induction m with
  | nil => simp [writeByte, readByte_consByte_ne h]
  | cons c m ih =>
    obtain ⟨k, w⟩ := c
    simp only [writeByte]
    split
    · exact readByte_consByte_ne h
    · split
      · rename_i hk; subst hk
        simp [readByte_consByte_ne h, readByte, h]
      · simp [readByte, ih]

/-- A read after a write to the same offset gives the byte written. -/
theorem readByte_writeByte_self {m : Memory} (hm : Memory.wf m) (a : Nat) (v : Byte) :
    readByte (writeByte m a v) a = v := by
  induction m with
  | nil => exact readByte_consByte_self (by simp)
  | cons c m ih =>
    obtain ⟨k, w⟩ := c
    obtain ⟨hs, hz⟩ := hm
    rw [List.pairwise_cons] at hs
    simp only [writeByte]
    split
    · rename_i hk
      refine readByte_consByte_self fun c hc => ?_
      rcases List.mem_cons.1 hc with rfl | hc
      · exact hk
      · exact Nat.lt_trans hk (hs.1 c hc)
    · split
      · rename_i hk; subst hk
        exact readByte_consByte_self hs.1
      · rename_i hk
        rw [readByte, if_neg hk]
        exact ih ⟨hs.2, fun c hc => hz c (by simp [hc])⟩

theorem mem_consByte {m : Memory} {a : Nat} {v : Byte} {c : Host.Cell} (h : c ∈ consByte a v m) :
    c = (a, v) ∨ c ∈ m := by
  unfold consByte at h
  split at h
  · exact .inr h
  · simpa using h

theorem mem_writeByte {m : Memory} {a : Nat} {v : Byte} {c : Host.Cell} (h : c ∈ writeByte m a v) :
    c = (a, v) ∨ c ∈ m := by
  induction m with
  | nil => exact mem_consByte h
  | cons d m ih =>
    obtain ⟨k, w⟩ := d
    simp only [writeByte] at h
    split at h
    · exact mem_consByte h
    · split at h
      · rcases mem_consByte h with h | h
        · exact .inl h
        · exact .inr (by simp [h])
      · rcases List.mem_cons.1 h with h | h
        · exact .inr (by simp [h])
        · rcases ih h with h | h
          · exact .inl h
          · exact .inr (by simp [h])

theorem memWf_consByte {m : Memory} {a : Nat} {v : Byte} (hm : Memory.wf m) (h : ∀ c ∈ m, a < c.1) :
    Memory.wf (consByte a v m) := by
  unfold consByte
  split
  · exact hm
  · rename_i hv
    refine ⟨List.pairwise_cons.2 ⟨h, hm.1⟩, fun c hc => ?_⟩
    rcases List.mem_cons.1 hc with rfl | hc
    · exact hv
    · exact hm.2 c hc

/-- Writing a byte keeps the canonical form. -/
theorem memWf_writeByte {m : Memory} (hm : Memory.wf m) (a : Nat) (v : Byte) : Memory.wf (writeByte m a v) := by
  induction m with
  | nil => exact memWf_consByte hm (by simp)
  | cons c m ih =>
    obtain ⟨k, w⟩ := c
    have hs := List.pairwise_cons.1 hm.1
    have hm' : Memory.wf m := ⟨hs.2, fun c hc => hm.2 c (by simp [hc])⟩
    simp only [writeByte]
    split
    · rename_i hk
      refine memWf_consByte hm fun c hc => ?_
      rcases List.mem_cons.1 hc with rfl | hc
      · exact hk
      · exact Nat.lt_trans hk (hs.1 c hc)
    · split
      · rename_i hk; subst hk
        exact memWf_consByte hm' hs.1
      · rename_i hlt hne
        obtain ⟨h1, h2⟩ := ih hm'
        refine ⟨List.pairwise_cons.2 ⟨fun c hc => ?_, h1⟩, fun c hc => ?_⟩
        · rcases mem_writeByte hc with rfl | hc
          · show k < a; omega
          · exact hs.1 c hc
        · rcases List.mem_cons.1 hc with rfl | hc
          · exact hm.2 _ (by simp)
          · exact h2 c hc

/-- Writing a byte string keeps the canonical form. -/
theorem memWf_memWrite {m : Memory} (hm : Memory.wf m) (a : Nat) (bs : List Byte) :
    Memory.wf (memWrite m a bs) := by
  induction bs generalizing m a with
  | nil => exact hm
  | cons b bs ih => exact ih (memWf_writeByte hm a b) (a + 1)

theorem memInBuf_writeByte {m : Memory} {a : Nat} {v : Byte} (hm : memInBuf m)
    (ha : a < Config.bufBytes) : memInBuf (writeByte m a v) := fun c hc => by
  rcases mem_writeByte hc with rfl | hc
  · exact ha
  · exact hm c hc

/-- Writing a byte string that ends within the buffer keeps every offset within the buffer. -/
theorem memInBuf_memWrite {m : Memory} (hm : memInBuf m) (a : Nat) (bs : List Byte)
    (h : a + bs.length ≤ Config.bufBytes) : memInBuf (memWrite m a bs) := by
  induction bs generalizing m a with
  | nil => exact hm
  | cons b bs ih =>
    rw [List.length_cons] at h
    exact ih (memInBuf_writeByte hm (by omega)) (a + 1) (by omega)

/-- A write of a byte string leaves every offset outside it as it was. -/
theorem readByte_memWrite_outside (m : Memory) (a : Nat) (bs : List Byte) (b : Nat)
    (h : b < a ∨ a + bs.length ≤ b) : readByte (memWrite m a bs) b = readByte m b := by
  induction bs generalizing m a with
  | nil => rfl
  | cons v bs ih =>
    rw [List.length_cons] at h
    rw [memWrite, ih _ _ (by omega), readByte_writeByte_ne (by omega)]

/-- A write of a byte string leaves each of its bytes at its offset. -/
theorem readByte_memWrite_inside {m : Memory} (hm : Memory.wf m) (a : Nat) (bs : List Byte) (i : Nat)
    (h : i < bs.length) : readByte (memWrite m a bs) (a + i) = bs[i] := by
  induction bs generalizing m a i with
  | nil => simp at h
  | cons v bs ih =>
    rw [memWrite]
    cases i with
    | zero =>
      rw [readByte_memWrite_outside _ _ _ _ (by omega)]
      exact readByte_writeByte_self hm a v
    | succ i =>
      have := ih (memWf_writeByte hm a v) (a + 1) i (by simpa using h)
      rw [show a + (i + 1) = a + 1 + i by omega, this]
      rfl

@[simp] theorem memRead_length (m : Memory) (a n : Nat) : (memRead m a n).length = n := by
  simp [memRead]

@[simp] theorem memRead_getElem (m : Memory) (a n i : Nat) (h : i < (memRead m a n).length) :
    (memRead m a n)[i] = readByte m (a + i) := by
  simp [memRead]

/-- Reading back a written byte string. -/
theorem memRead_memWrite_self {m : Memory} (hm : Memory.wf m) (a : Nat) (bs : List Byte) :
    memRead (memWrite m a bs) a bs.length = bs := by
  refine List.ext_getElem (by simp) fun i h1 h2 => ?_
  rw [memRead_getElem, readByte_memWrite_inside hm a bs i h2]

/-- Equal reads mean equal canonical memories. -/
theorem memory_ext {m n : Memory} (hm : Memory.wf m) (hn : Memory.wf n)
    (h : ∀ a, readByte m a = readByte n a) : m = n := by
  induction m generalizing n with
  | nil =>
    cases n with
    | nil => rfl
    | cons d n =>
      exact absurd (by simpa [readByte] using (h d.1).symm) (hn.2 d (by simp))
  | cons c m ih =>
    obtain ⟨k, v⟩ := c
    have hms := List.pairwise_cons.1 hm.1
    have hv := hm.2 (k, v) (by simp)
    have hk := h k
    simp only [readByte, if_true] at hk
    cases n with
    | nil => exact absurd hk hv
    | cons d n =>
      obtain ⟨l, w⟩ := d
      have hns := List.pairwise_cons.1 hn.1
      have hw := hn.2 (l, w) (by simp)
      have hkl : k = l := by
        by_contra hne
        rcases Nat.lt_or_gt_of_ne hne with hlt | hlt
        · refine hv (hk.trans (readByte_of_lt fun c hc => ?_))
          rcases List.mem_cons.1 hc with rfl | hc
          · exact hlt
          · exact Nat.lt_trans hlt (hns.1 c hc)
        · have hl := h l
          rw [readByte_of_lt (m := (k, v) :: m) (a := l) (fun c hc => by
            rcases List.mem_cons.1 hc with rfl | hc
            · exact hlt
            · exact Nat.lt_trans hlt (hms.1 c hc))] at hl
          simp only [readByte, if_true] at hl
          exact hw hl.symm
      subst hkl
      have hvw : v = w := by simpa [readByte] using hk
      subst hvw
      have : m = n := ih ⟨hms.2, fun c hc => hm.2 c (by simp [hc])⟩
        ⟨hns.2, fun c hc => hn.2 c (by simp [hc])⟩ fun a => by
          by_cases ha : a = k
          · subst ha; rw [readByte_of_lt hms.1, readByte_of_lt hns.1]
          · have := h a
            simpa [readByte, ha] using this
      rw [this]

theorem reset_memWf : Memory.wf State.reset.buf := by decide

theorem reset_memInBuf : memInBuf State.reset.buf := by decide

end Sys2Proof.Machine
end

