-- ==== Sys2Proof/Laws/Algorithms.lean ====
section
/-! SUPPORT. The lengths of what the algorithms return, and the ranges of the HOTP values. -/

namespace Sys2Proof.Machine

@[simp] theorem sha1Digest_length (h : Sha1Vars) : (sha1Digest h).length = 20 := by simp [sha1Digest]

@[simp] theorem sha1_length (m : List Byte) : (sha1 m).length = 20 := by simp [sha1]

@[simp] theorem hmacSha1_length (k m : List Byte) : (hmacSha1 k m).length = 20 := by simp [hmacSha1]

@[simp] theorem hmacKeyBlock_length (k : List Byte) : (hmacKeyBlock k).length = 64 := by
  unfold hmacKeyBlock
  split <;> simp
  omega

@[simp] theorem digits6_length (v : Nat) : (digits6 v).length = 6 := by simp [digits6]

/-- `OFF(D)` is from 0 to 15 (42_hotp.md R151). -/
theorem hotpOffset_lt (d : List Byte) : hotpOffset d < 16 := by
  have h : (d.getD 19 0 &&& 0x0F).toNat ≤ (0x0F : Byte).toNat := by
    rw [BitVec.toNat_and]; exact Nat.and_le_right
  simpa [hotpOffset] using Nat.lt_of_le_of_lt h (by decide)

/-- `BIN(D)` is from 0 to 2^31 - 1 (42_hotp.md R152). -/
theorem hotpBinary_lt (d : List Byte) : (hotpBinary d).toNat < 2 ^ 31 := by
  unfold hotpBinary
  rw [BitVec.toNat_and]
  exact Nat.lt_of_le_of_lt Nat.and_le_right (by decide)

/-- `CODE(D)` is from 0 to 999 999 (42_hotp.md R153). -/
theorem hotpCodeOf_lt (d : List Byte) : hotpCodeOf d < 1000000 := Nat.mod_lt _ (by decide)

@[simp] theorem b32Encode_length (b : List Byte) : (b32Encode b).length = b32EncLen b.length := by
  simp [b32Encode]

@[simp] theorem shiftRows_length (s : List Byte) : (shiftRows s).length = 16 := by simp [shiftRows]

@[simp] theorem subBytes_length (s : List Byte) : (subBytes s).length = s.length := by simp [subBytes]

theorem mixColumns_length (s : List Byte) (h : s.length = 16) : (mixColumns s).length = 16 := by
  match s, h with
  | [_, _, _, _, _, _, _, _, _, _, _, _, _, _, _, _], _ => rfl

theorem keyTemp_length (i : Nat) (p : List Byte) (h : p.length = 4) : (keyTemp i p).length = 4 := by
  match p, h with
  | [_, _, _, _], _ =>
    unfold keyTemp
    split
    · simp [subWord, rotWord]
    · split <;> simp [subWord]

theorem getD_mem_or {α : Type} (l : List α) (i : Nat) (d : α) : l.getD i d ∈ l ∨ l.length ≤ i := by
  by_cases h : i < l.length
  · left; simp [List.getD, List.getElem?_eq_getElem h]
  · right; omega

theorem keyExtend_spec (n i : Nat) (w : List (List Byte)) (hl : 8 ≤ w.length) (hw : ∀ x ∈ w, x.length = 4) :
    (keyExtend n i w).length = n + w.length ∧ ∀ x ∈ keyExtend n i w, x.length = 4 := by
  induction n generalizing i w with
  | zero => exact ⟨by simp [keyExtend], hw⟩
  | succ n ih =>
    have h7 : (w.getD 7 []).length = 4 := by
      rcases getD_mem_or w 7 [] with h | h
      · exact hw _ h
      · omega
    have h0 : (w.getD 0 []).length = 4 := by
      rcases getD_mem_or w 0 [] with h | h
      · exact hw _ h
      · omega
    obtain ⟨h1, h2⟩ := ih (i + 1) (xorBytes (w.getD 7 []) (keyTemp i (w.getD 0 [])) :: w)
      (by simp; omega) (by
        intro x hx
        rcases List.mem_cons.1 hx with rfl | hx
        · rw [xorBytes_length, h7, keyTemp_length _ _ h0]; rfl
        · exact hw x hx)
    exact ⟨by rw [keyExtend, h1, List.length_cons]; omega, by rw [keyExtend]; exact h2⟩

/-- The key expansion of a 32-byte key has 60 words of four bytes (43_aes_gcm.md R173). -/
theorem keyExpansion_spec (k : List Byte) (h : k.length = 32) :
    (keyExpansion k).length = 60 ∧ ∀ x ∈ keyExpansion k, x.length = 4 := by
  have := keyExtend_spec 52 8 (pieces 4 8 k).reverse (by simp) (by
    intro x hx
    obtain ⟨i, hi, rfl⟩ := List.getElem_of_mem (List.mem_reverse.1 hx)
    rw [pieces_getElem]
    simp at hi ⊢
    omega)
  exact ⟨by simpa [keyExpansion] using this.1, fun x hx => this.2 x (by simpa [keyExpansion] using hx)⟩

theorem flatten_length_const (l : List (List Byte)) (k : Nat) (h : ∀ x ∈ l, x.length = k) :
    l.flatten.length = k * l.length := by
  induction l with
  | nil => rfl
  | cons a l ih =>
    rw [List.flatten_cons, List.length_append, ih fun x hx => h x (by simp [hx]), h a (by simp),
      List.length_cons, Nat.mul_succ, Nat.add_comm]

theorem roundKey_length (k : List Byte) (h : k.length = 32) (r : Nat) (hr : r < 15) :
    (roundKey (keyExpansion k) r).length = 16 := by
  obtain ⟨h1, h2⟩ := keyExpansion_spec k h
  rw [roundKey, flatten_length_const _ 4 fun x hx => h2 x (List.mem_of_mem_drop (List.mem_of_mem_take hx))]
  simp [h1]
  omega

theorem addRoundKey_length (k : List Byte) (h : k.length = 32) (r : Nat) (hr : r < 15) (s : List Byte)
    (hs : s.length = 16) : (addRoundKey (keyExpansion k) r s).length = 16 := by
  rw [addRoundKey, xorBytes_length, roundKey_length k h r hr, hs]; rfl

/-- The cipher returns a block (43_aes_gcm.md R178). -/
theorem aesCipher_length (k : List Byte) (h : k.length = 32) (block : List Byte) :
    (aesCipher (keyExpansion k) block).length = 16 := by
  rw [aesCipher]
  exact addRoundKey_length k h 14 (by decide) _ (shiftRows_length _)

theorem aes_length (k : List Byte) (h : k.length = 32) (block : List Byte) : (aes k block).length = 16 :=
  aesCipher_length k h block

@[simp] theorem ghash_length (h : BitVec 128) (x : List Byte) : (ghash h x).length = 16 := by
  simp [ghash, blockBytes]

/-- The tag has 16 bytes (43_aes_gcm.md R184). -/
theorem gcmTag_length (k iv c : List Byte) (h : k.length = 32) : (gcmTag k iv c).length = 16 := by
  rw [gcmTag, xorBytes_length, aes_length k h, ghash_length]; rfl

theorem gctrLoop_length (k : List Byte) (h : k.length = 32) (n : Nat) (cb x : List Byte)
    (hx : x.length ≤ 16 * n) : (gctrLoop (keyExpansion k) n cb x).length = x.length := by
  induction n generalizing cb x with
  | zero => simp [gctrLoop]; omega
  | succ n ih =>
    rw [gctrLoop, List.length_append, ih _ _ (by rw [List.length_drop]; omega), xorBytes_length,
      aesCipher_length k h, List.length_take, List.length_drop]
    omega

/-- GCTR keeps the length (43_aes_gcm.md R182). -/
theorem gctr_length (k icb x : List Byte) (h : k.length = 32) : (gctr k icb x).length = x.length :=
  gctrLoop_length k h _ _ _ (by unfold blockCount; omega)

@[simp] theorem kIntBytes_length (s : State) : (kIntBytes s).length = 32 := by simp [kIntBytes]

@[simp] theorem ivBytes_length (s : State) : (ivBytes s).length = 12 := by simp [ivBytes]

@[simp] theorem tagBytes_length (s : State) : (tagBytes s).length = 16 := by simp [tagBytes]

@[simp] theorem srcBytes_length (s : State) : (srcBytes s).length = s.srcLen.toNat := by simp [srcBytes]

@[simp] theorem keyBytes_length (s : State) : (keyBytes s).length = s.keyLen.toNat := by simp [keyBytes]

/-- The decoder gives a byte for each eight bits its symbols carry (40_base32.md R106). -/
theorem b32DecodeLoop_length (t : List Byte) (acc : BitVec 12) (n : Nat) (hn : n < 8) :
    (b32DecodeLoop t acc n).length = (5 * (t.filterMap b32SymVal).length + n) / 8 := by
  induction t generalizing acc n with
  | nil => simp [b32DecodeLoop]; omega
  | cons c t ih =>
    unfold b32DecodeLoop
    cases h : b32SymVal c with
    | none => simp [h]; exact ih _ _ hn
    | some v =>
      simp only [h, List.filterMap_cons, List.length_cons]
      split
      · rw [List.length_cons, ih _ _ (by omega)]; omega
      · rw [ih _ _ (by omega)]; omega

/-- Decoded text is shorter than its text. -/
theorem b32Decode_length_le (t : List Byte) : 8 * (b32Decode t).length ≤ 5 * t.length := by
  have h := b32DecodeLoop_length (stripEquals (t.map asciiUpper)) 0 0 (by decide)
  have h1 := List.length_filterMap_le b32SymVal (stripEquals (t.map asciiUpper))
  have h2 : (stripEquals (t.map asciiUpper)).length ≤ t.length := by
    simp only [stripEquals, List.length_reverse]
    exact le_trans (List.dropWhile_sublist _).length_le (by simp)
  unfold b32Decode; omega

/-- The staged key as a byte string (43_aes_gcm.md R188). -/
theorem stagedKey_toList (p : Vector Word 8) : (stagedKey p).toList = regBytes p := by
  refine List.ext_getElem (by simp) fun i h1 h2 => ?_
  simp [stagedKey]

end Sys2Proof.Machine
end

