-- ==== Sys2Proof/Laws/Decode.lean ====
section
/-! SUPPORT. The laws of the decoder. -/

namespace Sys2Proof

/-- A command word decodes to a command with its own `DIGITS` field, with no reserved bit set. -/
theorem decodeCmd_ok {w : Word} {i : Instr} (h : decodeCmd w = .ok i) :
    rsv0Field w = 0 ∧ rsv1Field w = 0 ∧ opCommand (opField w) (digitsField w) = some i ∧
      digitsField w = if usesDigits i then 6 else 0 := by
  unfold decodeCmd at h
  repeat' split at h
  all_goals simp_all

/-- What `opCommand` names goes to `CMD`. -/
theorem portOf_opCommand {op digits : BitVec 4} {i : Instr} (h : opCommand op digits = some i) :
    portOf i = .cmd := by
  unfold opCommand at h
  repeat' split at h
  all_goals first | (obtain rfl := Option.some.inj h; rfl) | simp at h

/-- A decoded command word is an instruction of `CMD`. -/
theorem portOf_decodeCmd {w : Word} {i : Instr} (h : decodeCmd w = .ok i) : portOf i = .cmd :=
  portOf_opCommand (decodeCmd_ok h).2.2.1

/-- A decoded `KEYCTL` word is an action. -/
theorem portOf_decodeKeyctl {w : Word} {i : Instr} (h : decodeKeyctl w = some i) : portOf i = .keyctl := by
  unfold decodeKeyctl at h
  repeat' split at h
  all_goals first | (obtain rfl := Option.some.inj h; rfl) | simp at h

end Sys2Proof
end

