-- ==== Sys2Proof/Laws/State.lean ====
section
/-! SUPPORT. What each named update of the state leaves in each field: one lemma a field and update. -/

namespace Sys2Proof.Machine

@[simp] theorem writeResult_cmd (s : State) (out : List Byte) : (writeResult s out).cmd = s.cmd := rfl
@[simp] theorem writeResult_busy (s : State) (out : List Byte) : (writeResult s out).busy = s.busy := rfl
@[simp] theorem writeResult_done (s : State) (out : List Byte) : (writeResult s out).done = s.done := rfl
@[simp] theorem writeResult_err (s : State) (out : List Byte) : (writeResult s out).err = s.err := rfl
@[simp] theorem writeResult_wbusy (s : State) (out : List Byte) : (writeResult s out).wbusy = s.wbusy := rfl
@[simp] theorem writeResult_errCode (s : State) (out : List Byte) : (writeResult s out).errCode = s.errCode := rfl
@[simp] theorem writeResult_doneIe (s : State) (out : List Byte) : (writeResult s out).doneIe = s.doneIe := rfl
@[simp] theorem writeResult_srcAddr (s : State) (out : List Byte) : (writeResult s out).srcAddr = s.srcAddr := rfl
@[simp] theorem writeResult_srcLen (s : State) (out : List Byte) : (writeResult s out).srcLen = s.srcLen := rfl
@[simp] theorem writeResult_keyAddr (s : State) (out : List Byte) : (writeResult s out).keyAddr = s.keyAddr := rfl
@[simp] theorem writeResult_keyLen (s : State) (out : List Byte) : (writeResult s out).keyLen = s.keyLen := rfl
@[simp] theorem writeResult_dstAddr (s : State) (out : List Byte) : (writeResult s out).dstAddr = s.dstAddr := rfl
@[simp] theorem writeResult_resLen (s : State) (out : List Byte) : (writeResult s out).resLen = BitVec.ofNat 32 out.length := rfl
@[simp] theorem writeResult_cntLo (s : State) (out : List Byte) : (writeResult s out).cntLo = s.cntLo := rfl
@[simp] theorem writeResult_cntHi (s : State) (out : List Byte) : (writeResult s out).cntHi = s.cntHi := rfl
@[simp] theorem writeResult_hotpCode (s : State) (out : List Byte) : (writeResult s out).hotpCode = s.hotpCode := rfl
@[simp] theorem writeResult_hotpOff (s : State) (out : List Byte) : (writeResult s out).hotpOff = s.hotpOff := rfl
@[simp] theorem writeResult_hotpBin (s : State) (out : List Byte) : (writeResult s out).hotpBin = s.hotpBin := rfl
@[simp] theorem writeResult_aesKey (s : State) (out : List Byte) : (writeResult s out).aesKey = s.aesKey := rfl
@[simp] theorem writeResult_iv (s : State) (out : List Byte) : (writeResult s out).iv = s.iv := rfl
@[simp] theorem writeResult_tag (s : State) (out : List Byte) : (writeResult s out).tag = s.tag := rfl
@[simp] theorem writeResult_digest (s : State) (out : List Byte) : (writeResult s out).digest = s.digest := rfl
@[simp] theorem writeResult_kInt (s : State) (out : List Byte) : (writeResult s out).kInt = s.kInt := rfl
@[simp] theorem writeResult_keyValid (s : State) (out : List Byte) : (writeResult s out).keyValid = s.keyValid := rfl
@[simp] theorem writeResult_buf (s : State) (out : List Byte) : (writeResult s out).buf = memWrite s.buf s.dstAddr.toNat out := rfl
@[simp] theorem writeResult_events (s : State) (out : List Byte) : (writeResult s out).events = s.events := rfl
@[simp] theorem writeResult_response (s : State) (out : List Byte) : (writeResult s out).response = s.response := rfl
@[simp] theorem writeResult_draws (s : State) (out : List Byte) : (writeResult s out).draws = s.draws := rfl

@[simp] theorem writeDigest_cmd (s : State) (d : List Byte) : (writeDigest s d).cmd = s.cmd := rfl
@[simp] theorem writeDigest_busy (s : State) (d : List Byte) : (writeDigest s d).busy = s.busy := rfl
@[simp] theorem writeDigest_done (s : State) (d : List Byte) : (writeDigest s d).done = s.done := rfl
@[simp] theorem writeDigest_err (s : State) (d : List Byte) : (writeDigest s d).err = s.err := rfl
@[simp] theorem writeDigest_wbusy (s : State) (d : List Byte) : (writeDigest s d).wbusy = s.wbusy := rfl
@[simp] theorem writeDigest_errCode (s : State) (d : List Byte) : (writeDigest s d).errCode = s.errCode := rfl
@[simp] theorem writeDigest_doneIe (s : State) (d : List Byte) : (writeDigest s d).doneIe = s.doneIe := rfl
@[simp] theorem writeDigest_srcAddr (s : State) (d : List Byte) : (writeDigest s d).srcAddr = s.srcAddr := rfl
@[simp] theorem writeDigest_srcLen (s : State) (d : List Byte) : (writeDigest s d).srcLen = s.srcLen := rfl
@[simp] theorem writeDigest_keyAddr (s : State) (d : List Byte) : (writeDigest s d).keyAddr = s.keyAddr := rfl
@[simp] theorem writeDigest_keyLen (s : State) (d : List Byte) : (writeDigest s d).keyLen = s.keyLen := rfl
@[simp] theorem writeDigest_dstAddr (s : State) (d : List Byte) : (writeDigest s d).dstAddr = s.dstAddr := rfl
@[simp] theorem writeDigest_resLen (s : State) (d : List Byte) : (writeDigest s d).resLen = s.resLen := rfl
@[simp] theorem writeDigest_cntLo (s : State) (d : List Byte) : (writeDigest s d).cntLo = s.cntLo := rfl
@[simp] theorem writeDigest_cntHi (s : State) (d : List Byte) : (writeDigest s d).cntHi = s.cntHi := rfl
@[simp] theorem writeDigest_hotpCode (s : State) (d : List Byte) : (writeDigest s d).hotpCode = s.hotpCode := rfl
@[simp] theorem writeDigest_hotpOff (s : State) (d : List Byte) : (writeDigest s d).hotpOff = s.hotpOff := rfl
@[simp] theorem writeDigest_hotpBin (s : State) (d : List Byte) : (writeDigest s d).hotpBin = s.hotpBin := rfl
@[simp] theorem writeDigest_aesKey (s : State) (d : List Byte) : (writeDigest s d).aesKey = s.aesKey := rfl
@[simp] theorem writeDigest_iv (s : State) (d : List Byte) : (writeDigest s d).iv = s.iv := rfl
@[simp] theorem writeDigest_tag (s : State) (d : List Byte) : (writeDigest s d).tag = s.tag := rfl
@[simp] theorem writeDigest_digest (s : State) (d : List Byte) : (writeDigest s d).digest = setRegBytes 5 d := rfl
@[simp] theorem writeDigest_kInt (s : State) (d : List Byte) : (writeDigest s d).kInt = s.kInt := rfl
@[simp] theorem writeDigest_keyValid (s : State) (d : List Byte) : (writeDigest s d).keyValid = s.keyValid := rfl
@[simp] theorem writeDigest_buf (s : State) (d : List Byte) : (writeDigest s d).buf = s.buf := rfl
@[simp] theorem writeDigest_events (s : State) (d : List Byte) : (writeDigest s d).events = s.events := rfl
@[simp] theorem writeDigest_response (s : State) (d : List Byte) : (writeDigest s d).response = s.response := rfl
@[simp] theorem writeDigest_draws (s : State) (d : List Byte) : (writeDigest s d).draws = s.draws := rfl

@[simp] theorem writeTag_cmd (s : State) (t : List Byte) : (writeTag s t).cmd = s.cmd := rfl
@[simp] theorem writeTag_busy (s : State) (t : List Byte) : (writeTag s t).busy = s.busy := rfl
@[simp] theorem writeTag_done (s : State) (t : List Byte) : (writeTag s t).done = s.done := rfl
@[simp] theorem writeTag_err (s : State) (t : List Byte) : (writeTag s t).err = s.err := rfl
@[simp] theorem writeTag_wbusy (s : State) (t : List Byte) : (writeTag s t).wbusy = s.wbusy := rfl
@[simp] theorem writeTag_errCode (s : State) (t : List Byte) : (writeTag s t).errCode = s.errCode := rfl
@[simp] theorem writeTag_doneIe (s : State) (t : List Byte) : (writeTag s t).doneIe = s.doneIe := rfl
@[simp] theorem writeTag_srcAddr (s : State) (t : List Byte) : (writeTag s t).srcAddr = s.srcAddr := rfl
@[simp] theorem writeTag_srcLen (s : State) (t : List Byte) : (writeTag s t).srcLen = s.srcLen := rfl
@[simp] theorem writeTag_keyAddr (s : State) (t : List Byte) : (writeTag s t).keyAddr = s.keyAddr := rfl
@[simp] theorem writeTag_keyLen (s : State) (t : List Byte) : (writeTag s t).keyLen = s.keyLen := rfl
@[simp] theorem writeTag_dstAddr (s : State) (t : List Byte) : (writeTag s t).dstAddr = s.dstAddr := rfl
@[simp] theorem writeTag_resLen (s : State) (t : List Byte) : (writeTag s t).resLen = s.resLen := rfl
@[simp] theorem writeTag_cntLo (s : State) (t : List Byte) : (writeTag s t).cntLo = s.cntLo := rfl
@[simp] theorem writeTag_cntHi (s : State) (t : List Byte) : (writeTag s t).cntHi = s.cntHi := rfl
@[simp] theorem writeTag_hotpCode (s : State) (t : List Byte) : (writeTag s t).hotpCode = s.hotpCode := rfl
@[simp] theorem writeTag_hotpOff (s : State) (t : List Byte) : (writeTag s t).hotpOff = s.hotpOff := rfl
@[simp] theorem writeTag_hotpBin (s : State) (t : List Byte) : (writeTag s t).hotpBin = s.hotpBin := rfl
@[simp] theorem writeTag_aesKey (s : State) (t : List Byte) : (writeTag s t).aesKey = s.aesKey := rfl
@[simp] theorem writeTag_iv (s : State) (t : List Byte) : (writeTag s t).iv = s.iv := rfl
@[simp] theorem writeTag_tag (s : State) (t : List Byte) : (writeTag s t).tag = setRegBytes 4 t := rfl
@[simp] theorem writeTag_digest (s : State) (t : List Byte) : (writeTag s t).digest = s.digest := rfl
@[simp] theorem writeTag_kInt (s : State) (t : List Byte) : (writeTag s t).kInt = s.kInt := rfl
@[simp] theorem writeTag_keyValid (s : State) (t : List Byte) : (writeTag s t).keyValid = s.keyValid := rfl
@[simp] theorem writeTag_buf (s : State) (t : List Byte) : (writeTag s t).buf = s.buf := rfl
@[simp] theorem writeTag_events (s : State) (t : List Byte) : (writeTag s t).events = s.events := rfl
@[simp] theorem writeTag_response (s : State) (t : List Byte) : (writeTag s t).response = s.response := rfl
@[simp] theorem writeTag_draws (s : State) (t : List Byte) : (writeTag s t).draws = s.draws := rfl

@[simp] theorem writeHotp_cmd (s : State) (off : Nat) (bin : Word) (code : Nat) : (writeHotp s off bin code).cmd = s.cmd := rfl
@[simp] theorem writeHotp_busy (s : State) (off : Nat) (bin : Word) (code : Nat) : (writeHotp s off bin code).busy = s.busy := rfl
@[simp] theorem writeHotp_done (s : State) (off : Nat) (bin : Word) (code : Nat) : (writeHotp s off bin code).done = s.done := rfl
@[simp] theorem writeHotp_err (s : State) (off : Nat) (bin : Word) (code : Nat) : (writeHotp s off bin code).err = s.err := rfl
@[simp] theorem writeHotp_wbusy (s : State) (off : Nat) (bin : Word) (code : Nat) : (writeHotp s off bin code).wbusy = s.wbusy := rfl
@[simp] theorem writeHotp_errCode (s : State) (off : Nat) (bin : Word) (code : Nat) : (writeHotp s off bin code).errCode = s.errCode := rfl
@[simp] theorem writeHotp_doneIe (s : State) (off : Nat) (bin : Word) (code : Nat) : (writeHotp s off bin code).doneIe = s.doneIe := rfl
@[simp] theorem writeHotp_srcAddr (s : State) (off : Nat) (bin : Word) (code : Nat) : (writeHotp s off bin code).srcAddr = s.srcAddr := rfl
@[simp] theorem writeHotp_srcLen (s : State) (off : Nat) (bin : Word) (code : Nat) : (writeHotp s off bin code).srcLen = s.srcLen := rfl
@[simp] theorem writeHotp_keyAddr (s : State) (off : Nat) (bin : Word) (code : Nat) : (writeHotp s off bin code).keyAddr = s.keyAddr := rfl
@[simp] theorem writeHotp_keyLen (s : State) (off : Nat) (bin : Word) (code : Nat) : (writeHotp s off bin code).keyLen = s.keyLen := rfl
@[simp] theorem writeHotp_dstAddr (s : State) (off : Nat) (bin : Word) (code : Nat) : (writeHotp s off bin code).dstAddr = s.dstAddr := rfl
@[simp] theorem writeHotp_resLen (s : State) (off : Nat) (bin : Word) (code : Nat) : (writeHotp s off bin code).resLen = s.resLen := rfl
@[simp] theorem writeHotp_cntLo (s : State) (off : Nat) (bin : Word) (code : Nat) : (writeHotp s off bin code).cntLo = s.cntLo := rfl
@[simp] theorem writeHotp_cntHi (s : State) (off : Nat) (bin : Word) (code : Nat) : (writeHotp s off bin code).cntHi = s.cntHi := rfl
@[simp] theorem writeHotp_hotpCode (s : State) (off : Nat) (bin : Word) (code : Nat) : (writeHotp s off bin code).hotpCode = BitVec.ofNat 32 code := rfl
@[simp] theorem writeHotp_hotpOff (s : State) (off : Nat) (bin : Word) (code : Nat) : (writeHotp s off bin code).hotpOff = BitVec.ofNat 32 off := rfl
@[simp] theorem writeHotp_hotpBin (s : State) (off : Nat) (bin : Word) (code : Nat) : (writeHotp s off bin code).hotpBin = bin := rfl
@[simp] theorem writeHotp_aesKey (s : State) (off : Nat) (bin : Word) (code : Nat) : (writeHotp s off bin code).aesKey = s.aesKey := rfl
@[simp] theorem writeHotp_iv (s : State) (off : Nat) (bin : Word) (code : Nat) : (writeHotp s off bin code).iv = s.iv := rfl
@[simp] theorem writeHotp_tag (s : State) (off : Nat) (bin : Word) (code : Nat) : (writeHotp s off bin code).tag = s.tag := rfl
@[simp] theorem writeHotp_digest (s : State) (off : Nat) (bin : Word) (code : Nat) : (writeHotp s off bin code).digest = s.digest := rfl
@[simp] theorem writeHotp_kInt (s : State) (off : Nat) (bin : Word) (code : Nat) : (writeHotp s off bin code).kInt = s.kInt := rfl
@[simp] theorem writeHotp_keyValid (s : State) (off : Nat) (bin : Word) (code : Nat) : (writeHotp s off bin code).keyValid = s.keyValid := rfl
@[simp] theorem writeHotp_buf (s : State) (off : Nat) (bin : Word) (code : Nat) : (writeHotp s off bin code).buf = s.buf := rfl
@[simp] theorem writeHotp_events (s : State) (off : Nat) (bin : Word) (code : Nat) : (writeHotp s off bin code).events = s.events := rfl
@[simp] theorem writeHotp_response (s : State) (off : Nat) (bin : Word) (code : Nat) : (writeHotp s off bin code).response = s.response := rfl
@[simp] theorem writeHotp_draws (s : State) (off : Nat) (bin : Word) (code : Nat) : (writeHotp s off bin code).draws = s.draws := rfl

@[simp] theorem succeed_cmd (s : State) : (succeed s).cmd = s.cmd := rfl
@[simp] theorem succeed_busy (s : State) : (succeed s).busy = false := rfl
@[simp] theorem succeed_done (s : State) : (succeed s).done = true := rfl
@[simp] theorem succeed_err (s : State) : (succeed s).err = false := rfl
@[simp] theorem succeed_wbusy (s : State) : (succeed s).wbusy = s.wbusy := rfl
@[simp] theorem succeed_errCode (s : State) : (succeed s).errCode = 0 := rfl
@[simp] theorem succeed_doneIe (s : State) : (succeed s).doneIe = s.doneIe := rfl
@[simp] theorem succeed_srcAddr (s : State) : (succeed s).srcAddr = s.srcAddr := rfl
@[simp] theorem succeed_srcLen (s : State) : (succeed s).srcLen = s.srcLen := rfl
@[simp] theorem succeed_keyAddr (s : State) : (succeed s).keyAddr = s.keyAddr := rfl
@[simp] theorem succeed_keyLen (s : State) : (succeed s).keyLen = s.keyLen := rfl
@[simp] theorem succeed_dstAddr (s : State) : (succeed s).dstAddr = s.dstAddr := rfl
@[simp] theorem succeed_resLen (s : State) : (succeed s).resLen = s.resLen := rfl
@[simp] theorem succeed_cntLo (s : State) : (succeed s).cntLo = s.cntLo := rfl
@[simp] theorem succeed_cntHi (s : State) : (succeed s).cntHi = s.cntHi := rfl
@[simp] theorem succeed_hotpCode (s : State) : (succeed s).hotpCode = s.hotpCode := rfl
@[simp] theorem succeed_hotpOff (s : State) : (succeed s).hotpOff = s.hotpOff := rfl
@[simp] theorem succeed_hotpBin (s : State) : (succeed s).hotpBin = s.hotpBin := rfl
@[simp] theorem succeed_aesKey (s : State) : (succeed s).aesKey = s.aesKey := rfl
@[simp] theorem succeed_iv (s : State) : (succeed s).iv = s.iv := rfl
@[simp] theorem succeed_tag (s : State) : (succeed s).tag = s.tag := rfl
@[simp] theorem succeed_digest (s : State) : (succeed s).digest = s.digest := rfl
@[simp] theorem succeed_kInt (s : State) : (succeed s).kInt = s.kInt := rfl
@[simp] theorem succeed_keyValid (s : State) : (succeed s).keyValid = s.keyValid := rfl
@[simp] theorem succeed_buf (s : State) : (succeed s).buf = s.buf := rfl
@[simp] theorem succeed_events (s : State) : (succeed s).events = s.events := rfl
@[simp] theorem succeed_response (s : State) : (succeed s).response = s.response := rfl
@[simp] theorem succeed_draws (s : State) : (succeed s).draws = s.draws := rfl

@[simp] theorem failWith_cmd (e : ErrCode) (s : State) : (failWith e s).cmd = s.cmd := rfl
@[simp] theorem failWith_busy (e : ErrCode) (s : State) : (failWith e s).busy = false := rfl
@[simp] theorem failWith_done (e : ErrCode) (s : State) : (failWith e s).done = true := rfl
@[simp] theorem failWith_err (e : ErrCode) (s : State) : (failWith e s).err = true := rfl
@[simp] theorem failWith_wbusy (e : ErrCode) (s : State) : (failWith e s).wbusy = s.wbusy := rfl
@[simp] theorem failWith_errCode (e : ErrCode) (s : State) : (failWith e s).errCode = errBits e := rfl
@[simp] theorem failWith_doneIe (e : ErrCode) (s : State) : (failWith e s).doneIe = s.doneIe := rfl
@[simp] theorem failWith_srcAddr (e : ErrCode) (s : State) : (failWith e s).srcAddr = s.srcAddr := rfl
@[simp] theorem failWith_srcLen (e : ErrCode) (s : State) : (failWith e s).srcLen = s.srcLen := rfl
@[simp] theorem failWith_keyAddr (e : ErrCode) (s : State) : (failWith e s).keyAddr = s.keyAddr := rfl
@[simp] theorem failWith_keyLen (e : ErrCode) (s : State) : (failWith e s).keyLen = s.keyLen := rfl
@[simp] theorem failWith_dstAddr (e : ErrCode) (s : State) : (failWith e s).dstAddr = s.dstAddr := rfl
@[simp] theorem failWith_resLen (e : ErrCode) (s : State) : (failWith e s).resLen = 0 := rfl
@[simp] theorem failWith_cntLo (e : ErrCode) (s : State) : (failWith e s).cntLo = s.cntLo := rfl
@[simp] theorem failWith_cntHi (e : ErrCode) (s : State) : (failWith e s).cntHi = s.cntHi := rfl
@[simp] theorem failWith_hotpCode (e : ErrCode) (s : State) : (failWith e s).hotpCode = s.hotpCode := rfl
@[simp] theorem failWith_hotpOff (e : ErrCode) (s : State) : (failWith e s).hotpOff = s.hotpOff := rfl
@[simp] theorem failWith_hotpBin (e : ErrCode) (s : State) : (failWith e s).hotpBin = s.hotpBin := rfl
@[simp] theorem failWith_aesKey (e : ErrCode) (s : State) : (failWith e s).aesKey = s.aesKey := rfl
@[simp] theorem failWith_iv (e : ErrCode) (s : State) : (failWith e s).iv = s.iv := rfl
@[simp] theorem failWith_tag (e : ErrCode) (s : State) : (failWith e s).tag = s.tag := rfl
@[simp] theorem failWith_digest (e : ErrCode) (s : State) : (failWith e s).digest = s.digest := rfl
@[simp] theorem failWith_kInt (e : ErrCode) (s : State) : (failWith e s).kInt = s.kInt := rfl
@[simp] theorem failWith_keyValid (e : ErrCode) (s : State) : (failWith e s).keyValid = s.keyValid := rfl
@[simp] theorem failWith_buf (e : ErrCode) (s : State) : (failWith e s).buf = s.buf := rfl
@[simp] theorem failWith_events (e : ErrCode) (s : State) : (failWith e s).events = s.events := rfl
@[simp] theorem failWith_response (e : ErrCode) (s : State) : (failWith e s).response = s.response := rfl
@[simp] theorem failWith_draws (e : ErrCode) (s : State) : (failWith e s).draws = s.draws := rfl

@[simp] theorem startCommand_cmd (s : State) (v : Word) : (startCommand s v).cmd = v := rfl
@[simp] theorem startCommand_busy (s : State) (v : Word) : (startCommand s v).busy = true := rfl
@[simp] theorem startCommand_done (s : State) (v : Word) : (startCommand s v).done = false := rfl
@[simp] theorem startCommand_err (s : State) (v : Word) : (startCommand s v).err = false := rfl
@[simp] theorem startCommand_wbusy (s : State) (v : Word) : (startCommand s v).wbusy = s.wbusy := rfl
@[simp] theorem startCommand_errCode (s : State) (v : Word) : (startCommand s v).errCode = 0 := rfl
@[simp] theorem startCommand_doneIe (s : State) (v : Word) : (startCommand s v).doneIe = s.doneIe := rfl
@[simp] theorem startCommand_srcAddr (s : State) (v : Word) : (startCommand s v).srcAddr = s.srcAddr := rfl
@[simp] theorem startCommand_srcLen (s : State) (v : Word) : (startCommand s v).srcLen = s.srcLen := rfl
@[simp] theorem startCommand_keyAddr (s : State) (v : Word) : (startCommand s v).keyAddr = s.keyAddr := rfl
@[simp] theorem startCommand_keyLen (s : State) (v : Word) : (startCommand s v).keyLen = s.keyLen := rfl
@[simp] theorem startCommand_dstAddr (s : State) (v : Word) : (startCommand s v).dstAddr = s.dstAddr := rfl
@[simp] theorem startCommand_resLen (s : State) (v : Word) : (startCommand s v).resLen = s.resLen := rfl
@[simp] theorem startCommand_cntLo (s : State) (v : Word) : (startCommand s v).cntLo = s.cntLo := rfl
@[simp] theorem startCommand_cntHi (s : State) (v : Word) : (startCommand s v).cntHi = s.cntHi := rfl
@[simp] theorem startCommand_hotpCode (s : State) (v : Word) : (startCommand s v).hotpCode = s.hotpCode := rfl
@[simp] theorem startCommand_hotpOff (s : State) (v : Word) : (startCommand s v).hotpOff = s.hotpOff := rfl
@[simp] theorem startCommand_hotpBin (s : State) (v : Word) : (startCommand s v).hotpBin = s.hotpBin := rfl
@[simp] theorem startCommand_aesKey (s : State) (v : Word) : (startCommand s v).aesKey = s.aesKey := rfl
@[simp] theorem startCommand_iv (s : State) (v : Word) : (startCommand s v).iv = s.iv := rfl
@[simp] theorem startCommand_tag (s : State) (v : Word) : (startCommand s v).tag = s.tag := rfl
@[simp] theorem startCommand_digest (s : State) (v : Word) : (startCommand s v).digest = s.digest := rfl
@[simp] theorem startCommand_kInt (s : State) (v : Word) : (startCommand s v).kInt = s.kInt := rfl
@[simp] theorem startCommand_keyValid (s : State) (v : Word) : (startCommand s v).keyValid = s.keyValid := rfl
@[simp] theorem startCommand_buf (s : State) (v : Word) : (startCommand s v).buf = s.buf := rfl
@[simp] theorem startCommand_events (s : State) (v : Word) : (startCommand s v).events = s.events := rfl
@[simp] theorem startCommand_response (s : State) (v : Word) : (startCommand s v).response = s.response := rfl
@[simp] theorem startCommand_draws (s : State) (v : Word) : (startCommand s v).draws = s.draws := rfl

@[simp] theorem loadKey_cmd (s : State) : (loadKey s).cmd = s.cmd := by dsimp only [loadKey]
@[simp] theorem loadKey_busy (s : State) : (loadKey s).busy = s.busy := by dsimp only [loadKey]
@[simp] theorem loadKey_done (s : State) : (loadKey s).done = s.done := by dsimp only [loadKey]
@[simp] theorem loadKey_err (s : State) : (loadKey s).err = s.err := by dsimp only [loadKey]
@[simp] theorem loadKey_wbusy (s : State) : (loadKey s).wbusy = s.wbusy := by dsimp only [loadKey]
@[simp] theorem loadKey_errCode (s : State) : (loadKey s).errCode = s.errCode := by dsimp only [loadKey]
@[simp] theorem loadKey_doneIe (s : State) : (loadKey s).doneIe = s.doneIe := by dsimp only [loadKey]
@[simp] theorem loadKey_srcAddr (s : State) : (loadKey s).srcAddr = s.srcAddr := by dsimp only [loadKey]
@[simp] theorem loadKey_srcLen (s : State) : (loadKey s).srcLen = s.srcLen := by dsimp only [loadKey]
@[simp] theorem loadKey_keyAddr (s : State) : (loadKey s).keyAddr = s.keyAddr := by dsimp only [loadKey]
@[simp] theorem loadKey_keyLen (s : State) : (loadKey s).keyLen = s.keyLen := by dsimp only [loadKey]
@[simp] theorem loadKey_dstAddr (s : State) : (loadKey s).dstAddr = s.dstAddr := by dsimp only [loadKey]
@[simp] theorem loadKey_resLen (s : State) : (loadKey s).resLen = s.resLen := by dsimp only [loadKey]
@[simp] theorem loadKey_cntLo (s : State) : (loadKey s).cntLo = s.cntLo := by dsimp only [loadKey]
@[simp] theorem loadKey_cntHi (s : State) : (loadKey s).cntHi = s.cntHi := by dsimp only [loadKey]
@[simp] theorem loadKey_hotpCode (s : State) : (loadKey s).hotpCode = s.hotpCode := by dsimp only [loadKey]
@[simp] theorem loadKey_hotpOff (s : State) : (loadKey s).hotpOff = s.hotpOff := by dsimp only [loadKey]
@[simp] theorem loadKey_hotpBin (s : State) : (loadKey s).hotpBin = s.hotpBin := by dsimp only [loadKey]
@[simp] theorem loadKey_aesKey (s : State) : (loadKey s).aesKey = s.aesKey := by dsimp only [loadKey]
@[simp] theorem loadKey_iv (s : State) : (loadKey s).iv = s.iv := by dsimp only [loadKey]
@[simp] theorem loadKey_tag (s : State) : (loadKey s).tag = s.tag := by dsimp only [loadKey]
@[simp] theorem loadKey_digest (s : State) : (loadKey s).digest = s.digest := by dsimp only [loadKey]
@[simp] theorem loadKey_kInt (s : State) : (loadKey s).kInt = stagedKey s.aesKey := by dsimp only [loadKey]
@[simp] theorem loadKey_keyValid (s : State) : (loadKey s).keyValid = true := by dsimp only [loadKey]
@[simp] theorem loadKey_buf (s : State) : (loadKey s).buf = s.buf := by dsimp only [loadKey]
@[simp] theorem loadKey_events (s : State) : (loadKey s).events = s.events := by dsimp only [loadKey]
@[simp] theorem loadKey_response (s : State) : (loadKey s).response = s.response := by dsimp only [loadKey]
@[simp] theorem loadKey_draws (s : State) : (loadKey s).draws = s.draws := by dsimp only [loadKey]

@[simp] theorem clearKey_cmd (s : State) : (clearKey s).cmd = s.cmd := rfl
@[simp] theorem clearKey_busy (s : State) : (clearKey s).busy = s.busy := rfl
@[simp] theorem clearKey_done (s : State) : (clearKey s).done = s.done := rfl
@[simp] theorem clearKey_err (s : State) : (clearKey s).err = s.err := rfl
@[simp] theorem clearKey_wbusy (s : State) : (clearKey s).wbusy = s.wbusy := rfl
@[simp] theorem clearKey_errCode (s : State) : (clearKey s).errCode = s.errCode := rfl
@[simp] theorem clearKey_doneIe (s : State) : (clearKey s).doneIe = s.doneIe := rfl
@[simp] theorem clearKey_srcAddr (s : State) : (clearKey s).srcAddr = s.srcAddr := rfl
@[simp] theorem clearKey_srcLen (s : State) : (clearKey s).srcLen = s.srcLen := rfl
@[simp] theorem clearKey_keyAddr (s : State) : (clearKey s).keyAddr = s.keyAddr := rfl
@[simp] theorem clearKey_keyLen (s : State) : (clearKey s).keyLen = s.keyLen := rfl
@[simp] theorem clearKey_dstAddr (s : State) : (clearKey s).dstAddr = s.dstAddr := rfl
@[simp] theorem clearKey_resLen (s : State) : (clearKey s).resLen = s.resLen := rfl
@[simp] theorem clearKey_cntLo (s : State) : (clearKey s).cntLo = s.cntLo := rfl
@[simp] theorem clearKey_cntHi (s : State) : (clearKey s).cntHi = s.cntHi := rfl
@[simp] theorem clearKey_hotpCode (s : State) : (clearKey s).hotpCode = s.hotpCode := rfl
@[simp] theorem clearKey_hotpOff (s : State) : (clearKey s).hotpOff = s.hotpOff := rfl
@[simp] theorem clearKey_hotpBin (s : State) : (clearKey s).hotpBin = s.hotpBin := rfl
@[simp] theorem clearKey_aesKey (s : State) : (clearKey s).aesKey = Vector.replicate 8 0 := rfl
@[simp] theorem clearKey_iv (s : State) : (clearKey s).iv = s.iv := rfl
@[simp] theorem clearKey_tag (s : State) : (clearKey s).tag = s.tag := rfl
@[simp] theorem clearKey_digest (s : State) : (clearKey s).digest = s.digest := rfl
@[simp] theorem clearKey_kInt (s : State) : (clearKey s).kInt = Vector.replicate 32 0 := rfl
@[simp] theorem clearKey_keyValid (s : State) : (clearKey s).keyValid = false := rfl
@[simp] theorem clearKey_buf (s : State) : (clearKey s).buf = s.buf := rfl
@[simp] theorem clearKey_events (s : State) : (clearKey s).events = s.events := rfl
@[simp] theorem clearKey_response (s : State) : (clearKey s).response = s.response := rfl
@[simp] theorem clearKey_draws (s : State) : (clearKey s).draws = s.draws := rfl

@[simp] theorem popEvent_cmd (s : State) : (popEvent s).cmd = s.cmd := rfl
@[simp] theorem popEvent_busy (s : State) : (popEvent s).busy = s.busy := rfl
@[simp] theorem popEvent_done (s : State) : (popEvent s).done = s.done := rfl
@[simp] theorem popEvent_err (s : State) : (popEvent s).err = s.err := rfl
@[simp] theorem popEvent_wbusy (s : State) : (popEvent s).wbusy = s.wbusy := rfl
@[simp] theorem popEvent_errCode (s : State) : (popEvent s).errCode = s.errCode := rfl
@[simp] theorem popEvent_doneIe (s : State) : (popEvent s).doneIe = s.doneIe := rfl
@[simp] theorem popEvent_srcAddr (s : State) : (popEvent s).srcAddr = s.srcAddr := rfl
@[simp] theorem popEvent_srcLen (s : State) : (popEvent s).srcLen = s.srcLen := rfl
@[simp] theorem popEvent_keyAddr (s : State) : (popEvent s).keyAddr = s.keyAddr := rfl
@[simp] theorem popEvent_keyLen (s : State) : (popEvent s).keyLen = s.keyLen := rfl
@[simp] theorem popEvent_dstAddr (s : State) : (popEvent s).dstAddr = s.dstAddr := rfl
@[simp] theorem popEvent_resLen (s : State) : (popEvent s).resLen = s.resLen := rfl
@[simp] theorem popEvent_cntLo (s : State) : (popEvent s).cntLo = s.cntLo := rfl
@[simp] theorem popEvent_cntHi (s : State) : (popEvent s).cntHi = s.cntHi := rfl
@[simp] theorem popEvent_hotpCode (s : State) : (popEvent s).hotpCode = s.hotpCode := rfl
@[simp] theorem popEvent_hotpOff (s : State) : (popEvent s).hotpOff = s.hotpOff := rfl
@[simp] theorem popEvent_hotpBin (s : State) : (popEvent s).hotpBin = s.hotpBin := rfl
@[simp] theorem popEvent_aesKey (s : State) : (popEvent s).aesKey = s.aesKey := rfl
@[simp] theorem popEvent_iv (s : State) : (popEvent s).iv = s.iv := rfl
@[simp] theorem popEvent_tag (s : State) : (popEvent s).tag = s.tag := rfl
@[simp] theorem popEvent_digest (s : State) : (popEvent s).digest = s.digest := rfl
@[simp] theorem popEvent_kInt (s : State) : (popEvent s).kInt = s.kInt := rfl
@[simp] theorem popEvent_keyValid (s : State) : (popEvent s).keyValid = s.keyValid := rfl
@[simp] theorem popEvent_buf (s : State) : (popEvent s).buf = s.buf := rfl
@[simp] theorem popEvent_events (s : State) : (popEvent s).events = s.events.tail := rfl
@[simp] theorem popEvent_response (s : State) : (popEvent s).response = s.response := rfl
@[simp] theorem popEvent_draws (s : State) : (popEvent s).draws = s.draws := rfl

@[simp] theorem respond_cmd (s : State) (r : Response) : (respond s r).cmd = s.cmd := rfl
@[simp] theorem respond_busy (s : State) (r : Response) : (respond s r).busy = s.busy := rfl
@[simp] theorem respond_done (s : State) (r : Response) : (respond s r).done = s.done := rfl
@[simp] theorem respond_err (s : State) (r : Response) : (respond s r).err = s.err := rfl
@[simp] theorem respond_wbusy (s : State) (r : Response) : (respond s r).wbusy = s.wbusy := rfl
@[simp] theorem respond_errCode (s : State) (r : Response) : (respond s r).errCode = s.errCode := rfl
@[simp] theorem respond_doneIe (s : State) (r : Response) : (respond s r).doneIe = s.doneIe := rfl
@[simp] theorem respond_srcAddr (s : State) (r : Response) : (respond s r).srcAddr = s.srcAddr := rfl
@[simp] theorem respond_srcLen (s : State) (r : Response) : (respond s r).srcLen = s.srcLen := rfl
@[simp] theorem respond_keyAddr (s : State) (r : Response) : (respond s r).keyAddr = s.keyAddr := rfl
@[simp] theorem respond_keyLen (s : State) (r : Response) : (respond s r).keyLen = s.keyLen := rfl
@[simp] theorem respond_dstAddr (s : State) (r : Response) : (respond s r).dstAddr = s.dstAddr := rfl
@[simp] theorem respond_resLen (s : State) (r : Response) : (respond s r).resLen = s.resLen := rfl
@[simp] theorem respond_cntLo (s : State) (r : Response) : (respond s r).cntLo = s.cntLo := rfl
@[simp] theorem respond_cntHi (s : State) (r : Response) : (respond s r).cntHi = s.cntHi := rfl
@[simp] theorem respond_hotpCode (s : State) (r : Response) : (respond s r).hotpCode = s.hotpCode := rfl
@[simp] theorem respond_hotpOff (s : State) (r : Response) : (respond s r).hotpOff = s.hotpOff := rfl
@[simp] theorem respond_hotpBin (s : State) (r : Response) : (respond s r).hotpBin = s.hotpBin := rfl
@[simp] theorem respond_aesKey (s : State) (r : Response) : (respond s r).aesKey = s.aesKey := rfl
@[simp] theorem respond_iv (s : State) (r : Response) : (respond s r).iv = s.iv := rfl
@[simp] theorem respond_tag (s : State) (r : Response) : (respond s r).tag = s.tag := rfl
@[simp] theorem respond_digest (s : State) (r : Response) : (respond s r).digest = s.digest := rfl
@[simp] theorem respond_kInt (s : State) (r : Response) : (respond s r).kInt = s.kInt := rfl
@[simp] theorem respond_keyValid (s : State) (r : Response) : (respond s r).keyValid = s.keyValid := rfl
@[simp] theorem respond_buf (s : State) (r : Response) : (respond s r).buf = s.buf := rfl
@[simp] theorem respond_events (s : State) (r : Response) : (respond s r).events = s.events := rfl
@[simp] theorem respond_response (s : State) (r : Response) : (respond s r).response = r := rfl
@[simp] theorem respond_draws (s : State) (r : Response) : (respond s r).draws = s.draws := rfl

@[simp] theorem pushEvent_cmd (s : State) (e : Event) : (pushEvent s e).cmd = s.cmd := rfl
@[simp] theorem pushEvent_busy (s : State) (e : Event) : (pushEvent s e).busy = s.busy := rfl
@[simp] theorem pushEvent_done (s : State) (e : Event) : (pushEvent s e).done = s.done := rfl
@[simp] theorem pushEvent_err (s : State) (e : Event) : (pushEvent s e).err = s.err := rfl
@[simp] theorem pushEvent_wbusy (s : State) (e : Event) : (pushEvent s e).wbusy = s.wbusy := rfl
@[simp] theorem pushEvent_errCode (s : State) (e : Event) : (pushEvent s e).errCode = s.errCode := rfl
@[simp] theorem pushEvent_doneIe (s : State) (e : Event) : (pushEvent s e).doneIe = s.doneIe := rfl
@[simp] theorem pushEvent_srcAddr (s : State) (e : Event) : (pushEvent s e).srcAddr = s.srcAddr := rfl
@[simp] theorem pushEvent_srcLen (s : State) (e : Event) : (pushEvent s e).srcLen = s.srcLen := rfl
@[simp] theorem pushEvent_keyAddr (s : State) (e : Event) : (pushEvent s e).keyAddr = s.keyAddr := rfl
@[simp] theorem pushEvent_keyLen (s : State) (e : Event) : (pushEvent s e).keyLen = s.keyLen := rfl
@[simp] theorem pushEvent_dstAddr (s : State) (e : Event) : (pushEvent s e).dstAddr = s.dstAddr := rfl
@[simp] theorem pushEvent_resLen (s : State) (e : Event) : (pushEvent s e).resLen = s.resLen := rfl
@[simp] theorem pushEvent_cntLo (s : State) (e : Event) : (pushEvent s e).cntLo = s.cntLo := rfl
@[simp] theorem pushEvent_cntHi (s : State) (e : Event) : (pushEvent s e).cntHi = s.cntHi := rfl
@[simp] theorem pushEvent_hotpCode (s : State) (e : Event) : (pushEvent s e).hotpCode = s.hotpCode := rfl
@[simp] theorem pushEvent_hotpOff (s : State) (e : Event) : (pushEvent s e).hotpOff = s.hotpOff := rfl
@[simp] theorem pushEvent_hotpBin (s : State) (e : Event) : (pushEvent s e).hotpBin = s.hotpBin := rfl
@[simp] theorem pushEvent_aesKey (s : State) (e : Event) : (pushEvent s e).aesKey = s.aesKey := rfl
@[simp] theorem pushEvent_iv (s : State) (e : Event) : (pushEvent s e).iv = s.iv := rfl
@[simp] theorem pushEvent_tag (s : State) (e : Event) : (pushEvent s e).tag = s.tag := rfl
@[simp] theorem pushEvent_digest (s : State) (e : Event) : (pushEvent s e).digest = s.digest := rfl
@[simp] theorem pushEvent_kInt (s : State) (e : Event) : (pushEvent s e).kInt = s.kInt := rfl
@[simp] theorem pushEvent_keyValid (s : State) (e : Event) : (pushEvent s e).keyValid = s.keyValid := rfl
@[simp] theorem pushEvent_buf (s : State) (e : Event) : (pushEvent s e).buf = s.buf := rfl
@[simp] theorem pushEvent_events (s : State) (e : Event) : (pushEvent s e).events = e :: s.events := rfl
@[simp] theorem pushEvent_response (s : State) (e : Event) : (pushEvent s e).response = s.response := rfl
@[simp] theorem pushEvent_draws (s : State) (e : Event) : (pushEvent s e).draws = s.draws := rfl

@[simp] theorem setWbusy_cmd (s : State) : (setWbusy s).cmd = s.cmd := rfl
@[simp] theorem setWbusy_busy (s : State) : (setWbusy s).busy = s.busy := rfl
@[simp] theorem setWbusy_done (s : State) : (setWbusy s).done = s.done := rfl
@[simp] theorem setWbusy_err (s : State) : (setWbusy s).err = s.err := rfl
@[simp] theorem setWbusy_wbusy (s : State) : (setWbusy s).wbusy = true := rfl
@[simp] theorem setWbusy_errCode (s : State) : (setWbusy s).errCode = s.errCode := rfl
@[simp] theorem setWbusy_doneIe (s : State) : (setWbusy s).doneIe = s.doneIe := rfl
@[simp] theorem setWbusy_srcAddr (s : State) : (setWbusy s).srcAddr = s.srcAddr := rfl
@[simp] theorem setWbusy_srcLen (s : State) : (setWbusy s).srcLen = s.srcLen := rfl
@[simp] theorem setWbusy_keyAddr (s : State) : (setWbusy s).keyAddr = s.keyAddr := rfl
@[simp] theorem setWbusy_keyLen (s : State) : (setWbusy s).keyLen = s.keyLen := rfl
@[simp] theorem setWbusy_dstAddr (s : State) : (setWbusy s).dstAddr = s.dstAddr := rfl
@[simp] theorem setWbusy_resLen (s : State) : (setWbusy s).resLen = s.resLen := rfl
@[simp] theorem setWbusy_cntLo (s : State) : (setWbusy s).cntLo = s.cntLo := rfl
@[simp] theorem setWbusy_cntHi (s : State) : (setWbusy s).cntHi = s.cntHi := rfl
@[simp] theorem setWbusy_hotpCode (s : State) : (setWbusy s).hotpCode = s.hotpCode := rfl
@[simp] theorem setWbusy_hotpOff (s : State) : (setWbusy s).hotpOff = s.hotpOff := rfl
@[simp] theorem setWbusy_hotpBin (s : State) : (setWbusy s).hotpBin = s.hotpBin := rfl
@[simp] theorem setWbusy_aesKey (s : State) : (setWbusy s).aesKey = s.aesKey := rfl
@[simp] theorem setWbusy_iv (s : State) : (setWbusy s).iv = s.iv := rfl
@[simp] theorem setWbusy_tag (s : State) : (setWbusy s).tag = s.tag := rfl
@[simp] theorem setWbusy_digest (s : State) : (setWbusy s).digest = s.digest := rfl
@[simp] theorem setWbusy_kInt (s : State) : (setWbusy s).kInt = s.kInt := rfl
@[simp] theorem setWbusy_keyValid (s : State) : (setWbusy s).keyValid = s.keyValid := rfl
@[simp] theorem setWbusy_buf (s : State) : (setWbusy s).buf = s.buf := rfl
@[simp] theorem setWbusy_events (s : State) : (setWbusy s).events = s.events := rfl
@[simp] theorem setWbusy_response (s : State) : (setWbusy s).response = s.response := rfl
@[simp] theorem setWbusy_draws (s : State) : (setWbusy s).draws = s.draws := rfl

@[simp] theorem writeStatus_cmd (s : State) (v : Word) : (writeStatus s v).cmd = s.cmd := rfl
@[simp] theorem writeStatus_busy (s : State) (v : Word) : (writeStatus s v).busy = s.busy := rfl
@[simp] theorem writeStatus_done (s : State) (v : Word) : (writeStatus s v).done = (s.done && !v.getLsbD 1) := rfl
@[simp] theorem writeStatus_err (s : State) (v : Word) : (writeStatus s v).err = s.err := rfl
@[simp] theorem writeStatus_wbusy (s : State) (v : Word) : (writeStatus s v).wbusy = (s.wbusy && !v.getLsbD 3) := rfl
@[simp] theorem writeStatus_errCode (s : State) (v : Word) : (writeStatus s v).errCode = s.errCode := rfl
@[simp] theorem writeStatus_doneIe (s : State) (v : Word) : (writeStatus s v).doneIe = s.doneIe := rfl
@[simp] theorem writeStatus_srcAddr (s : State) (v : Word) : (writeStatus s v).srcAddr = s.srcAddr := rfl
@[simp] theorem writeStatus_srcLen (s : State) (v : Word) : (writeStatus s v).srcLen = s.srcLen := rfl
@[simp] theorem writeStatus_keyAddr (s : State) (v : Word) : (writeStatus s v).keyAddr = s.keyAddr := rfl
@[simp] theorem writeStatus_keyLen (s : State) (v : Word) : (writeStatus s v).keyLen = s.keyLen := rfl
@[simp] theorem writeStatus_dstAddr (s : State) (v : Word) : (writeStatus s v).dstAddr = s.dstAddr := rfl
@[simp] theorem writeStatus_resLen (s : State) (v : Word) : (writeStatus s v).resLen = s.resLen := rfl
@[simp] theorem writeStatus_cntLo (s : State) (v : Word) : (writeStatus s v).cntLo = s.cntLo := rfl
@[simp] theorem writeStatus_cntHi (s : State) (v : Word) : (writeStatus s v).cntHi = s.cntHi := rfl
@[simp] theorem writeStatus_hotpCode (s : State) (v : Word) : (writeStatus s v).hotpCode = s.hotpCode := rfl
@[simp] theorem writeStatus_hotpOff (s : State) (v : Word) : (writeStatus s v).hotpOff = s.hotpOff := rfl
@[simp] theorem writeStatus_hotpBin (s : State) (v : Word) : (writeStatus s v).hotpBin = s.hotpBin := rfl
@[simp] theorem writeStatus_aesKey (s : State) (v : Word) : (writeStatus s v).aesKey = s.aesKey := rfl
@[simp] theorem writeStatus_iv (s : State) (v : Word) : (writeStatus s v).iv = s.iv := rfl
@[simp] theorem writeStatus_tag (s : State) (v : Word) : (writeStatus s v).tag = s.tag := rfl
@[simp] theorem writeStatus_digest (s : State) (v : Word) : (writeStatus s v).digest = s.digest := rfl
@[simp] theorem writeStatus_kInt (s : State) (v : Word) : (writeStatus s v).kInt = s.kInt := rfl
@[simp] theorem writeStatus_keyValid (s : State) (v : Word) : (writeStatus s v).keyValid = s.keyValid := rfl
@[simp] theorem writeStatus_buf (s : State) (v : Word) : (writeStatus s v).buf = s.buf := rfl
@[simp] theorem writeStatus_events (s : State) (v : Word) : (writeStatus s v).events = s.events := rfl
@[simp] theorem writeStatus_response (s : State) (v : Word) : (writeStatus s v).response = s.response := rfl
@[simp] theorem writeStatus_draws (s : State) (v : Word) : (writeStatus s v).draws = s.draws := rfl

@[simp] theorem writeIntEn_cmd (s : State) (v : Word) : (writeIntEn s v).cmd = s.cmd := rfl
@[simp] theorem writeIntEn_busy (s : State) (v : Word) : (writeIntEn s v).busy = s.busy := rfl
@[simp] theorem writeIntEn_done (s : State) (v : Word) : (writeIntEn s v).done = s.done := rfl
@[simp] theorem writeIntEn_err (s : State) (v : Word) : (writeIntEn s v).err = s.err := rfl
@[simp] theorem writeIntEn_wbusy (s : State) (v : Word) : (writeIntEn s v).wbusy = s.wbusy := rfl
@[simp] theorem writeIntEn_errCode (s : State) (v : Word) : (writeIntEn s v).errCode = s.errCode := rfl
@[simp] theorem writeIntEn_doneIe (s : State) (v : Word) : (writeIntEn s v).doneIe = v.getLsbD 0 := rfl
@[simp] theorem writeIntEn_srcAddr (s : State) (v : Word) : (writeIntEn s v).srcAddr = s.srcAddr := rfl
@[simp] theorem writeIntEn_srcLen (s : State) (v : Word) : (writeIntEn s v).srcLen = s.srcLen := rfl
@[simp] theorem writeIntEn_keyAddr (s : State) (v : Word) : (writeIntEn s v).keyAddr = s.keyAddr := rfl
@[simp] theorem writeIntEn_keyLen (s : State) (v : Word) : (writeIntEn s v).keyLen = s.keyLen := rfl
@[simp] theorem writeIntEn_dstAddr (s : State) (v : Word) : (writeIntEn s v).dstAddr = s.dstAddr := rfl
@[simp] theorem writeIntEn_resLen (s : State) (v : Word) : (writeIntEn s v).resLen = s.resLen := rfl
@[simp] theorem writeIntEn_cntLo (s : State) (v : Word) : (writeIntEn s v).cntLo = s.cntLo := rfl
@[simp] theorem writeIntEn_cntHi (s : State) (v : Word) : (writeIntEn s v).cntHi = s.cntHi := rfl
@[simp] theorem writeIntEn_hotpCode (s : State) (v : Word) : (writeIntEn s v).hotpCode = s.hotpCode := rfl
@[simp] theorem writeIntEn_hotpOff (s : State) (v : Word) : (writeIntEn s v).hotpOff = s.hotpOff := rfl
@[simp] theorem writeIntEn_hotpBin (s : State) (v : Word) : (writeIntEn s v).hotpBin = s.hotpBin := rfl
@[simp] theorem writeIntEn_aesKey (s : State) (v : Word) : (writeIntEn s v).aesKey = s.aesKey := rfl
@[simp] theorem writeIntEn_iv (s : State) (v : Word) : (writeIntEn s v).iv = s.iv := rfl
@[simp] theorem writeIntEn_tag (s : State) (v : Word) : (writeIntEn s v).tag = s.tag := rfl
@[simp] theorem writeIntEn_digest (s : State) (v : Word) : (writeIntEn s v).digest = s.digest := rfl
@[simp] theorem writeIntEn_kInt (s : State) (v : Word) : (writeIntEn s v).kInt = s.kInt := rfl
@[simp] theorem writeIntEn_keyValid (s : State) (v : Word) : (writeIntEn s v).keyValid = s.keyValid := rfl
@[simp] theorem writeIntEn_buf (s : State) (v : Word) : (writeIntEn s v).buf = s.buf := rfl
@[simp] theorem writeIntEn_events (s : State) (v : Word) : (writeIntEn s v).events = s.events := rfl
@[simp] theorem writeIntEn_response (s : State) (v : Word) : (writeIntEn s v).response = s.response := rfl
@[simp] theorem writeIntEn_draws (s : State) (v : Word) : (writeIntEn s v).draws = s.draws := rfl

@[simp] theorem resetEngine_cmd (s : State) : (resetEngine s).cmd = State.reset.cmd := rfl
@[simp] theorem resetEngine_busy (s : State) : (resetEngine s).busy = State.reset.busy := rfl
@[simp] theorem resetEngine_done (s : State) : (resetEngine s).done = State.reset.done := rfl
@[simp] theorem resetEngine_err (s : State) : (resetEngine s).err = State.reset.err := rfl
@[simp] theorem resetEngine_wbusy (s : State) : (resetEngine s).wbusy = State.reset.wbusy := rfl
@[simp] theorem resetEngine_errCode (s : State) : (resetEngine s).errCode = State.reset.errCode := rfl
@[simp] theorem resetEngine_doneIe (s : State) : (resetEngine s).doneIe = State.reset.doneIe := rfl
@[simp] theorem resetEngine_srcAddr (s : State) : (resetEngine s).srcAddr = State.reset.srcAddr := rfl
@[simp] theorem resetEngine_srcLen (s : State) : (resetEngine s).srcLen = State.reset.srcLen := rfl
@[simp] theorem resetEngine_keyAddr (s : State) : (resetEngine s).keyAddr = State.reset.keyAddr := rfl
@[simp] theorem resetEngine_keyLen (s : State) : (resetEngine s).keyLen = State.reset.keyLen := rfl
@[simp] theorem resetEngine_dstAddr (s : State) : (resetEngine s).dstAddr = State.reset.dstAddr := rfl
@[simp] theorem resetEngine_resLen (s : State) : (resetEngine s).resLen = State.reset.resLen := rfl
@[simp] theorem resetEngine_cntLo (s : State) : (resetEngine s).cntLo = State.reset.cntLo := rfl
@[simp] theorem resetEngine_cntHi (s : State) : (resetEngine s).cntHi = State.reset.cntHi := rfl
@[simp] theorem resetEngine_hotpCode (s : State) : (resetEngine s).hotpCode = State.reset.hotpCode := rfl
@[simp] theorem resetEngine_hotpOff (s : State) : (resetEngine s).hotpOff = State.reset.hotpOff := rfl
@[simp] theorem resetEngine_hotpBin (s : State) : (resetEngine s).hotpBin = State.reset.hotpBin := rfl
@[simp] theorem resetEngine_aesKey (s : State) : (resetEngine s).aesKey = State.reset.aesKey := rfl
@[simp] theorem resetEngine_iv (s : State) : (resetEngine s).iv = State.reset.iv := rfl
@[simp] theorem resetEngine_tag (s : State) : (resetEngine s).tag = State.reset.tag := rfl
@[simp] theorem resetEngine_digest (s : State) : (resetEngine s).digest = State.reset.digest := rfl
@[simp] theorem resetEngine_kInt (s : State) : (resetEngine s).kInt = State.reset.kInt := rfl
@[simp] theorem resetEngine_keyValid (s : State) : (resetEngine s).keyValid = State.reset.keyValid := rfl
@[simp] theorem resetEngine_buf (s : State) : (resetEngine s).buf = State.reset.buf := rfl
@[simp] theorem resetEngine_events (s : State) : (resetEngine s).events = s.events := rfl
@[simp] theorem resetEngine_response (s : State) : (resetEngine s).response = State.reset.response := rfl
@[simp] theorem resetEngine_draws (s : State) : (resetEngine s).draws = s.draws := rfl

end Sys2Proof.Machine
end

