-- ==== Sys2Proof/Laws/Ops.lean ====
section
/-! SUPPORT. What each shared operation and each command can do, said once. -/

namespace Sys2Proof.Machine

@[simp] theorem inBounds_iff (a n : Nat) : inBounds a n = true ↔ a + n ≤ Config.bufBytes := by
  simp [inBounds]

/-- The error codes are 1 to 7 (60_exceptions.md R211). -/
theorem errBits_range (e : ErrCode) : 1 ≤ (errBits e).toNat ∧ (errBits e).toNat ≤ 7 := by cases e <;> decide

/-- An engine step always completes: with the command's writes, or with its error. -/
theorem complete_cases (s t : State) (r : Except ErrCode State) (h : complete s r = .next t) :
    (∃ e, r = .error e ∧ t = failWith e s) ∨ ∃ u, r = .ok u ∧ t = succeed u := by
  cases r with
  | error e => exact .inl ⟨e, rfl, by simpa [complete] using h.symm⟩
  | ok u => exact .inr ⟨u, rfl, by simpa [complete] using h.symm⟩

theorem complete_ok {s t : State} {r : Except ErrCode State} (h : r = .ok t) : complete s r = .next (succeed t) := by
  subst h; rfl

theorem complete_error {s : State} {r : Except ErrCode State} {e : ErrCode} (h : r = .error e) :
    complete s r = .next (failWith e s) := by
  subst h; rfl

theorem complete_next (s : State) (r : Except ErrCode State) : ∃ t, complete s r = .next t := by
  cases r <;> exact ⟨_, rfl⟩

theorem performHmacSha1_ok_iff (s t : State) : performHmacSha1 s = .ok t ↔
    srcInBounds s = true ∧ keyInBounds s = true ∧ dstInBounds s 20 = true ∧
      t = writeDigest (writeResult s (hmacSha1 (keyBytes s) (srcBytes s))) (hmacSha1 (keyBytes s) (srcBytes s)) := by
  unfold performHmacSha1
  repeat' split
  all_goals first
    | simp_all; done
    | simp_all; exact eq_comm

theorem performHotp_ok_iff (d : BitVec 4) (s t : State) : performHotp d s = .ok t ↔
    d = 6 ∧ s.keyLen ≠ 0 ∧ keyInBounds s = true ∧ dstInBounds s 6 = true ∧
      t = writeDigest (writeCode s (hotpDigest s)) (hotpDigest s) := by
  unfold performHotp
  repeat' split
  all_goals first
    | simp_all; done
    | simp_all; exact eq_comm

theorem performHotpTrunc_ok_iff (d : BitVec 4) (s t : State) : performHotpTrunc d s = .ok t ↔
    d = 6 ∧ s.srcLen = 20 ∧ srcInBounds s = true ∧ dstInBounds s 6 = true ∧ t = writeCode s (srcBytes s) := by
  unfold performHotpTrunc
  repeat' split
  all_goals first
    | simp_all; done
    | simp_all; exact eq_comm

theorem performB32Enc_ok_iff (s t : State) : performB32Enc s = .ok t ↔
    srcInBounds s = true ∧ dstInBounds s (b32EncLen s.srcLen.toNat) = true ∧
      t = writeResult s (b32Encode (srcBytes s)) := by
  unfold performB32Enc
  repeat' split
  all_goals first
    | simp_all; done
    | simp_all; exact eq_comm

theorem performB32Dec_ok_iff (s t : State) : performB32Dec s = .ok t ↔
    srcInBounds s = true ∧ dstInBounds s (b32Decode (srcBytes s)).length = true ∧
      t = writeResult s (b32Decode (srcBytes s)) := by
  simp only [performB32Dec]
  repeat' split
  all_goals first
    | simp_all; done
    | simp_all; exact eq_comm

theorem performGcmEnc_ok_iff (s t : State) : performGcmEnc s = .ok t ↔
    s.keyValid = true ∧ srcInBounds s = true ∧ dstInBounds s s.srcLen.toNat = true ∧
      t = writeTag (writeResult s (gcmAE (kIntBytes s) (ivBytes s) (srcBytes s)).1)
        (gcmAE (kIntBytes s) (ivBytes s) (srcBytes s)).2 := by
  unfold performGcmEnc
  repeat' split
  all_goals first
    | simp_all; done
    | simp_all; exact eq_comm

theorem performGcmDec_ok_iff (s t : State) : performGcmDec s = .ok t ↔
    s.keyValid = true ∧ srcInBounds s = true ∧ dstInBounds s s.srcLen.toNat = true ∧
      ∃ p, gcmAD (kIntBytes s) (ivBytes s) (srcBytes s) (tagBytes s) = some p ∧ t = writeResult s p := by
  unfold performGcmDec
  repeat' split
  all_goals first
    | simp_all; done
    | simp_all; exact eq_comm

/-- The decrypted text is as long as the ciphertext. -/
theorem gcmAD_length (k iv c t p : List Byte) (hk : k.length = 32) (h : gcmAD k iv c t = some p) :
    p.length = c.length := by
  unfold gcmAD at h
  split at h
  · simp at h
  · rw [← Option.some.inj h, gctr_length _ _ _ hk]

/-- All that a successful command can write: the destination bytes, `RES_LEN` and result registers
(30_encoding.md R85, 60_exceptions.md R221). -/
structure CommandWrites (s u : State) (out : List Byte) : Prop where
  frame : u = { s with buf := u.buf, resLen := u.resLen, digest := u.digest, tag := u.tag,
                       hotpCode := u.hotpCode, hotpOff := u.hotpOff, hotpBin := u.hotpBin }
  buf : u.buf = memWrite s.buf s.dstAddr.toNat out
  bounds : s.dstAddr.toNat + out.length ≤ Config.bufBytes
  resLen : u.resLen = BitVec.ofNat 32 out.length
  hotp : (u.hotpCode = s.hotpCode ∧ u.hotpOff = s.hotpOff ∧ u.hotpBin = s.hotpBin) ∨
    ∃ d, u.hotpCode = BitVec.ofNat 32 (hotpCodeOf d) ∧ u.hotpOff = BitVec.ofNat 32 (hotpOffset d) ∧
      u.hotpBin = hotpBinary d

theorem commandWrites_writeResult (s : State) (out : List Byte) (h : dstInBounds s out.length = true) :
    CommandWrites s (writeResult s out) out where
  frame := by apply State.ext <;> simp
  buf := by simp
  bounds := by simpa [dstInBounds] using h
  resLen := by simp
  hotp := by simp

theorem commandWrites_writeDigest {s u : State} {out : List Byte} (h : CommandWrites s u out) (d : List Byte) :
    CommandWrites s (writeDigest u d) out where
  frame := by apply State.ext <;> simp <;> rw [h.frame]
  buf := by simpa using h.buf
  bounds := h.bounds
  resLen := by simpa using h.resLen
  hotp := by simpa using h.hotp

theorem commandWrites_writeTag {s u : State} {out : List Byte} (h : CommandWrites s u out) (t : List Byte) :
    CommandWrites s (writeTag u t) out where
  frame := by apply State.ext <;> simp <;> rw [h.frame]
  buf := by simpa using h.buf
  bounds := h.bounds
  resLen := by simpa using h.resLen
  hotp := by simpa using h.hotp

/-- The writes of a HOTP command from a digest. -/
theorem commandWrites_writeCode (s : State) (d : List Byte) (h : dstInBounds s 6 = true) :
    CommandWrites s (writeCode s d) (digits6 (hotpCodeOf d)) where
  frame := by apply State.ext <;> simp [writeCode]
  buf := by simp [writeCode]
  bounds := by simpa [dstInBounds] using h
  resLen := by simp [writeCode]
  hotp := .inr ⟨d, by simp [writeCode], by simp [writeCode], by simp [writeCode]⟩

theorem commandWrites_hmacSha1 {s u : State} (h : performHmacSha1 s = .ok u) : ∃ out, CommandWrites s u out := by
  obtain ⟨-, -, hd, rfl⟩ := (performHmacSha1_ok_iff s u).1 h
  exact ⟨_, commandWrites_writeDigest (commandWrites_writeResult s _ (by simpa using hd)) _⟩

theorem commandWrites_hotp {d : BitVec 4} {s u : State} (h : performHotp d s = .ok u) :
    ∃ out, CommandWrites s u out := by
  obtain ⟨-, -, -, hd, rfl⟩ := (performHotp_ok_iff d s u).1 h
  exact ⟨_, commandWrites_writeDigest (commandWrites_writeCode s _ hd) _⟩

theorem commandWrites_hotpTrunc {d : BitVec 4} {s u : State} (h : performHotpTrunc d s = .ok u) :
    ∃ out, CommandWrites s u out := by
  obtain ⟨-, -, -, hd, rfl⟩ := (performHotpTrunc_ok_iff d s u).1 h
  exact ⟨_, commandWrites_writeCode s _ hd⟩

theorem commandWrites_b32Enc {s u : State} (h : performB32Enc s = .ok u) : ∃ out, CommandWrites s u out := by
  obtain ⟨-, hd, rfl⟩ := (performB32Enc_ok_iff s u).1 h
  exact ⟨_, commandWrites_writeResult s _ (by simpa using hd)⟩

theorem commandWrites_b32Dec {s u : State} (h : performB32Dec s = .ok u) : ∃ out, CommandWrites s u out := by
  obtain ⟨-, hd, rfl⟩ := (performB32Dec_ok_iff s u).1 h
  exact ⟨_, commandWrites_writeResult s _ hd⟩

theorem commandWrites_gcmEnc {s u : State} (h : performGcmEnc s = .ok u) : ∃ out, CommandWrites s u out := by
  obtain ⟨-, -, hd, rfl⟩ := (performGcmEnc_ok_iff s u).1 h
  refine ⟨_, commandWrites_writeTag (commandWrites_writeResult s _ ?_) _⟩
  simpa [gcmAE, gctr_length _ _ _ (kIntBytes_length s)] using hd

theorem commandWrites_gcmDec {s u : State} (h : performGcmDec s = .ok u) : ∃ out, CommandWrites s u out := by
  obtain ⟨-, -, hd, p, hp, rfl⟩ := (performGcmDec_ok_iff s u).1 h
  refine ⟨p, commandWrites_writeResult s p ?_⟩
  rw [gcmAD_length _ _ _ _ _ (kIntBytes_length s) hp]
  simpa using hd

/-- Everything an engine step on a command can answer. -/
theorem exec_command_cases {i : Instr} {s t : State} (hi : portOf i = .cmd) (h : exec i s = .next t) :
    (∃ e, t = failWith e s) ∨ ∃ u out, CommandWrites s u out ∧ t = succeed u := by
  cases i with
  | hmacSha1 =>
    rcases complete_cases _ _ _ h with ⟨e, -, rfl⟩ | ⟨u, hu, rfl⟩
    · exact .inl ⟨e, rfl⟩
    · obtain ⟨out, ho⟩ := commandWrites_hmacSha1 hu; exact .inr ⟨u, out, ho, rfl⟩
  | hotp d =>
    rcases complete_cases _ _ _ h with ⟨e, -, rfl⟩ | ⟨u, hu, rfl⟩
    · exact .inl ⟨e, rfl⟩
    · obtain ⟨out, ho⟩ := commandWrites_hotp hu; exact .inr ⟨u, out, ho, rfl⟩
  | hotpTrunc d =>
    rcases complete_cases _ _ _ h with ⟨e, -, rfl⟩ | ⟨u, hu, rfl⟩
    · exact .inl ⟨e, rfl⟩
    · obtain ⟨out, ho⟩ := commandWrites_hotpTrunc hu; exact .inr ⟨u, out, ho, rfl⟩
  | b32Enc =>
    rcases complete_cases _ _ _ h with ⟨e, -, rfl⟩ | ⟨u, hu, rfl⟩
    · exact .inl ⟨e, rfl⟩
    · obtain ⟨out, ho⟩ := commandWrites_b32Enc hu; exact .inr ⟨u, out, ho, rfl⟩
  | b32Dec =>
    rcases complete_cases _ _ _ h with ⟨e, -, rfl⟩ | ⟨u, hu, rfl⟩
    · exact .inl ⟨e, rfl⟩
    · obtain ⟨out, ho⟩ := commandWrites_b32Dec hu; exact .inr ⟨u, out, ho, rfl⟩
  | gcmEnc =>
    rcases complete_cases _ _ _ h with ⟨e, -, rfl⟩ | ⟨u, hu, rfl⟩
    · exact .inl ⟨e, rfl⟩
    · obtain ⟨out, ho⟩ := commandWrites_gcmEnc hu; exact .inr ⟨u, out, ho, rfl⟩
  | gcmDec =>
    rcases complete_cases _ _ _ h with ⟨e, -, rfl⟩ | ⟨u, hu, rfl⟩
    · exact .inl ⟨e, rfl⟩
    · obtain ⟨out, ho⟩ := commandWrites_gcmDec hu; exact .inr ⟨u, out, ho, rfl⟩
  | keyLoad => cases hi
  | keyClear => cases hi

/-- Everything a `KEYCTL` action can answer. -/
theorem exec_keyctl_cases {i : Instr} {s t : State} (hi : portOf i = .keyctl) (h : exec i s = .next t) :
    (s.busy = true ∧ t = setWbusy s) ∨ (s.busy = false ∧ i = .keyLoad ∧ t = loadKey s) ∨
      (s.busy = false ∧ i = .keyClear ∧ t = clearKey s) := by
  cases i with
  | keyLoad => cases hb : s.busy <;> simp_all [exec, execKeyLoad]
  | keyClear => cases hb : s.busy <;> simp_all [exec, execKeyClear]
  | hmacSha1 => cases hi
  | hotp d => cases hi
  | hotpTrunc d => cases hi
  | b32Enc => cases hi
  | b32Dec => cases hi
  | gcmEnc => cases hi
  | gcmDec => cases hi

theorem exec_keyLoad_idle {s : State} (h : s.busy = false) : exec .keyLoad s = .next (loadKey s) := by
  simp only [exec, execKeyLoad, h]; rfl

theorem exec_keyClear_idle {s : State} (h : s.busy = false) : exec .keyClear s = .next (clearKey s) := by
  simp only [exec, execKeyClear, h]; rfl

theorem exec_keyctl_busy {i : Instr} {s : State} (hi : portOf i = .keyctl) (h : s.busy = true) :
    exec i s = .next (setWbusy s) := by
  cases i with
  | keyLoad => simp only [exec, execKeyLoad, h, if_true]
  | keyClear => simp only [exec, execKeyClear, h, if_true]
  | hmacSha1 => cases hi
  | hotp d => cases hi
  | hotpTrunc d => cases hi
  | b32Enc => cases hi
  | b32Dec => cases hi
  | gcmEnc => cases hi
  | gcmDec => cases hi

/-- Every instruction answers a next state in every state. -/
theorem exec_next (i : Instr) (s : State) : ∃ t, exec i s = .next t := by
  cases i with
  | hmacSha1 => exact complete_next _ _
  | hotp d => exact complete_next _ _
  | hotpTrunc d => exact complete_next _ _
  | b32Enc => exact complete_next _ _
  | b32Dec => exact complete_next _ _
  | gcmEnc => exact complete_next _ _
  | gcmDec => exact complete_next _ _
  | keyLoad => cases hb : s.busy <;> simp [exec, execKeyLoad, hb]
  | keyClear => cases hb : s.busy <;> simp [exec, execKeyClear, hb]

end Sys2Proof.Machine
end

