-- ==== Sys2Proof/Laws/Step.lean ====
section
/-! SUPPORT. Everything one step can do, said once. -/

namespace Sys2Proof.Machine

/-- An engine step fails with an error or makes a command's writes, and completes either way. -/
theorem engineStep_cases {s t : State} (h : engineStep s = .next t) :
    (∃ e, t = failWith e s) ∨ ∃ u out, CommandWrites s u out ∧ t = succeed u := by
  unfold engineStep at h
  split at h
  · rename_i i hi
    exact exec_command_cases (portOf_decodeCmd hi) h
  · rename_i e he
    exact .inl ⟨e, by simpa using h.symm⟩

/-- What every engine step does, whatever the word (60_exceptions.md R220). -/
theorem engineStep_frame {s t : State} (h : engineStep s = .next t) :
    t.events = s.events ∧ t.busy = false ∧ t.done = true ∧ t.cmd = s.cmd ∧ t.wbusy = s.wbusy ∧
      (t.err = false → t.errCode = 0) ∧ (t.err = true → t.resLen = 0) ∧ t.doneIe = s.doneIe := by
  rcases engineStep_cases h with ⟨e, rfl⟩ | ⟨u, out, hu, rfl⟩
  · simp
  · have := hu.frame
    refine ⟨?_, rfl, rfl, ?_, ?_, fun _ => rfl, by simp, ?_⟩ <;> simp <;> rw [this]

/-- An engine step always answers a next state. -/
theorem engineStep_next (s : State) : ∃ t, engineStep s = .next t := by
  unfold engineStep
  split
  · exact exec_next _ _
  · exact ⟨_, rfl⟩

/-- The action of a host access is a `KEYCTL` write. -/
theorem busAction_some {a : Access} {i : Instr} (h : busAction a = some i) :
    ∃ o n v, a = .write o n v ∧ locate o = .keyctl ∧ decodeKeyctl v = some i := by
  cases a with
  | read o n => simp [busAction] at h
  | write o n v =>
    simp only [busAction] at h
    split at h
    · exact ⟨o, n, v, rfl, ‹_›, h⟩
    · simp at h

/-- A legal host access always answers a next state. -/
theorem hostStep_next (a : Access) (s : State) : ∃ t, hostStep a s = .next t := by
  unfold hostStep
  split
  · exact exec_next _ _
  · exact ⟨_, rfl⟩

/-- Who moved, of a step that answers a next state. -/
inductive Moved (s t : State) : Prop where
  | engine (u : State) (ht : turn s = .engineStep u) (hb : s.busy = true) (hu : u = s ∨ u = popEvent s)
      (h : engineStep u = .next t)
      (hr : ∀ rest, s.events ≠ .reset :: rest)
      (hw : ∀ a rest, s.events = .access a :: rest → inWindow a = true ∧ legalAccess a = false)
  | reset (rest : List Event) (he : s.events = .reset :: rest) (h : t = resetEngine (popEvent s))
  | action (a : Access) (rest : List Event) (i : Instr) (he : s.events = .access a :: rest)
      (hw : inWindow a = true) (hl : legalAccess a = true) (hi : busAction a = some i)
      (h : exec i (respond (popEvent s) .written) = .next t)
  | access (a : Access) (rest : List Event) (he : s.events = .access a :: rest)
      (hw : inWindow a = true) (hl : legalAccess a = true) (hi : busAction a = none)
      (h : t = hostAccess (popEvent s) a)
  | outside (a : Access) (rest : List Event) (he : s.events = .access a :: rest)
      (hw : inWindow a = false) (h : t = respond (popEvent s) .undecoded)
  | idle (hb : s.busy = false) (h : t = s ∨ t = popEvent s)
      (he : s.events = [] ∨ ∃ rest, s.events = .engine :: rest)

/-- The one inversion of `step`. -/
theorem step_cases {s t : State} (h : step s = .next t) : Moved s t := by
  unfold step turn at h
  cases he : s.events with
  | nil =>
    cases hb : s.busy
    · simp [he, hb] at h
      exact .idle hb (.inl h.symm) (.inl he)
    · simp [he, hb] at h
      exact .engine s (by simp [turn, he, hb]) hb (.inl rfl) h (by simp [he]) (by simp [he])
  | cons e rest =>
    cases e with
    | engine =>
      cases hb : s.busy
      · simp [he, hb] at h
        exact .idle hb (.inr h.symm) (.inr ⟨rest, he⟩)
      · simp [he, hb] at h
        exact .engine _ (by simp [turn, he, hb]) hb (.inr rfl) h (by simp [he]) (by simp [he])
    | reset =>
      simp [he] at h
      exact .reset rest he h.symm
    | access a =>
      simp only [he, accessTurn] at h
      cases hw : inWindow a
      · simp [hw] at h
        exact .outside a rest he hw h.symm
      · cases hl : legalAccess a
        · cases hb : s.busy
          · simp [hw, hl, hb] at h
          · simp [hw, hl, hb] at h
            refine .engine s (by simp [turn, he, accessTurn, hw, hl, hb]) hb (.inl rfl) h (by simp [he]) fun a' r' h' => ?_
            rw [he] at h'
            obtain ⟨h1, -⟩ := List.cons.inj h'
            obtain rfl := Event.access.inj h1
            exact ⟨hw, hl⟩
        · simp only [hw, hl, hostStep] at h
          cases hi : busAction a with
          | none =>
            simp [hi] at h
            exact .access a rest he hw hl hi h.symm
          | some i =>
            simp [hi] at h
            exact .action a rest i he hw hl hi h

/-- A step stops only at a host access that is a bus error, with no command pending. -/
theorem step_stops {s : State} (h : ∀ t, step s ≠ .next t) :
    ∃ a rest, s.events = .access a :: rest ∧ inWindow a = true ∧ legalAccess a = false ∧ s.busy = false ∧
      step s = .fault (.busError a) := by
  unfold step turn at h ⊢
  cases he : s.events with
  | nil =>
    cases hb : s.busy
    · exact absurd (by simp [he, hb]) (h s)
    · obtain ⟨t, ht⟩ := engineStep_next s
      exact absurd (by simp [he, hb, ht]) (h t)
  | cons e rest =>
    cases e with
    | engine =>
      cases hb : s.busy
      · exact absurd (by simp [he, hb]) (h (popEvent s))
      · obtain ⟨t, ht⟩ := engineStep_next (popEvent s)
        exact absurd (by simp [he, hb, ht]) (h t)
    | reset => exact absurd (by simp [he]) (h (resetEngine (popEvent s)))
    | access a =>
      simp only [he, accessTurn] at h ⊢
      cases hw : inWindow a
      · exact absurd (by simp [hw]) (h (respond (popEvent s) .undecoded))
      · cases hl : legalAccess a
        · cases hb : s.busy
          · exact ⟨a, rest, rfl, hw, hl, rfl, by simp⟩
          · obtain ⟨t, ht⟩ := engineStep_next s
            exact absurd (by simp [hw, hl, hb, ht]) (h t)
        · obtain ⟨t, ht⟩ := hostStep_next a (popEvent s)
          exact absurd (by simp [hw, hl, ht]) (h t)

end Sys2Proof.Machine
end

