-- ==== Sys2Proof/Laws/Bus.lean ====
section
/-! SUPPORT. The register map in numbers, and what a step does at a host access. -/

namespace Sys2Proof.Machine

theorem locate_buf {o : Nat} (h : 0x1000 ≤ o) : locate o = .buf (o - 0x1000) := by
  simp [locate, Config.bufOffset, Nat.not_lt.2 h]

theorem ite_ne_buf {c : Prop} [Decidable c] {x y : Loc} {a : Nat} (hx : x ≠ .buf a) (hy : y ≠ .buf a) :
    (if c then x else y) ≠ .buf a := by
  split <;> assumption

theorem registerAt_ne_buf (o a : Nat) : registerAt o ≠ .buf a := by
  unfold registerAt
  iterate 21 refine ite_ne_buf (fun h => nomatch h) ?_
  exact fun h => nomatch h

theorem locate_eq_buf {o a : Nat} (h : locate o = .buf a) : 0x1000 ≤ o ∧ a = o - 0x1000 := by
  rcases Nat.lt_or_ge o 0x1000 with hl | hl
  · simp only [locate, Config.bufOffset, hl, if_true] at h
    exact absurd h (registerAt_ne_buf o a)
  · rw [locate_buf hl] at h
    exact ⟨hl, (Loc.buf.inj h).symm⟩

/-- A claim about every aligned register offset, by the quotient and remainder of its word by 32. -/
theorem offset_induction {P : Nat → Prop} (h : ∀ a < 32, ∀ b < 32, P (4 * (32 * a + b))) (o : Nat)
    (ho : o < 0x1000) (ha : o % 4 = 0) : P o := by
  have := h (o / 4 / 32) (by omega) (o / 4 % 32) (by omega)
  rwa [Nat.div_add_mod, Nat.mul_div_cancel' (Nat.dvd_of_mod_eq_zero ha)] at this

theorem locate_cmd_iff (o : Nat) (ha : o % 4 = 0) : locate o = .cmd ↔ o = 0x004 := by
  rcases Nat.lt_or_ge o 0x1000 with h | h
  · exact offset_induction (P := fun o => locate o = .cmd ↔ o = 0x004) (by decide +kernel) o h ha
  · simp [locate_buf h]; omega

theorem locate_status_iff (o : Nat) (ha : o % 4 = 0) : locate o = .status ↔ o = 0x008 := by
  rcases Nat.lt_or_ge o 0x1000 with h | h
  · exact offset_induction (P := fun o => locate o = .status ↔ o = 0x008) (by decide +kernel) o h ha
  · simp [locate_buf h]; omega

theorem locate_intEn_iff (o : Nat) (ha : o % 4 = 0) : locate o = .intEn ↔ o = 0x00C := by
  rcases Nat.lt_or_ge o 0x1000 with h | h
  · exact offset_induction (P := fun o => locate o = .intEn ↔ o = 0x00C) (by decide +kernel) o h ha
  · simp [locate_buf h]; omega

theorem locate_keyctl_iff (o : Nat) (ha : o % 4 = 0) : locate o = .keyctl ↔ o = 0x03C := by
  rcases Nat.lt_or_ge o 0x1000 with h | h
  · exact offset_induction (P := fun o => locate o = .keyctl ↔ o = 0x03C) (by decide +kernel) o h ha
  · simp [locate_buf h]; omega

theorem locate_aesKey (i : Fin 8) : locate (0x040 + 4 * i.val) = .aesKey i := by revert i; decide

theorem locate_iv (i : Fin 3) : locate (0x060 + 4 * i.val) = .iv i := by revert i; decide

theorem locate_tag (i : Fin 4) : locate (0x070 + 4 * i.val) = .tag i := by revert i; decide

theorem locate_digest (i : Fin 5) : locate (0x080 + 4 * i.val) = .digest i := by revert i; decide

theorem locate_reserved {o : Nat} (h : o % 4 = 0) (h2 : o = 0x06C ∨ (0x094 ≤ o ∧ o ≤ 0xFFC)) :
    locate o = .reserved :=
  offset_induction (P := fun o => (o = 0x06C ∨ (0x094 ≤ o ∧ o ≤ 0xFFC)) → locate o = .reserved)
    (by decide +kernel) o (by omega) h h2

/-- The busy-blocked locations by offset (10_state.md R23, R47). -/
theorem busyBlocked_locate_iff {o : Nat} (h : o % 4 = 0) : busyBlocked (locate o) = true ↔
    (o = 0x004 ∨ (0x010 ≤ o ∧ o ≤ 0x020) ∨ (0x028 ≤ o ∧ o ≤ 0x02C) ∨ o = 0x03C ∨ (0x040 ≤ o ∧ o ≤ 0x05C) ∨
      (0x060 ≤ o ∧ o ≤ 0x068) ∨ (0x070 ≤ o ∧ o ≤ 0x07C) ∨ 0x1000 ≤ o) := by
  rcases Nat.lt_or_ge o 0x1000 with hl | hl
  · have := offset_induction (P := fun o => busyBlocked (locate o) =
      (o == 0x004 || (Nat.ble 0x010 o && Nat.ble o 0x020) || (Nat.ble 0x028 o && Nat.ble o 0x02C) || o == 0x03C ||
        (Nat.ble 0x040 o && Nat.ble o 0x05C) || (Nat.ble 0x060 o && Nat.ble o 0x068) ||
        (Nat.ble 0x070 o && Nat.ble o 0x07C))) (by decide +kernel) o hl h
    rw [this]
    simp
    omega
  · simp [locate_buf hl, busyBlocked, hl]

/-- The result locations by offset (10_state.md R48). -/
theorem resultLoc_locate_iff {o : Nat} (h : o % 4 = 0) : resultLoc (locate o) = true ↔
    (o = 0x024 ∨ (0x030 ≤ o ∧ o ≤ 0x038) ∨ (0x070 ≤ o ∧ o ≤ 0x07C) ∨ (0x080 ≤ o ∧ o ≤ 0x090) ∨ 0x1000 ≤ o) := by
  rcases Nat.lt_or_ge o 0x1000 with hl | hl
  · have := offset_induction (P := fun o => resultLoc (locate o) =
      (o == 0x024 || (Nat.ble 0x030 o && Nat.ble o 0x038) || (Nat.ble 0x070 o && Nat.ble o 0x07C) ||
        (Nat.ble 0x080 o && Nat.ble o 0x090))) (by decide +kernel) o hl h
    rw [this]
    simp
    omega
  · simp [locate_buf hl, resultLoc, hl]

theorem popEvent_of_events {s : State} {e : Event} {rest : List Event} (h : s.events = e :: rest) :
    popEvent s = { s with events := rest } := by simp [popEvent, h]

/-- A step at a legal host read. -/
theorem step_read {s : State} {o : Nat} {rest : List Event} (h : s.events = .access (.read o 32) :: rest)
    (ha : o % 4 = 0) (hw : o < 0x2000) : step s = .next (hostRead { s with events := rest } (locate o)) := by
  simp [step, turn, h, accessTurn, inWindow, legalAccess, accessOffset, accessWidth, Config.windowBytes,
    Config.busWidth, ha, hw, hostStep, busAction, hostAccess, popEvent]

/-- A step at a legal host write that is no `KEYCTL` action. -/
theorem step_write {s : State} {o : Nat} {v : Word} {rest : List Event}
    (h : s.events = .access (.write o 32 v) :: rest) (ha : o % 4 = 0) (hw : o < 0x2000)
    (hk : o = 0x03C → decodeKeyctl v = none) :
    step s = .next (hostWrite { s with events := rest } (locate o) v) := by
  have hb : busAction (.write o 32 v) = none := by
    simp only [busAction, locate_keyctl_iff o ha]
    split
    · exact hk ‹_›
    · rfl
  simp [step, turn, h, accessTurn, inWindow, legalAccess, accessOffset, accessWidth, Config.windowBytes,
    Config.busWidth, ha, hw, hostStep, hb, hostAccess, popEvent]

/-- A step at a host write that is a `KEYCTL` action. -/
theorem step_keyctl {s : State} {v : Word} {i : Instr} {rest : List Event}
    (h : s.events = .access (.write 0x03C 32 v) :: rest) (hi : decodeKeyctl v = some i) :
    step s = exec i { s with events := rest, response := .written } := by
  have hb : busAction (.write 0x03C 32 v) = some i := by
    simp [busAction, (locate_keyctl_iff 0x03C rfl).2 rfl, hi]
  simp [step, turn, h, accessTurn, inWindow, legalAccess, accessOffset, accessWidth, Config.windowBytes,
    Config.busWidth, hostStep, hb, popEvent, respond]

/-- Host reads of anything but a result location while busy return the defined value. -/
theorem hostRead_defined {s : State} {l : Loc} (h : (s.busy && resultLoc l) = false) :
    hostRead s l = { s with response := .data (locValue s l) } := by
  simp only [hostRead, h, respond]; rfl

theorem hostRead_draw {s : State} {l : Loc} (h : (s.busy && resultLoc l) = true) :
    hostRead s l = { s with response := .data (Config.draw s.draws), draws := s.draws + 1 } := by
  simp only [hostRead, h, respond, if_true]

theorem hostWrite_blocked {s : State} {l : Loc} {v : Word} (h : (s.busy && busyBlocked l) = true) :
    hostWrite s l v = { s with wbusy := true, response := .written } := by
  simp only [hostWrite, h, if_true, setWbusy, respond]

theorem hostWrite_accepted {s : State} {l : Loc} {v : Word} (h : (s.busy && busyBlocked l) = false) :
    hostWrite s l v = storeLoc { s with response := .written } v l := by
  simp only [hostWrite, h, respond]; rfl

/-- A host read changes its answer and the count of draws alone (20_memory.md R69). -/
theorem hostRead_frame (s : State) (l : Loc) :
    hostRead s l = { s with response := (hostRead s l).response, draws := (hostRead s l).draws } := by
  unfold hostRead
  split <;> rfl

/-- What a host write can do, by its location: blocked, a command's start, a STATUS or INT_EN write, an
operand register's or buffer word's new value, or nothing. -/
inductive Wrote (s t : State) (l : Loc) (v : Word) : Prop where
  | blocked (hb : s.busy = true) (hl : busyBlocked l = true)
      (h : t = { s with wbusy := true, response := .written })
  | start (hb : s.busy = false) (hl : l = .cmd) (h : t = startCommand { s with response := .written } v)
  | status (hl : l = .status) (h : t = writeStatus { s with response := .written } v)
  | intEn (hl : l = .intEn) (h : t = writeIntEn { s with response := .written } v)
  | operand (hb : s.busy = false)
      (h : t = { s with
        srcAddr := t.srcAddr, srcLen := t.srcLen, keyAddr := t.keyAddr, keyLen := t.keyLen, dstAddr := t.dstAddr,
        cntLo := t.cntLo, cntHi := t.cntHi, aesKey := t.aesKey, iv := t.iv, tag := t.tag, buf := t.buf,
        response := .written })
      (hbuf : t.buf = s.buf ∨ ∃ a, l = .buf a ∧ t.buf = memWrite s.buf a (leBytes 4 v.toNat))
  | ignored (h : t = { s with response := .written })

theorem hostWrite_cases (s : State) (l : Loc) (v : Word) : Wrote s (hostWrite s l v) l v := by
  cases hc : (s.busy && busyBlocked l) with
  | true =>
    have h2 := Bool.and_eq_true_iff.1 hc
    exact .blocked h2.1 h2.2 (hostWrite_blocked hc)
  | false =>
    rw [hostWrite_accepted hc]
    have hidle : busyBlocked l = true → s.busy = false := by
      intro h; simpa [h] using hc
    cases l with
    | cmd => exact .start (hidle rfl) rfl rfl
    | status => exact .status rfl rfl
    | intEn => exact .intEn rfl rfl
    | id => exact .ignored rfl
    | resLen => exact .ignored rfl
    | hotpCode => exact .ignored rfl
    | hotpOff => exact .ignored rfl
    | hotpBin => exact .ignored rfl
    | keyctl => exact .ignored rfl
    | digest i => exact .ignored rfl
    | reserved => exact .ignored rfl
    | srcAddr => exact .operand (hidle rfl) rfl (.inl rfl)
    | srcLen => exact .operand (hidle rfl) rfl (.inl rfl)
    | keyAddr => exact .operand (hidle rfl) rfl (.inl rfl)
    | keyLen => exact .operand (hidle rfl) rfl (.inl rfl)
    | dstAddr => exact .operand (hidle rfl) rfl (.inl rfl)
    | cntLo => exact .operand (hidle rfl) rfl (.inl rfl)
    | cntHi => exact .operand (hidle rfl) rfl (.inl rfl)
    | aesKey i => exact .operand (hidle rfl) rfl (.inl rfl)
    | iv i => exact .operand (hidle rfl) rfl (.inl rfl)
    | tag i => exact .operand (hidle rfl) rfl (.inl rfl)
    | buf a => exact .operand (hidle rfl) rfl (.inr ⟨a, rfl, rfl⟩)

end Sys2Proof.Machine
end

