-- ==== Sys2Proof/Laws/PerInstr.lean ====
section
/-! SUPPORT. What holds of every instruction as syntax, one lemma a constructor. -/

namespace Sys2Proof.Laws

/-- The decoder of an instruction's port reads a well-formed instruction back from its word. -/
def EncodeDecode.Statement (i : Instr) : Prop :=
  i.wellFormed = true → decode (portOf i) (encode i) = .ok i

theorem EncodeDecode.hmacSha1 : EncodeDecode.Statement .hmacSha1 := fun _ => by decide

theorem EncodeDecode.hotp (digits : BitVec 4) : EncodeDecode.Statement (.hotp digits) := fun h => by
  obtain rfl : digits = 6 := by simpa [Instr.wellFormed] using h
  decide

theorem EncodeDecode.hotpTrunc (digits : BitVec 4) : EncodeDecode.Statement (.hotpTrunc digits) := fun h => by
  obtain rfl : digits = 6 := by simpa [Instr.wellFormed] using h
  decide

theorem EncodeDecode.b32Enc : EncodeDecode.Statement .b32Enc := fun _ => by decide

theorem EncodeDecode.b32Dec : EncodeDecode.Statement .b32Dec := fun _ => by decide

theorem EncodeDecode.gcmEnc : EncodeDecode.Statement .gcmEnc := fun _ => by decide

theorem EncodeDecode.gcmDec : EncodeDecode.Statement .gcmDec := fun _ => by decide

theorem EncodeDecode.keyLoad : EncodeDecode.Statement .keyLoad := fun _ => by decide

theorem EncodeDecode.keyClear : EncodeDecode.Statement .keyClear := fun _ => by decide

end Sys2Proof.Laws
end

