-- ==== Sys2Proof/Laws/Status.lean ====
section
/-! SUPPORT. Everything one step can do to STATUS and INT_EN, said once. -/

namespace Sys2Proof.Machine

/-- The STATUS fields and the interrupt enable are as before. -/
abbrev SameStatus (s t : State) : Prop :=
  t.busy = s.busy ∧ t.done = s.done ∧ t.err = s.err ∧ t.errCode = s.errCode ∧ t.wbusy = s.wbusy ∧ t.doneIe = s.doneIe

/-- How a step moves STATUS and INT_EN. -/
inductive StatusMove (s t : State) : Prop where
  | same (h : SameStatus s t)
  | engine (ht : ∃ u, turn s = .engineStep u) (hb : s.busy = true) (h1 : t.busy = false) (h2 : t.done = true) (h3 : t.wbusy = s.wbusy)
      (h4 : t.doneIe = s.doneIe)
  | reset (rest : List Event) (he : s.events = .reset :: rest) (h : SameStatus State.reset t)
  | start (v : Word) (rest : List Event) (he : s.events = .access (.write 0x004 32 v) :: rest) (hb : s.busy = false)
      (h1 : t.busy = true) (h2 : t.done = false) (h3 : t.err = false) (h4 : t.errCode = 0) (h5 : t.wbusy = s.wbusy)
      (h6 : t.doneIe = s.doneIe) (h7 : t.cmd = v)
  | status (v : Word) (rest : List Event) (he : s.events = .access (.write 0x008 32 v) :: rest)
      (h1 : t.done = (s.done && !v.getLsbD 1)) (h2 : t.wbusy = (s.wbusy && !v.getLsbD 3)) (h3 : t.busy = s.busy)
      (h4 : t.err = s.err) (h5 : t.errCode = s.errCode) (h6 : t.doneIe = s.doneIe)
  | intEn (v : Word) (rest : List Event) (he : s.events = .access (.write 0x00C 32 v) :: rest)
      (h : SameStatus { s with doneIe := v.getLsbD 0 } t)
  | blocked (o : Nat) (v : Word) (rest : List Event) (he : s.events = .access (.write o 32 v) :: rest)
      (hw : o < 0x2000) (ha : o % 4 = 0) (hl : busyBlocked (locate o) = true) (hb : s.busy = true)
      (h : SameStatus { s with wbusy := true } t)

/-- A legal write in the window. -/
theorem legal_write {o n : Nat} {v : Word} (hw : inWindow (.write o n v) = true)
    (h : legalAccess (.write o n v) = true) : n = 32 ∧ o % 4 = 0 ∧ o < 0x2000 := by
  have h1 : n = 32 ∧ o % 4 = 0 := by simpa [legalAccess, accessWidth, accessOffset, Config.busWidth] using h
  exact ⟨h1.1, h1.2, of_decide_eq_true hw⟩

theorem step_status {s t : State} (h : step s = .next t) : StatusMove s t := by
  cases step_cases h with
  | engine u ht hb hu h =>
    obtain ⟨-, h2, h3, -, h4, -, -, h5⟩ := engineStep_frame h
    have : u.wbusy = s.wbusy ∧ u.doneIe = s.doneIe := by rcases hu with rfl | rfl <;> exact ⟨rfl, rfl⟩
    exact .engine ⟨u, ht⟩ hb h2 h3 (h4.trans this.1) (h5.trans this.2)
  | reset rest he h => subst h; exact .reset rest he ⟨rfl, rfl, rfl, rfl, rfl, rfl⟩
  | idle hb' h => rcases h with rfl | rfl <;> exact .same ⟨rfl, rfl, rfl, rfl, rfl, rfl⟩
  | outside a rest he hw h => subst h; exact .same ⟨rfl, rfl, rfl, rfl, rfl, rfl⟩
  | action a rest i he hw hl hi h =>
    obtain ⟨o, n, v, rfl, ho, hk⟩ := busAction_some hi
    obtain ⟨rfl, ha, hw⟩ := legal_write hw hl
    rcases exec_keyctl_cases (portOf_decodeKeyctl hk) h with ⟨hb, rfl⟩ | ⟨-, -, rfl⟩ | ⟨-, -, rfl⟩
    · exact .blocked o v rest he hw ha (by simp [ho, busyBlocked]) hb ⟨rfl, rfl, rfl, rfl, rfl, rfl⟩
    · exact .same (by simp [SameStatus])
    · exact .same (by simp [SameStatus])
  | access a rest he hw hl hi h =>
    subst h
    cases a with
    | read o n =>
      simp only [hostAccess]
      rw [hostRead_frame]
      exact .same ⟨rfl, rfl, rfl, rfl, rfl, rfl⟩
    | write o n v =>
      obtain ⟨rfl, ha, hw⟩ := legal_write hw hl
      have hc := hostWrite_cases (popEvent s) (locate o) v
      clear h
      simp only [hostAccess]
      generalize hostWrite (popEvent s) (locate o) v = u at hc ⊢
      cases hc with
      | blocked hb hl h => subst h; exact .blocked o v rest he hw ha hl hb ⟨rfl, rfl, rfl, rfl, rfl, rfl⟩
      | start hb hl h =>
        obtain rfl := (locate_cmd_iff o ha).1 hl
        subst h; exact .start v rest he hb rfl rfl rfl rfl rfl rfl rfl
      | status hl h =>
        obtain rfl := (locate_status_iff o ha).1 hl
        subst h; exact .status v rest he rfl rfl rfl rfl rfl rfl
      | intEn hl h =>
        obtain rfl := (locate_intEn_iff o ha).1 hl
        subst h; exact .intEn v rest he ⟨rfl, rfl, rfl, rfl, rfl, rfl⟩
      | operand hb h hbuf => rw [h]; exact .same ⟨rfl, rfl, rfl, rfl, rfl, rfl⟩
      | ignored h => subst h; exact .same ⟨rfl, rfl, rfl, rfl, rfl, rfl⟩

end Sys2Proof.Machine
end

