-- ==== Sys2Proof/Tests/Slice0.lean ====
section
/-! SUPPORT. Tests from the spec's own words, vectors and programs, and a witness for the hypotheses of
every statement. Expected values are those of spec/95_test_vectors.md unless a comment says otherwise. -/

open Sys2Proof Sys2Proof.Machine Sys2Proof.Claims

namespace Sys2Proof.Tests

/-- A buffer with bytes at an offset. -/
def bufAt (a : Nat) (b : List Byte) : Memory := memWrite [] a b

/-- A field of the next state. -/
def after {α : Type} (o : Host.Outcome State Fault Refusal) (f : State → α) : Option α := (nextState o).map f

/-- The state after reset with the host's next access a write. -/
def hostWrites (offset : Nat) (v : Word) : State := { State.reset with events := [hostWr offset v] }

/-- The same while a command is pending. -/
def busyWrites (offset : Nat) (v : Word) : State := { hostWrites offset v with busy := true }

/-- The state after reset with the host's next access a read. -/
def hostReads (offset : Nat) : State := { State.reset with events := [hostRd offset] }

/-- The same while a command is pending. -/
def busyReads (offset : Nat) : State := { hostReads offset with busy := true }

/-- A pending command word on the state after reset. -/
def pending (w : Word) : State := { State.reset with cmd := w, busy := true }

/-! Well-formedness: the one check, on terms that fail it and terms that pass (30_encoding.md R82). -/

theorem test_wf_hotp_eight_digits_refused : (Instr.hotp 8).wellFormed = false := by decide

theorem test_wf_trunc_no_digits_refused : (Instr.hotpTrunc 0).wellFormed = false := by decide

theorem test_wf_others_pass : ∀ i ∈ [Instr.hmacSha1, .hotp 6, .hotpTrunc 6, .b32Enc, .b32Dec, .gcmEnc, .gcmDec, .keyLoad,
    .keyClear], i.wellFormed = true := by decide

/-! Decoding, on words written out from 30_encoding.md R80 to R82 (`RSV1 DIGITS RSV0 OP`) and
10_state.md R39. -/

theorem test_decode_hmacSha1 : decode .cmd 0b00000000000000000000_0000_0000_0001 = .ok .hmacSha1 := by decide

theorem test_decode_hotp : decode .cmd 0b00000000000000000000_0110_0000_0010 = .ok (.hotp 6) := by decide

theorem test_decode_hotpTrunc : decode .cmd 0b00000000000000000000_0110_0000_0011 = .ok (.hotpTrunc 6) := by decide

theorem test_decode_b32Enc : decode .cmd 0b00000000000000000000_0000_0000_0100 = .ok .b32Enc := by decide

theorem test_decode_b32Dec : decode .cmd 0b00000000000000000000_0000_0000_0101 = .ok .b32Dec := by decide

theorem test_decode_gcmEnc : decode .cmd 0b00000000000000000000_0000_0000_0110 = .ok .gcmEnc := by decide

theorem test_decode_gcmDec : decode .cmd 0b00000000000000000000_0000_0000_0111 = .ok .gcmDec := by decide

theorem test_decode_keyLoad : decode .keyctl 0b00000000000000000000000000000001 = .ok .keyLoad := by decide

/-- CLEAR wins over LOAD, and bits [31:2] are ignored. -/
theorem test_decode_keyClear : decode .keyctl 0b11111111111111111111111111111111 = .ok .keyClear := by decide

/-- Reserved bit 16, a nonzero DIGITS of GCM_ENC, OP 8 and OP 0. -/
theorem test_decode_illegal : ∀ w ∈ [(0x00010006 : Word), 0x00000606, 0x00000008, 0x00000000],
    decode .cmd w = .error (.error .illegalCmd) := by
  intro w h; fin_cases h <;> decide

theorem test_decode_badDigits : ∀ w ∈ [(0x00000802 : Word), 0x00000402, 0x00000002, 0x00000003],
    decode .cmd w = .error (.error .badDigits) := by
  intro w h; fin_cases h <;> decide

/-- The two `KEYCTL32` rows of the opcode table have fewer than 32 bits. -/
theorem test_table_words : decodeTableWord 8 1 = some .keyLoad ∧ decodeTableWord 8 2 = some .keyClear ∧
    decodeTableWord 32 0x602 = some (.hotp 6) ∧ decodeTableWord 32 0x1 = some .hmacSha1 := by decide

/-! The instructions. -/

/-- "Hi There" under twenty 0x0B bytes, RFC 2202 case 1 (section 2.3). -/
def hiThere : State :=
  { State.reset with buf := memWrite (bufAt 0 (List.replicate 20 0x0B)) 64 (beBytes 8 0x4869205468657265),
                     srcAddr := 64, srcLen := 8, keyLen := 20, dstAddr := 128 }

theorem test_hmacSha1_hi_there :
    after (exec .hmacSha1 hiThere) (fun t => (t.digest, t.resLen, memRead t.buf 128 20)) =
      some (#v[0x863117b6, 0x64720555, 0xb6c08be2, 0x8e8c37fb, 0x00be46f1], 20,
        beBytes 20 0xb617318655057264e28bc0b6fb378c8ef146be00) := by decide +kernel

/-- On the reset state: an empty key and an empty message (70_reset_and_hazards.md R264, section 2.3). -/
theorem test_hmacSha1_reset : after (exec .hmacSha1 State.reset) (fun t => memRead t.buf 0 20) =
    some (beBytes 20 0xfbdb1d1b18aa6c08324b7d64b71fb76370690e1d) := by decide +kernel

/-- The key "12345678901234567890" with a counter (section 2.1). -/
def hotpState (hi lo : Word) : State :=
  { State.reset with buf := bufAt 0 (beBytes 20 0x3132333435363738393031323334353637383930),
                     keyLen := 20, dstAddr := 0x40, cntHi := hi, cntLo := lo }

theorem test_hotp_counter_1 :
    after (exec (.hotp 6) (hotpState 0 1)) (fun t => (t.hotpCode, t.hotpOff, t.hotpBin, memRead t.buf 0x40 6)) =
      some (287082, 11, 0x41397eea, [0x32, 0x38, 0x37, 0x30, 0x38, 0x32]) := by decide +kernel

theorem test_hotp_counter_max :
    after (exec (.hotp 6) (hotpState 0xFFFFFFFF 0xFFFFFFFF)) (fun t => (t.hotpCode, memRead t.buf 0x40 6)) =
      some (0x170F3, [0x30, 0x39, 0x34, 0x34, 0x35, 0x31]) := by decide +kernel

/-- Offset 15: bytes 15 to 18 are read, and byte 19 gives only the offset (section 2.2). -/
def truncState : State :=
  { State.reset with buf := bufAt 0x200 (List.replicate 15 0 ++ [0xff, 0xff, 0xff, 0xff, 0x0f]),
                     srcAddr := 0x200, srcLen := 20, dstAddr := 0x300 }

theorem test_hotpTrunc_offset_15 :
    after (exec (.hotpTrunc 6) truncState) (fun t => (t.hotpOff, t.hotpBin, memRead t.buf 0x300 6, t.digest[0])) =
      some (15, 0x7fffffff, [0x34, 0x38, 0x33, 0x36, 0x34, 0x37], 0) := by decide +kernel

theorem test_hotpTrunc_bad_length :
    after (exec (.hotpTrunc 6) { truncState with srcLen := 19, hotpCode := 7 }) (fun t => (statusWord t, t.hotpCode)) =
      some (0x00000406, 7) := by decide +kernel

/-- "foobar" (section 2.4). -/
def foobar : State := { State.reset with buf := bufAt 0 (beBytes 6 0x666f6f626172), srcLen := 6, dstAddr := 0x100 }

theorem test_b32Enc_foobar : after (exec .b32Enc foobar) (fun t => (memRead t.buf 0x100 10, t.resLen)) =
    some ([0x4d, 0x5a, 0x58, 0x57, 0x36, 0x59, 0x54, 0x42, 0x4f, 0x49], 10) := by decide +kernel

/-- Source (4095, 1) with destination 4095: 4095 + 2 > 4096 (section 2.4). -/
theorem test_b32Enc_range : after (exec .b32Enc { State.reset with srcAddr := 4095, srcLen := 1, dstAddr := 4095 }) statusWord =
    some 0x00000606 := by decide +kernel

/-- "MZXW6YTBOI======" in place; the rest of the region stays (section 2.5). -/
theorem test_b32Dec_in_place :
    after (exec .b32Dec { State.reset with
      buf := bufAt 0 (beBytes 16 0x4d5a585736595442_4f493d3d3d3d3d3d), srcLen := 16 }) (fun t => (memRead t.buf 0 16, t.resLen)) =
      some (beBytes 16 0x666f6f626172_5442_4f493d3d3d3d3d3d, 6) := by decide +kernel

/-- "MZ=XW6": an inner `=` is skipped (section 2.5). -/
theorem test_b32Dec_inner_equals : b32Decode [0x4d, 0x5a, 0x3d, 0x58, 0x57, 0x36] = [0x66, 0x6f, 0x6f] := by decide +kernel

/-- The zero key and IV with sixteen zero bytes: GCM test case 14 (section 2.6). -/
def gcmState : State := { State.reset with keyValid := true, srcLen := 16, dstAddr := 0x100 }

theorem test_gcmEnc_case_14 :
    after (exec .gcmEnc gcmState) (fun t => (memRead t.buf 0x100 16, regBytes t.tag)) =
      some (beBytes 16 0xcea7403d4d606b6e074ec5d3baf39d18, beBytes 16 0xd0d1c8a799996bf0265b98b5d48ab919) := by
  decide +kernel

theorem test_gcmEnc_no_key : after (exec .gcmEnc State.reset) statusWord = some 0x00000306 := by decide +kernel

/-- Test case 13's tag over an empty ciphertext, and the same with bit 31 of TAG3 changed (section 2.6). -/
def gcmEmpty (tag3 : Word) : State :=
  { State.reset with keyValid := true, tag := #v[0xfb8a0f53, 0xb93645c7, 0xf1b463a9, tag3] }

theorem test_gcmDec_case_13 : after (exec .gcmDec (gcmEmpty 0x8b73cbc4)) statusWord = some 0x00000002 := by decide +kernel

theorem test_gcmDec_tag_changed : after (exec .gcmDec (gcmEmpty 0x0b73cbc4)) (fun t => (statusWord t, t.resLen)) =
    some (0x00000706, 0) := by decide +kernel

/-- Staged words 0x03020100, 0x07060504, ... are the key 00 01 ... 1f (program P3). -/
def stagedWords : Vector Word 8 :=
  #v[0x03020100, 0x07060504, 0x0B0A0908, 0x0F0E0D0C, 0x13121110, 0x17161514, 0x1B1A1918, 0x1F1E1D1C]

theorem test_keyLoad : after (exec .keyLoad { State.reset with aesKey := stagedWords }) (fun t => (kIntBytes t, t.keyValid)) =
    some ((List.range 32).map fun i => BitVec.ofNat 8 i, true) := by decide +kernel

/-- A KEYCTL write while busy is ignored (10_state.md R39, R47). -/
theorem test_keyLoad_busy : after (exec .keyLoad (pending 1)) (fun t => (t.keyValid, t.wbusy)) = some (false, true) := by
  decide +kernel

theorem test_keyClear : after (exec .keyClear { State.reset with aesKey := stagedWords, keyValid := true })
    (fun t => (t.keyValid, t.aesKey[7])) = some (false, 0) := by decide +kernel

/-- KEYCTL = 3 reads 0 afterwards: CLEAR wins (program P5). -/
theorem test_keyClear_wins : after (step { hostWrites 0x03C 3 with keyValid := true }) keyctlWord = some 0 := by decide +kernel

/-! The machine around them. -/

/-- FIPS 197 C.3 and the last schedule word for the key 00 01 ... 1f (section 2.6). -/
theorem test_aes_fips_197 :
    aes ((List.range 32).map fun i => BitVec.ofNat 8 i) (beBytes 16 0x00112233445566778899aabbccddeeff) =
      beBytes 16 0x8ea2b7ca516745bfeafc49904b496089 ∧
    (keyExpansion ((List.range 32).map fun i => BitVec.ofNat 8 i)).getD 59 [] = [0x6d, 0x68, 0xde, 0x36] := by decide +kernel

/-- Program P4: a busy write of DST_ADDR is ignored and sets WBUSY. -/
theorem test_busy_write : after (step (busyWrites 0x020 0x55)) (fun t => (statusWord t, t.dstAddr)) = some (0x00000009, 0) := by
  decide +kernel

/-- Program P4: STATUS 0x0000000A after the write is cleared by writing 0x0000000A. -/
theorem test_status_w1c : after (step { hostWrites 0x008 0x0000000A with done := true, wbusy := true }) statusWord =
    some 0x00000000 := by decide +kernel

/-- Section 2.5 and program P5: an illegal word is stored and completes with its error. -/
theorem test_illegal_word : after (step (pending 0x00010006)) (fun t => (statusWord t, t.cmd)) = some (0x00000106, 0x00010006) := by
  decide +kernel

/-- `withFetchWord` puts each table word where the next step runs it. -/
theorem test_withFetchWord : after (step (State.reset.withFetchWord 32 0x00000603)) statusWord = some 0x00000406 ∧
    after (step (State.reset.withFetchWord 8 1)) keyctlWord = some 1 := by decide +kernel

/-- An access that is not 32 bits wide, or not aligned, is a bus error (20_memory.md R64). -/
theorem test_bus_error : step { State.reset with events := [.access (.read 0x008 16)] } = .fault (.busError (.read 0x008 16)) ∧
    step { State.reset with events := [.access (.write 0x002 32 1)] } = .fault (.busError (.write 0x002 32 1)) := ⟨rfl, rfl⟩

/-! Witnesses: for every statement with hypotheses, states and operands that meet them. -/

theorem witness_ResetInputAbandonsCommand : ∃ s : State, s.busy = true ∧ ∃ rest, s.events = .reset :: rest :=
  ⟨{ pending 1 with events := [.reset] }, rfl, [], rfl⟩

theorem witness_LegalCommandWordsAreExactlySeven :
    (∀ i, decodeCmd 0x00000008 ≠ .ok i) ∧ decodeCmd 0x00000008 ≠ .error .badDigits ∧ decodeCmd 0x00000F02 = .error .badDigits := by
  refine ⟨fun i h => ?_, by decide, by decide⟩
  have : decodeCmd 0x00000008 = .error .illegalCmd := by decide
  rw [this] at h
  cases h

theorem witness_EncodeAndDecodeAgree : decode .cmd 0x00000007 = .ok .gcmDec ∧ decode .keyctl 0xFFFFFFFF = .ok .keyClear ∧
    decode .keyctl 0xFFFFFFFD = .ok .keyLoad := by decide

/-- Illegal by RSV0, RSV1, OP 0, OP 8, OP 15 and DIGITS of another OP; BAD_DIGITS by 0, 5, 7 and 15. -/
theorem witness_IllegalWordsFailAtTheEngineStep :
    (∀ w ∈ [(0x00000011 : Word), 0x80000001, 0x00001001, 0x00000000, 0x00000008, 0x0000000F, 0x00000101, 0x00000604],
      engineStep (pending w) = .next (failedState (pending w) 1)) ∧
    (∀ w ∈ [(0x00000002 : Word), 0x00000503, 0x00000702, 0x00000F03],
      engineStep (pending w) = .next (failedState (pending w) 2)) ∧ decodeCmd 0x00000602 = .ok (.hotp 6) := by
  refine ⟨?_, ?_, by decide⟩ <;> intro w h <;> fin_cases h <;> rfl

theorem witness_StepRunsTheDecodedInstruction :
    (∃ s : State, s.busy = true ∧ s.events = [] ∧ decode .cmd s.cmd = .ok .b32Enc) ∧
    (∃ s : State, ∃ rest, s.busy = true ∧ s.events = .engine :: rest ∧ decode .cmd s.cmd = .ok (.hotp 6)) ∧
    (∃ s : State, s.busy = true ∧ s.events = [] ∧ decode .cmd s.cmd = .error (.error .illegalCmd)) ∧
    (∃ s : State, ∃ rest, s.busy = true ∧ s.events = .engine :: rest ∧ decode .cmd s.cmd = .error (.error .badDigits)) ∧
    (∃ s : State, ∃ v rest, NextIsWrite s 0x03C v rest ∧ decode .keyctl v = .ok .keyLoad) ∧
    decode .cmd 0x00000001 = .ok .hmacSha1 ∧ ((31 < 32) ∧ decode .keyctl 0x00000001 = .ok .keyLoad) ∧
    ((∀ j, decode .cmd 0x0000000B ≠ .ok j) ∧ decode .keyctl 0x0000000B = .ok .keyClear) :=
  ⟨⟨pending 4, rfl, rfl, by decide⟩, ⟨{ pending 0x602 with events := [.engine] }, [], rfl, rfl, by decide⟩,
    ⟨pending 8, rfl, rfl, by decide⟩, ⟨{ pending 2 with events := [.engine] }, [], rfl, rfl, by decide⟩,
    ⟨hostWrites 0x03C 1, 1, [], rfl, by decide⟩, by decide, ⟨by decide, by decide⟩,
    fun j h => (nomatch h.symm.trans (by decide : decode .cmd 0x0000000B = .error (.error .illegalCmd))), by decide⟩

theorem witness_CmdWriteStartsACommand :
    (NextIsWrite (hostWrites 0x004 4) 0x004 4 [] ∧ (hostWrites 0x004 4).busy = false) ∧
    (NextIsWrite (busyWrites 0x004 4) 0x004 4 [] ∧ (busyWrites 0x004 4).busy = true) := ⟨⟨rfl, rfl⟩, rfl, rfl⟩

/-- Pending with no event left, and with a bus error in front. -/
theorem witness_PendingCommandCompletes : (pending 4).busy = true ∧ (pending 4).events = [] ∧
    { pending 4 with events := [.access (.read 1 32)] }.busy = true := ⟨rfl, rfl, rfl⟩

theorem witness_EngineStepsExactlyWhenBusy :
    ((pending 4).busy = true ∧ (pending 4).events = []) ∧ (State.reset.busy = false ∧ State.reset.events = []) ∧
    ({ State.reset with events := [.engine] }.busy = false) := ⟨⟨rfl, rfl⟩, ⟨rfl, rfl⟩, rfl⟩

/-- A good state that steps, other than the state after reset. -/
theorem witness_StepKeepsInvariant : EngineOk foobar ∧ EngineOk (pending 4) ∧
    (∃ t, step (pending 4) = .next t) ∧ ∃ t, step (hostWrites 0x1FFC 0xFFFFFFFF) = .next t :=
  ⟨by decide, by decide, ⟨_, rfl⟩, ⟨_, rfl⟩⟩

/-- Both ends of every range of the busy-blocked offsets. -/
theorem witness_BusyBlockProtectsTheInputs :
    (∀ o ∈ [0x004, 0x010, 0x020, 0x028, 0x02C, 0x03C, 0x040, 0x05C, 0x060, 0x068, 0x070, 0x07C, 0x1000, 0x1FFC],
      BusyBlockedOffset o ∧ NextIsWrite (busyWrites o 1) o 1 []) ∧
    ∃ t, step (busyWrites 0x008 2) = .next t ∧ t.busy = true := by
  refine ⟨?_, _, rfl, rfl⟩
  intro o h
  fin_cases h <;> exact ⟨by decide, rfl⟩

/-- Both ends of every range of the result offsets, and offsets that are none. -/
theorem witness_BusyReadsOfResultsAreDraws :
    (∀ o ∈ [0x024, 0x030, 0x038, 0x070, 0x07C, 0x080, 0x090, 0x1000, 0x1FFC],
      ResultOffset o ∧ NextIsRead (busyReads o) o [] ∧ (busyReads o).busy = true) ∧
    (∀ o ∈ [0x000, 0x020, 0x028, 0x03C, 0x06C, 0x094, 0xFFC], WordOffset o ∧ ¬ResultOffset o ∧ NextIsRead (busyReads o) o []) ∧
    StatusOk (busyReads 0x008) := by
  refine ⟨?_, ?_, by decide⟩ <;> intro o h
  · fin_cases h <;> exact ⟨by decide, rfl, rfl⟩
  · fin_cases h <;> exact ⟨by decide, by decide, rfl⟩

theorem witness_ReadsHaveNoSideEffect :
    (∀ o ∈ [0x000, 0x008, 0x1000, 0x1FFC], WordOffset o ∧ NextIsRead (hostReads o) o [] ∧
      ¬((hostReads o).busy = true ∧ ResultOffset o)) ∧
    ¬((busyReads 0x008).busy = true ∧ ResultOffset 0x008) ∧ (WordOffset 0x1FFC ∧ NextIsRead (busyReads 0x1FFC) 0x1FFC []) := by
  refine ⟨?_, by decide, by decide, rfl⟩
  intro o h
  fin_cases h <;> exact ⟨by decide, rfl, by decide⟩

theorem witness_RegisterMapReads : State.reset.busy = false ∧
    ∀ o ∈ [0x06C, 0x094, 0xFFC], ReservedOffset o := ⟨rfl, by intro o h; fin_cases h <;> decide⟩

theorem witness_OperandRegistersStore : State.reset.busy = false := rfl

theorem witness_AesKeyRegistersAreWriteOnlyStaging : State.reset.busy = false ∧ (pending 1).busy = true := ⟨rfl, rfl⟩

theorem witness_ReadOnlyAndReservedWritesAreIgnored :
    (∀ o ∈ [0x000, 0x024, 0x030, 0x038, 0x080, 0x090], ReadOnlyOffset o) ∧ ∀ o ∈ [0x06C, 0x094, 0xFFC], ReservedOffset o := by
  refine ⟨?_, ?_⟩ <;> intro o h <;> fin_cases h <;> decide

theorem witness_BufferWindowIsLittleEndian :
    (Memory.wf (hostWrites 0x1FFC 1).buf ∧ (hostWrites 0x1FFC 1).busy = false ∧
      NextIsWrite (hostWrites (0x1000 + 4 * 1023) 1) (0x1000 + 4 * 1023) 1 []) ∧
    (NextIsWrite (hostWrites (0x1000 + 4 * 0) 1) (0x1000 + 4 * 0) 1 []) ∧ (List.replicate 20 (1 : Byte)).length = 4 * 5 :=
  ⟨⟨by decide, rfl, rfl⟩, rfl, by decide⟩

/-- A bad width, a bad alignment at either end of the window, and the first offset outside. -/
theorem witness_BadAccessesAreHostFaults :
    (∀ a ∈ [Access.read 0x000 16, .write 0x001 32 0, .read 0x1FFF 32, .write 0x1FFC 8 0],
      accessOffset a < 0x2000 ∧ (accessWidth a ≠ 32 ∨ accessOffset a % 4 ≠ 0)) ∧ 0x2000 ≤ accessOffset (.read 0x2000 32) := by
  decide

theorem witness_BusyAndDoneChangeOnlyAsStated :
    (∃ t, step (hostWrites 0x004 4) = .next t ∧ t.busy = true) ∧ (∃ t, step (pending 4) = .next t ∧ t.busy = false ∧ t.done = true) ∧
    (pending 4).busy = true ∧ (pending 4).done = false ∧ ∃ t, step { hostWrites 0x008 2 with done := true } = .next t ∧ t.done = false :=
  ⟨⟨_, rfl, rfl⟩, ⟨_, rfl, rfl, rfl⟩, rfl, rfl, _, rfl, rfl⟩

theorem witness_ErrAndWbusyChangeOnlyAsStated :
    (∃ t, step { hostWrites 0x004 4 with err := true, errCode := 1 } = .next t ∧ t.err = false) ∧
    (∃ t, step (pending 8) = .next t ∧ t.err = true) ∧ (∃ t, step (busyWrites 0x1000 4) = .next t ∧ t.wbusy = true) ∧
    ∃ t, step { hostWrites 0x008 8 with wbusy := true } = .next t ∧ t.wbusy = false :=
  ⟨⟨_, rfl, rfl⟩, ⟨_, rfl, rfl⟩, ⟨_, rfl, rfl⟩, _, rfl, rfl⟩

theorem witness_InterruptEnableAndLevel : ∃ t, engineStep (pending 8) = .next t := ⟨_, rfl⟩

theorem witness_IrqIsDeassertedOnlyAsListed :
    (∃ t, step { hostWrites 0x00C 0 with done := true, doneIe := true } = .next t ∧ irq t = false) ∧
    NextIsWrite (hostWrites 0x008 2) 0x008 2 [] ∧ (hostWrites 0x004 1).busy = false ∧ NextIsWrite (hostWrites 0x004 1) 0x004 1 [] ∧
    NextIsWrite (hostWrites 0x00C 0xFFFFFFFE) 0x00C 0xFFFFFFFE [] ∧ { State.reset with events := [.reset] }.events = .reset :: [] :=
  ⟨⟨_, rfl, rfl⟩, rfl, rfl, rfl, rfl, rfl⟩

theorem witness_KeyLoadCopiesTheStagedKey : { State.reset with aesKey := stagedWords }.busy = false ∧
    (0xFFFFFFFD : Word).getLsbD 1 = false ∧ (0xFFFFFFFD : Word).getLsbD 0 = true := ⟨rfl, by decide, by decide⟩

theorem witness_KeyClearZeroesAllKeyMaterial :
    { State.reset with aesKey := stagedWords, keyValid := true }.busy = false ∧ (0xFFFFFFFE : Word).getLsbD 1 = true ∧
    State.reset.keyValid = false ∧ ∃ t, step (hostWrites 0x03C 1) = .next t ∧ t.keyValid = true :=
  ⟨rfl, by decide, rfl, _, rfl, rfl⟩

theorem witness_KeyctlWriteActsOnTwoBits :
    ((0xFFFFFFFF : Word).getLsbD 1 = true ∧ ∃ u, exec .keyClear State.reset = .next u) ∧
    ((0xFFFFFFFD : Word).getLsbD 1 = false ∧ (0xFFFFFFFD : Word).getLsbD 0 = true ∧ ∃ u, exec .keyLoad State.reset = .next u) ∧
    ((0xFFFFFFFC : Word).getLsbD 1 = false ∧ (0xFFFFFFFC : Word).getLsbD 0 = false) ∧ (pending 1).busy = true :=
  ⟨⟨by decide, _, rfl⟩, ⟨by decide, by decide, _, rfl⟩, ⟨by decide, by decide⟩, rfl⟩

theorem witness_OnlyKeyActionsAndResetChangeTheKey :
    ∃ t, step { hostWrites 0x03C 1 with aesKey := stagedWords } = .next t ∧ t.keyValid = true := ⟨_, rfl, rfl⟩

/-- Two states that differ in the keys alone, one at a host read and one at a B32_ENC engine step. -/
theorem witness_AesKeyCannotBeReadBack :
    SameButKey (hostReads 0x040) { hostReads 0x040 with aesKey := stagedWords } ∧
    (∀ u, turn (hostReads 0x040) = .engineStep u → (hostReads 0x040).cmd ≠ 6 ∧ (hostReads 0x040).cmd ≠ 7) ∧
    SameButKey (pending 4) { pending 4 with kInt := Vector.replicate 32 1 } ∧
    (∀ u, turn (pending 4) = .engineStep u → (pending 4).cmd ≠ 6 ∧ (pending 4).cmd ≠ 7) :=
  ⟨rfl, fun u h => by decide, rfl, fun u h => by decide⟩

/-- The words a command's `OP` names: its own, and one with a bit too many, at either end. -/
theorem witness_OneWord : (0x00000001 : Word).extractLsb' 0 4 = 0x1 ∧ (0x00000001 : Word).extractLsb' 4 28 = 0 ∧
    (0x00000014 : Word).extractLsb' 0 4 = 0x4 ∧ (0x80000007 : Word).extractLsb' 0 4 = 0x7 ∧
    (0x80000007 : Word).extractLsb' 4 28 ≠ 0 ∧ (0x00000602 : Word).extractLsb' 8 4 = 6 ∧ (0x00000703 : Word).extractLsb' 8 4 ≠ 6 := by
  decide

theorem witness_HmacSha1WritesTheDigest : Memory.wf hiThere.buf ∧ SrcOk hiThere ∧ KeyRegionOk hiThere ∧ DstOk hiThere 20 ∧
    DstOk { hiThere with dstAddr := 4076 } 20 ∧ ¬DstOk { hiThere with dstAddr := 4077 } 20 := by decide +kernel

theorem witness_HotpWritesTheCode : Memory.wf (hotpState 0 1).buf ∧ (hotpState 0 1).keyLen ≠ 0 ∧ KeyRegionOk (hotpState 0 1) ∧
    DstOk (hotpState 0 1) 6 ∧ State.reset.keyLen = 0 ∧ ¬DstOk { hotpState 0 1 with dstAddr := 4091 } 6 := by decide +kernel

theorem witness_HotpTruncWritesTheCode : Memory.wf truncState.buf ∧ truncState.srcLen = 20 ∧ SrcOk truncState ∧ DstOk truncState 6 ∧
    { truncState with srcLen := 21 }.srcLen ≠ 20 ∧ ¬SrcOk { truncState with srcAddr := 4077 } := by decide +kernel

/-- In the middle of the buffer, and at its end, where the source is the last byte (section 2.4). -/
theorem witness_Base32EncodeWritesTheText : Memory.wf foobar.buf ∧ SrcOk foobar ∧ DstOk foobar ((8 * foobar.srcLen.toNat + 4) / 5) ∧
    SrcOk { State.reset with srcAddr := 4095, srcLen := 1 } ∧ DstOk { State.reset with dstAddr := 4094 } ((8 * 1 + 4) / 5) ∧
    ¬DstOk { State.reset with dstAddr := 4095 } ((8 * 1 + 4) / 5) := by decide +kernel

theorem witness_Base32DecodeWritesTheBytes :
    Memory.wf foobar.buf ∧ SrcOk foobar ∧ DstOk foobar (b32Decode (src foobar)).length ∧ foobar.srcLen ≠ 0 ∧
    ¬SrcOk { foobar with srcAddr := 4091 } := by decide +kernel

theorem witness_GcmEncryptWritesCiphertextAndTag : Memory.wf gcmState.buf ∧ gcmState.keyValid = true ∧ SrcOk gcmState ∧
    DstOk gcmState gcmState.srcLen.toNat ∧ State.reset.keyValid = false ∧ ¬DstOk { gcmState with dstAddr := 4081 } 16 := by
  decide +kernel

/-- The right tag, and one that is not; no key; and a source out of bounds by one byte. -/
theorem witness_GcmDecryptChecksTheTagFirst :
    (∀ s ∈ [gcmEmpty 0x8b73cbc4, gcmEmpty 0x0b73cbc4],
      Memory.wf s.buf ∧ s.keyValid = true ∧ SrcOk s ∧ DstOk s s.srcLen.toNat) ∧
    regBytes (gcmEmpty 0x8b73cbc4).tag = gcmTag (kIntBytes (gcmEmpty 0x8b73cbc4)) (regBytes (gcmEmpty 0x8b73cbc4).iv) [] ∧
    regBytes (gcmEmpty 0x0b73cbc4).tag ≠ gcmTag (kIntBytes (gcmEmpty 0x0b73cbc4)) (regBytes (gcmEmpty 0x0b73cbc4).iv) [] ∧
    State.reset.keyValid = false ∧ ¬SrcOk { gcmState with srcAddr := 4081 } := by decide +kernel

/-- Each clause in the order of the statement; a region is out of bounds by one byte. -/
theorem witness_ErrorsAreReportedInPriorityOrder :
    decodeCmd 0x00000008 = .error .illegalCmd ∧ decodeCmd 0x00000007 = .ok .gcmDec ∧ (0 : BitVec 4) ≠ 6 ∧ State.reset.keyValid = false ∧ State.reset.srcLen ≠ 20 ∧
    State.reset.keyLen = 0 ∧ ¬DstOk { State.reset with dstAddr := 4077 } 20 ∧
    ((hotpState 0 0).keyLen ≠ 0 ∧ ¬KeyRegionOk { hotpState 0 0 with keyAddr := 4077 }) ∧
    ({ truncState with srcAddr := 4080 }.srcLen = 20 ∧ ¬SrcOk { truncState with srcAddr := 4080 }) ∧
    ¬SrcOk { State.reset with srcAddr := 0xFFFFFFFF, srcLen := 2 } ∧ ¬SrcOk { State.reset with srcAddr := 4097 } ∧
    (gcmState.keyValid = true ∧ ¬DstOk { gcmState with dstAddr := 4081 } 16) ∧
    gcmAD (kIntBytes (gcmEmpty 0)) (regBytes (gcmEmpty 0).iv) [] (regBytes (gcmEmpty 0).tag) = none := by decide +kernel

theorem witness_FailedCommandWritesNothing : ∃ t, engineStep (pending 8) = .next t ∧ t.err = true := ⟨_, rfl, rfl⟩

theorem witness_SuccessfulCommandWritesOnlyItsResults :
    Memory.wf foobar.buf ∧ portOf .b32Enc = .cmd ∧ ∃ t, exec .b32Enc foobar = .next t ∧ t.err = false := by
  refine ⟨by decide +kernel, rfl, _, complete_eq, rfl⟩
where
  complete_eq : exec .b32Enc foobar = .next (succeed (writeResult foobar (b32Encode (srcBytes foobar)))) := by
    have h1 : srcInBounds foobar = true := by decide +kernel
    have h2 : dstInBounds foobar (b32EncLen foobar.srcLen.toNat) = true := by decide +kernel
    simp [exec, execB32Enc, performB32Enc, h1, h2, complete]

theorem witness_Base32EncodeTakesFiveBitsASymbol : 0 < (8 * [(0x66 : Byte)].length + 4) / 5 ∧ 1 < (8 * [(0x66 : Byte)].length + 4) / 5 := by
  decide

theorem witness_Base32DecodeTakesEightBitsAByte :
    0 < 5 * ((([0x4D, 0x5A] : List Byte).map asciiUpper).filterMap b32SymVal).length / 8 := by decide

theorem witness_Sha1ScheduleFollowsItsRecurrence : (List.replicate 64 (0x61 : Byte)).length = 64 := by decide

/-- A key of one block, one a byte longer, and one to fill. -/
theorem witness_HmacKeysAreHashedOrFilledToABlock :
    (List.replicate 64 (0xaa : Byte)).length ≤ 64 ∧ 64 < (List.replicate 65 (0xaa : Byte)).length ∧ (List.replicate 20 (0x0b : Byte)).length + 44 ≤ 64 := by decide

/-- A digest, and two last bytes with the same low nibble. -/
theorem witness_TruncationStaysInBounds : (List.replicate 20 (0xff : Byte)).length = 20 ∧
    (0x0f : Byte) &&& 0x0F = (List.replicate 20 (0xff : Byte)).getD 19 0 &&& 0x0F := by decide

theorem witness_CodeIsRenderedInSixDigits : 94451 < 1000000 ∧ 999999 < 1000000 := by decide

theorem witness_KeyExpansionFollowsItsRecurrence : (List.replicate 32 (0 : Byte)).length = 32 := by decide

theorem witness_RoundStepsMoveAndMixAsStated : (List.replicate 16 (0 : Byte)).length = 16 := by decide

theorem witness_GhashFoldsBlockByBlock : ([] : List Byte).length % 16 = 0 ∧ (List.replicate 16 (1 : Byte)).length = 16 := by decide

theorem witness_GctrIsAnXorWithEncipheredCounters :
    ((List.replicate 12 (0 : Byte)) ++ List.replicate 4 0xff).length = 16 ∧ (List.replicate 32 (0 : Byte)).length = 32 := by decide

theorem witness_GcmRoundTrip : (List.replicate 32 (0 : Byte)).length = 32 := by decide

/-- A GCM_ENC of nothing under the zero key, and the state after it as the one to decrypt in. -/
def gcmNothing : State := { State.reset with keyValid := true }

theorem witness_GcmCommandsRoundTrip :
    Memory.wf gcmNothing.buf ∧ ∃ t, exec .gcmEnc gcmNothing = .next t ∧ t.err = false ∧ Memory.wf t.buf ∧ t.kInt = gcmNothing.kInt ∧
      t.keyValid = gcmNothing.keyValid ∧ t.iv = gcmNothing.iv ∧ t.srcLen = gcmNothing.srcLen ∧ SrcOk t ∧
      src t = memRead t.buf t.dstAddr.toNat t.resLen.toNat ∧ DstOk t t.srcLen.toNat := by
  have h : exec .gcmEnc gcmNothing =
      .next (succeed (writeTag (writeResult gcmNothing []) (gcmTag (kIntBytes gcmNothing) (ivBytes gcmNothing) []))) := rfl
  exact ⟨by decide, _, h, rfl, by simp [writeResult, memWrite]; decide, rfl, rfl, rfl, rfl, by decide, rfl, by decide⟩

/-- WRW of one word and WRB of three bytes at the end of the buffer, and a `POLL` while busy. -/
theorem witness_ExpansionsRunTheirCommands : State.reset.busy = false ∧ (pending 1).busy = true ∧
    Memory.wf State.reset.buf ∧ 4092 % 4 = 0 ∧ 4092 + 4 * ([0xFFFFFFFF] : List Word).length ≤ 4096 ∧
    4092 + 4 * ((([1, 2, 3] : List Byte).length + 3) / 4) ≤ 4096 := by decide

end Sys2Proof.Tests
end

section
/-! PROOFS. The statements about the host's registers (10_state.md): the busy block, reads while busy,
`STATUS`, `INT_EN`, `KEYCTL`, and the offsets that ignore a write. The rules of a host access come first. -/

namespace Sys2Proof.Machine
open Sys2Proof Sys2Proof.Claims

theorem locate_status : locate 0x008 = .status := rfl

/-! What a legal host read returns. -/

/-- The defined value of a location does not depend on the events to come. -/
theorem locValue_events (s : State) (e : List Event) (l : Loc) :
    locValue { s with events := e } l = locValue s l := by cases l <;> rfl

/-- A read that the busy interval does not hide returns the defined value (20_memory.md R69). -/
theorem step_read_defined {s : State} {o : Nat} {rest : List Event} (h : NextIsRead s o rest)
    (ho : WordOffset o) (hr : (s.busy && resultLoc (locate o)) = false) :
    step s = .next { s with events := rest, response := .data (locValue s (locate o)) } := by
  have hread : hostRead { s with events := rest } (locate o) = _ := hostRead_defined hr
  rw [step_read h ho.1 ho.2, hread, locValue_events]

/-- A read of a result location while busy takes the next draw (10_state.md R48). -/
theorem step_read_draw {s : State} {o : Nat} {rest : List Event} (h : NextIsRead s o rest)
    (ho : WordOffset o) (hr : (s.busy && resultLoc (locate o)) = true) :
    step s = .next { s with events := rest, response := .data (Config.draw s.draws), draws := s.draws + 1 } := by
  exact (step_read h ho.1 ho.2).trans (congrArg _ (hostRead_draw hr))

theorem readsAs_locValue {s : State} {o : Nat} (ho : WordOffset o)
    (hr : (s.busy && resultLoc (locate o)) = false) : ReadsAs s o (locValue s (locate o)) := by
  intro rest
  exact step_read_defined (s := { s with events := _ }) rfl ho hr

/-- Outside the result locations a read returns the defined value, busy or not. -/
theorem readsAs_of_not_resultLoc (s : State) {o : Nat} (ho : WordOffset o) (hr : resultLoc (locate o) = false) :
    ReadsAs s o (locValue s (locate o)) :=
  readsAs_locValue ho (by simp [hr])

/-- The result locations of the window are those 10_state.md R48 lists. -/
theorem resultOffset_iff {o : Nat} (ho : WordOffset o) : ResultOffset o ↔ resultLoc (locate o) = true := by
  rw [resultLoc_locate_iff ho.1]
  omega

theorem wordOffset_of_resultOffset {o : Nat} (h : ResultOffset o) : WordOffset o := by omega

/-! What a legal host write leaves. -/

/-- A store does not look at the events to come or at the last answer. -/
theorem storeLoc_events_response (s : State) (v : Word) (l : Loc) (e : List Event) (r : Response) :
    storeLoc { s with events := e, response := r } v l = { storeLoc s v l with events := e, response := r } := by
  cases l <;> rfl

theorem writeLeaves_storeLoc {s : State} {o : Nat} {v : Word} (ho : WordOffset o)
    (hk : o = 0x03C → decodeKeyctl v = none) (hb : (s.busy && busyBlocked (locate o)) = false) :
    WriteLeaves s o v (storeLoc s v (locate o)) := by
  intro rest
  have hwrite : hostWrite { s with events := rest } (locate o) v = _ := hostWrite_accepted hb
  rw [← storeLoc_events_response, ← hwrite]
  exact step_write (s := { s with events := _ }) rfl ho.1 ho.2 hk

/-- A busy-blocked write sets `WBUSY` alone, a `KEYCTL` action included (10_state.md R47). -/
theorem step_write_blocked {s : State} {o : Nat} {v : Word} {rest : List Event} (h : NextIsWrite s o v rest)
    (ho : WordOffset o) (hb : s.busy = true) (hl : busyBlocked (locate o) = true) :
    step s = .next { s with wbusy := true, events := rest, response := .written } := by
  by_cases hk : o = 0x03C → decodeKeyctl v = none
  · exact (step_write h ho.1 ho.2 hk).trans (congrArg _ (hostWrite_blocked (by simp [hb, hl])))
  · obtain ⟨rfl, hv⟩ := Classical.not_imp.1 hk
    obtain ⟨i, hi⟩ := Option.ne_none_iff_exists'.1 hv
    exact (step_keyctl h hi).trans (exec_keyctl_busy (portOf_decodeKeyctl hi) hb)

theorem wordOffset_of_busyBlockedOffset {o : Nat} (h : BusyBlockedOffset o) : WordOffset o := by omega

theorem busyBlocked_of_busyBlockedOffset {o : Nat} (h : BusyBlockedOffset o) : busyBlocked (locate o) = true := by
  rw [busyBlocked_locate_iff h.1]
  omega

theorem writeLeaves_blocked {s : State} {o : Nat} (v : Word) (hb : s.busy = true) (ho : BusyBlockedOffset o) :
    WriteLeaves s o v { s with wbusy := true } := by
  intro rest
  exact step_write_blocked (s := { s with events := _ }) rfl (wordOffset_of_busyBlockedOffset ho) hb
    (busyBlocked_of_busyBlockedOffset ho)

/-- While idle, a `KEYCTL` write of an action word leaves what the action leaves (10_state.md R39). -/
theorem writeLeaves_keyctl {s u : State} {v : Word} {i : Instr} (hb : s.busy = false)
    (hi : decodeKeyctl v = some i) (h : exec i s = .next u) : WriteLeaves s 0x03C v u := by
  intro rest
  rw [step_keyctl rfl hi]
  rcases exec_keyctl_cases (portOf_decodeKeyctl hi) h with ⟨hb', -⟩ | ⟨-, rfl, rfl⟩ | ⟨-, rfl, rfl⟩
  · simp [hb] at hb'
  · exact exec_keyLoad_idle hb
  · exact exec_keyClear_idle hb

theorem decodeKeyctl_clear {v : Word} (h : v.getLsbD 1 = true) : decodeKeyctl v = some .keyClear := by
  rw [decodeKeyctl, h]; rfl

theorem decodeKeyctl_load {v : Word} (h1 : v.getLsbD 1 = false) (h0 : v.getLsbD 0 = true) :
    decodeKeyctl v = some .keyLoad := by
  rw [decodeKeyctl, h1, h0]; rfl

theorem decodeKeyctl_none {v : Word} (h1 : v.getLsbD 1 = false) (h0 : v.getLsbD 0 = false) :
    decodeKeyctl v = none := by
  rw [decodeKeyctl, h1, h0]; rfl

/-! The busy interval. -/

/-- What the host can change while the engine stays busy: `DONE`, `WBUSY`, `INT_EN` and the model's
own fields. -/
def BusyFrame (s t : State) : Prop :=
  t = { s with
    done := t.done, wbusy := t.wbusy, doneIe := t.doneIe, events := t.events, response := t.response, draws := t.draws }

theorem hostRead_busyFrame (s : State) (l : Loc) : BusyFrame s (hostRead s l) := by
  rw [hostRead_frame]
  rfl

theorem hostWrite_busyFrame {s : State} (hb : s.busy = true) (l : Loc) (v : Word) :
    BusyFrame s (hostWrite s l v) := by
  cases hostWrite_cases s l v with
  | blocked _ _ h => rw [h]; rfl
  | status _ h => rw [h]; rfl
  | intEn _ h => rw [h]; rfl
  | ignored h => rw [h]; rfl
  | start hb' => simp [hb] at hb'
  | operand hb' => simp [hb] at hb'

theorem hostAccess_busyFrame {s : State} (hb : s.busy = true) (a : Access) : BusyFrame s (hostAccess s a) := by
  cases a with
  | read o n => exact hostRead_busyFrame s _
  | write o n v => exact hostWrite_busyFrame hb _ v

/-- The frame of every step within the busy interval. The engine's step and reset end the interval. -/
theorem step_busyFrame {s t : State} (hs : s.busy = true) (h : step s = .next t) (ht : t.busy = true) :
    BusyFrame s t := by
  cases step_cases h with
  | engine u _ _ _ hu =>
    obtain ⟨-, hidle, -⟩ := engineStep_frame hu
    simp [hidle] at ht
  | reset rest _ h => subst h; simp [State.reset] at ht
  | action a rest i _ _ _ hi h =>
    obtain ⟨o, n, v, -, -, hv⟩ := busAction_some hi
    have hbusy : (respond (popEvent s) .written).busy = true := hs
    rw [exec_keyctl_busy (portOf_decodeKeyctl hv) hbusy] at h
    cases h
    rfl
  | access a rest _ _ _ _ h => subst h; exact hostAccess_busyFrame (s := popEvent s) hs a
  | outside a rest _ _ h => subst h; rfl
  | idle hidle => simp [hs] at hidle

/-- Settles O13: a blocked write by the register map, and the inputs by the frame of a busy step. -/
theorem busyBlockProtectsTheInputs : Obligations.BusyBlockProtectsTheInputs := by
  refine ⟨fun s o v rest hb ho h => ?_, fun s t hs h ht => ?_⟩
  · exact step_write_blocked h (wordOffset_of_busyBlockedOffset ho) hb (busyBlocked_of_busyBlockedOffset ho)
  · have hf : BusyFrame s t := step_busyFrame hs h ht
    rw [hf]
    exact ⟨rfl, rfl, rfl, rfl, rfl, rfl, rfl, rfl, rfl, rfl, rfl, rfl, rfl, rfl⟩

/-- While busy `STATUS` reads BUSY with `WBUSY` alone (10_state.md R48). -/
theorem statusWord_busy {s : State} (hb : s.busy = true) (hs : StatusOk s) :
    statusWord s = if s.wbusy then 0x00000009 else 0x00000001 := by
  obtain ⟨hbusy, hcode, -⟩ := hs
  obtain ⟨hdone, herr⟩ := hbusy hb
  cases hw : s.wbusy <;> simp [statusWord, bit, hb, hdone, herr, hcode herr, hw]

/-- Settles O14: the read rules on either side of the result locations, `STATUS` being on the far side. -/
theorem busyReadsOfResultsAreDraws : Obligations.BusyReadsOfResultsAreDraws := by
  intro s o rest hb h
  refine ⟨fun ho => ?_, fun ho hr => ?_, ?_⟩
  · have hw := wordOffset_of_resultOffset ho
    exact step_read_draw h hw (by simp [hb, (resultOffset_iff hw).1 ho])
  · exact step_read_defined h ho (by simpa [hb, resultOffset_iff ho] using hr)
  · rintro rfl hs
    rw [← statusWord_busy hb hs]
    exact step_read_defined h (by decide) (by simp [locate_status, resultLoc])

/-! `STATUS`. -/

/-- The four flags of `STATUS` as a number. -/
theorem flags_toNat (b d e w : Bool) :
    (bit b ||| (bit d <<< 1) ||| (bit e <<< 2) ||| (bit w <<< 3)).toNat =
      b.toNat + 2 * d.toNat + 4 * e.toNat + 8 * w.toNat := by
  revert b d e w
  decide

/-- The fields of `STATUS` do not overlap: the flags stay below bit 8, where `ERRCODE` begins
(10_state.md R29). -/
theorem statusWord_toNat (s : State) : (statusWord s).toNat =
    s.busy.toNat + 2 * s.done.toNat + 4 * s.err.toNat + 8 * s.wbusy.toNat + 256 * s.errCode.toNat := by
  have hflags := flags_toNat s.busy s.done s.err s.wbusy
  have hbelow : s.busy.toNat + 2 * s.done.toNat + 4 * s.err.toNat + 8 * s.wbusy.toNat < 2 ^ 8 := by
    have := s.busy.toNat_le; have := s.done.toNat_le; have := s.err.toNat_le; have := s.wbusy.toNat_le
    omega
  have hcode : (s.errCode.setWidth 32 <<< 8).toNat = s.errCode.toNat <<< 8 := by
    simp [Nat.shiftLeft_eq]
    omega
  rw [statusWord, BitVec.toNat_or, hflags, hcode, Nat.or_comm, ← Nat.shiftLeft_add_eq_or_of_lt hbelow,
    Nat.shiftLeft_eq]
  omega

theorem and_not_eq_ite (flag clear : Bool) : (flag && !clear) = if clear then false else flag := by
  cases clear <;> simp

/-- A `STATUS` write as the write-1-to-clear of its two bits. -/
theorem writeStatus_eq (s : State) (v : Word) : writeStatus s v =
    { s with done := if v.getLsbD 1 then false else s.done, wbusy := if v.getLsbD 3 then false else s.wbusy } := by
  rw [writeStatus, and_not_eq_ite, and_not_eq_ite]

/-- Settles O19: `STATUS` is neither busy-blocked nor a result location. -/
theorem statusWriteClearsDoneAndWbusyOnly : Obligations.StatusWriteClearsDoneAndWbusyOnly := by
  intro s v
  refine ⟨?_, ?_, statusWord_toNat s⟩
  · rw [← writeStatus_eq]
    exact writeLeaves_storeLoc (o := 0x008) (by decide) (by simp) (by simp [locate_status, busyBlocked])
  · exact readsAs_of_not_resultLoc s (o := 0x008) (by decide) rfl

/-! Read-only and reserved offsets. -/

/-- The locations where an unblocked write has no effect, `KEYCTL` apart (10_state.md R45). -/
def ignoresWrites : Loc → Bool
  | .id | .resLen | .hotpCode | .hotpOff | .hotpBin | .digest _ | .reserved => true
  | _ => false

theorem storeLoc_ignored {l : Loc} (h : ignoresWrites l = true) (s : State) (v : Word) : storeLoc s v l = s := by
  cases l with
  | id | resLen | hotpCode | hotpOff | hotpBin | digest _ | reserved => rfl
  | _ => cases h

theorem not_busyBlocked_of_ignoresWrites {l : Loc} (h : ignoresWrites l = true) : busyBlocked l = false := by
  cases l with
  | id | resLen | hotpCode | hotpOff | hotpBin | digest _ | reserved => rfl
  | _ => cases h

theorem ignoresWrites_readOnly {o : Nat} (h : ReadOnlyOffset o) : ignoresWrites (locate o) = true :=
  offset_induction (P := fun o => ReadOnlyOffset o → ignoresWrites (locate o) = true) (by decide +kernel)
    o (by omega) h.1 h

theorem ignoresWrites_reserved {o : Nat} (h : ReservedOffset o) : ignoresWrites (locate o) = true := by
  rw [locate_reserved h.1 h.2]
  rfl

/-- Settles O20: these locations store nothing and are not busy-blocked; a reserved one reads 0. -/
theorem readOnlyAndReservedWritesAreIgnored : Obligations.ReadOnlyAndReservedWritesAreIgnored := by
  intro s o v
  refine ⟨fun ho => ?_, fun ho => ?_⟩
  · have hi : ignoresWrites (locate o) = true := ho.elim ignoresWrites_readOnly ignoresWrites_reserved
    have hw : WriteLeaves s o v (storeLoc s v (locate o)) :=
      writeLeaves_storeLoc (by omega) (by omega) (by simp [not_busyBlocked_of_ignoresWrites hi])
    rwa [storeLoc_ignored hi] at hw
  · have hl : locate o = .reserved := locate_reserved ho.1 ho.2
    have hr := readsAs_of_not_resultLoc s (o := o) (by omega) (by rw [hl]; rfl)
    rwa [hl] at hr

/-! `KEYCTL` and `INT_EN`. -/

/-- Settles O29: the two action bits decide which of the `KEYCTL` write rules applies. -/
theorem keyctlWriteActsOnTwoBits : Obligations.KeyctlWriteActsOnTwoBits := by
  refine ⟨rfl, fun s v => ⟨fun hb h1 u h => ?_, fun hb h1 h0 u h => ?_, fun hb h1 h0 => ?_, fun hb => ?_, ?_⟩⟩
  · exact writeLeaves_keyctl hb (decodeKeyctl_clear h1) h
  · exact writeLeaves_keyctl hb (decodeKeyctl_load h1 h0) h
  · exact writeLeaves_storeLoc (o := 0x03C) (by decide) (fun _ => decodeKeyctl_none h1 h0) (by simp [hb])
  · exact writeLeaves_blocked v hb (by decide)
  · exact readsAs_of_not_resultLoc s (o := 0x03C) (by decide) rfl

/-- A completion leaves `DONE` at 1 and `INT_EN` as it was, so `IRQ` is the enable (60_exceptions.md R224). -/
theorem irq_engineStep {s t : State} (h : engineStep s = .next t) : irq t = s.doneIe := by
  obtain ⟨-, -, hdone, -, -, -, -, hie⟩ := engineStep_frame h
  simp [irq, hdone, hie]

/-- Settles O25: `INT_EN` is neither busy-blocked nor a result location. -/
theorem interruptEnableAndLevel : Obligations.InterruptEnableAndLevel := by
  refine ⟨fun s v => ⟨?_, ?_⟩, rfl, fun _ => rfl, fun _ _ => irq_engineStep⟩
  · exact writeLeaves_storeLoc (o := 0x00C) (by decide) (by simp) (Bool.and_false s.busy)
  · exact readsAs_of_not_resultLoc s (o := 0x00C) (by decide) rfl

end Sys2Proof.Machine
end

section
/-! PROOFS. The buffer window (20_memory.md R61): the byte order of a bus word, and what an idle access to a
buffer word reads and writes. -/

namespace Sys2Proof.Machine
open Sys2Proof Sys2Proof.Claims

/-- Bits `[8b+7 : 8b]` of a bus word are byte `b` of the four bytes it is read from. -/
theorem leWord_extractLsb' {l : List Byte} (hl : l.length = 4) (b : Fin 4) :
    (leWord l).extractLsb' (8 * b) 8 = l[b.val] := by
  have hbytes : leBytes 4 (leWord l).toNat = l := leBytes4_leVal_of_length l hl
  have hbyte := leBytes_getElem? (leWord l) b b.isLt
  rw [hbytes, List.getElem?_eq_getElem (by omega)] at hbyte
  exact (Option.some.inj hbyte).symm

/-- Storing a word puts its bits `[8b+7 : 8b]` at the `b`th byte. -/
theorem readByte_memWrite_leBytes {m : Memory} (hm : Memory.wf m) (a : Nat) (v : Word) (b : Fin 4) :
    readByte (memWrite m a (leBytes 4 v.toNat)) (a + b) = v.extractLsb' (8 * b) 8 := by
  rw [readByte_memWrite_inside hm a _ b (by simp)]
  exact List.getElem_of_getElem? (leBytes_getElem? v b b.isLt) |>.2

theorem locate_bufWord (j : Nat) : locate (0x1000 + 4 * j) = .buf (4 * j) := by
  rw [locate_buf (by omega), Nat.add_sub_cancel_left]

/-- What a write leaves in every schedule, as the next step of a state that has the write ahead. -/
theorem step_of_writeLeaves {s t : State} {o : Nat} {v : Word} {rest : List Event}
    (hw : WriteLeaves s o v t) (h : NextIsWrite s o v rest) :
    step s = .next { t with events := rest, response := .written } := by
  have hs : { s with events := .access (.write o 32 v) :: rest } = s := by rw [← h]
  exact hs ▸ hw rest

/-- While idle, a host write to buffer word `j` stores its four bytes from offset `4j` on. -/
theorem writeLeaves_bufWord {s : State} {j : Nat} (v : Word) (hb : s.busy = false) (hj : j < 1024) :
    WriteLeaves s (0x1000 + 4 * j) v { s with buf := memWrite s.buf (4 * j) (leBytes 4 v.toNat) } := by
  have hw : WriteLeaves s (0x1000 + 4 * j) v (storeLoc s v (locate (0x1000 + 4 * j))) :=
    writeLeaves_storeLoc (by omega) (by omega) (by simp [hb])
  rwa [locate_bufWord] at hw

/-- While idle, a host read of buffer word `j` returns the word of the four bytes from offset `4j` on. -/
theorem readsAs_bufWord {s : State} {j : Nat} (hb : s.busy = false) (hj : j < 1024) :
    ReadsAs s (0x1000 + 4 * j) (leWord (memRead s.buf (4 * j) 4)) := by
  have hr : ReadsAs s (0x1000 + 4 * j) (locValue s (locate (0x1000 + 4 * j))) :=
    readsAs_locValue (by omega) (by simp [hb])
  rwa [locate_bufWord] at hr

/-- Settles O21: an access to a buffer word is a store or a load of its four bytes, and the byte order of a word
is that of `leBytes`; the register groups are made of the same words. -/
theorem bufferWindowIsLittleEndian : Obligations.BufferWindowIsLittleEndian := by
  refine ⟨fun s j v rest hm hb hj h => ?_, fun s j hb hj => ?_, fun _ => regBytes_getElem?, regBytes_setRegBytes⟩
  · refine ⟨_, step_of_writeLeaves (writeLeaves_bufWord v hb hj) h, rfl, fun b => ?_, fun a ha => ?_⟩
    · exact readByte_memWrite_leBytes hm (4 * j) v b
    · exact readByte_memWrite_outside s.buf (4 * j) _ a (by simpa using ha)
  · refine ⟨_, readsAs_bufWord hb hj, fun b => ?_⟩
    rw [leWord_extractLsb' (memRead_length _ _ _), memRead_getElem]

end Sys2Proof.Machine
end

section
/-! PROOFS. The encoding (30_encoding.md): a word is its four fields, and what the decoder answers is said in
them. -/

namespace Sys2Proof
open Sys2Proof.Laws

/-- A word is its four fields (30_encoding.md R80). -/
theorem append_fields (w : Word) : rsv1Field w ++ digitsField w ++ rsv0Field w ++ opField w = w :=
  calc rsv1Field w ++ digitsField w ++ rsv0Field w ++ opField w
    _ = w.extractLsb' 8 24 ++ rsv0Field w ++ opField w :=
        congrArg (· ++ rsv0Field w ++ opField w) (BitVec.extractLsb'_append_extractLsb'_eq_extractLsb' rfl)
    _ = w.extractLsb' 4 28 ++ opField w :=
        congrArg (· ++ opField w) (BitVec.extractLsb'_append_extractLsb'_eq_extractLsb' rfl)
    _ = w.extractLsb' 0 32 := BitVec.extractLsb'_append_extractLsb'_eq_extractLsb' rfl
    _ = w := BitVec.extractLsb'_eq_self

/-- A word without reserved bits is the command word of its `OP` and `DIGITS`. -/
theorem eq_cmdWord {w : Word} (h0 : rsv0Field w = 0) (h1 : rsv1Field w = 0) :
    w = cmdWord (opField w) (digitsField w) := by
  rw [cmdWord, ← h0, ← h1, append_fields]

/-- The fields of a command word are those it is made of, the reserved ones 0. -/
@[simp] theorem fields_cmdWord (op digits : BitVec 4) :
    opField (cmdWord op digits) = op ∧ digitsField (cmdWord op digits) = digits ∧
      rsv0Field (cmdWord op digits) = 0 ∧ rsv1Field (cmdWord op digits) = 0 := by
  revert op digits
  decide

/-- A command word as the sum of its `OP` and its shifted `DIGITS` (30_encoding.md R80). -/
theorem cmdWord_eq_add (op digits : BitVec 4) :
    cmdWord op digits = op.setWidth 32 + (digits.setWidth 32 <<< 8) := by
  revert op digits
  decide

/-- The decoder of an instruction's port reads every well-formed instruction back from its word. -/
theorem encodeDecode : ∀ i : Instr, EncodeDecode.Statement i
  | .hmacSha1 => EncodeDecode.hmacSha1
  | .hotp digits => EncodeDecode.hotp digits
  | .hotpTrunc digits => EncodeDecode.hotpTrunc digits
  | .b32Enc => EncodeDecode.b32Enc
  | .b32Dec => EncodeDecode.b32Dec
  | .gcmEnc => EncodeDecode.gcmEnc
  | .gcmDec => EncodeDecode.gcmDec
  | .keyLoad => EncodeDecode.keyLoad
  | .keyClear => EncodeDecode.keyClear

theorem decode_cmd_ok_iff {w : Word} {i : Instr} : decode .cmd w = .ok i ↔ decodeCmd w = .ok i := by
  unfold decode
  cases decodeCmd w <;> simp

/-- The command an `OP` names, with the `DIGITS` value it needs, is well-formed and has those fields in its
word. -/
theorem encode_opCommand {op digits : BitVec 4} {i : Instr} (h : opCommand op digits = some i)
    (hd : digits = if usesDigits i then 6 else 0) : i.wellFormed = true ∧ encode i = cmdWord op digits := by
  unfold opCommand at h
  repeat' split at h
  all_goals cases h
  all_goals simp_all [usesDigits, Instr.wellFormed, encode]

/-- The words that decode to a command are those of the well-formed commands, each to its own. -/
theorem decodeCmd_ok_iff {w : Word} {i : Instr} :
    decodeCmd w = .ok i ↔ portOf i = .cmd ∧ i.wellFormed = true ∧ w = encode i := by
  constructor
  · intro h
    obtain ⟨h0, h1, hop, hd⟩ := decodeCmd_ok h
    obtain ⟨hwf, henc⟩ := encode_opCommand hop hd
    exact ⟨portOf_decodeCmd h, hwf, (eq_cmdWord h0 h1).trans henc.symm⟩
  · rintro ⟨hp, hwf, rfl⟩
    exact decode_cmd_ok_iff.1 (hp ▸ encodeDecode i hwf)

/-- The seven legal command words, each with its command (30_encoding.md R86). -/
def legalCommandWords : List (Word × Instr) :=
  [(0x00000001, .hmacSha1), (0x00000602, .hotp 6), (0x00000603, .hotpTrunc 6), (0x00000004, .b32Enc),
    (0x00000005, .b32Dec), (0x00000006, .gcmEnc), (0x00000007, .gcmDec)]

/-- The seven are the words of the well-formed commands. -/
theorem mem_legalCommandWords_iff {w : Word} {i : Instr} :
    (w, i) ∈ legalCommandWords ↔ portOf i = .cmd ∧ i.wellFormed = true ∧ w = encode i := by
  cases i with
  | hotp d | hotpTrunc d =>
    by_cases hd : d = 6
    · subst hd
      simp [legalCommandWords, portOf, Instr.wellFormed, encode, cmdWord]
    · simp_all [legalCommandWords, Instr.wellFormed]
  | _ => simp [legalCommandWords, portOf, Instr.wellFormed, encode, cmdWord]

/-- A rejected command word fails with one of the two errors of 30_encoding.md R86. -/
theorem decodeCmd_error {w : Word} {e : ErrCode} (h : decodeCmd w = .error e) : e = .illegalCmd ∨ e = .badDigits := by
  unfold decodeCmd at h
  repeat' split at h
  all_goals simp_all

/-- HOTP and HOTP_TRUNC are the commands that use `DIGITS` (30_encoding.md R82). -/
theorem opCommand_usesDigits_iff (op digits : BitVec 4) :
    (∃ i, opCommand op digits = some i ∧ usesDigits i = true) ↔ op = 2 ∨ op = 3 := by
  revert op digits
  decide

/-- BAD_DIGITS is the answer to a HOTP or HOTP_TRUNC word with no reserved bit set and `DIGITS` other than 6
(30_encoding.md R82, R86). -/
theorem decodeCmd_badDigits_iff {w : Word} :
    decodeCmd w = .error .badDigits ↔ rsv0Field w = 0 ∧ rsv1Field w = 0 ∧ (opField w = 2 ∨ opField w = 3) ∧
      digitsField w ≠ 6 := by
  rw [← opCommand_usesDigits_iff _ (digitsField w)]
  constructor
  · intro h
    unfold decodeCmd at h
    repeat' split at h
    all_goals simp_all
  · rintro ⟨h0, h1, ⟨i, hop, huses⟩, hd⟩
    simpa [decodeCmd, h0, h1, hop, huses] using hd

/-- BAD_DIGITS is the answer to exactly two families of words (30_encoding.md R86). -/
theorem decodeCmd_badDigits_iff_exists {w : Word} :
    decodeCmd w = .error .badDigits ↔ ∃ d : BitVec 4, d ≠ 6 ∧ (w = cmdWord 2 d ∨ w = cmdWord 3 d) := by
  rw [decodeCmd_badDigits_iff]
  constructor
  · rintro ⟨h0, h1, hop, hd⟩
    have hw : w = cmdWord (opField w) (digitsField w) := eq_cmdWord h0 h1
    exact ⟨digitsField w, hd, hop.imp (fun h => by rwa [h] at hw) (fun h => by rwa [h] at hw)⟩
  · rintro ⟨d, hd, rfl | rfl⟩ <;> simpa using hd

/-- Settles O5: a word that decodes is a well-formed command's, a BAD_DIGITS word is its `OP` and `DIGITS`, and
the decoder has no third error. -/
theorem legalCommandWordsAreExactlySeven : Obligations.LegalCommandWordsAreExactlySeven := by
  intro w
  refine ⟨fun i => ?_, ?_, fun hok hbad => ?_⟩
  · exact decodeCmd_ok_iff.trans mem_legalCommandWords_iff.symm
  · simpa [cmdWord_eq_add] using decodeCmd_badDigits_iff_exists (w := w)
  · match h : decodeCmd w with
    | .ok i => exact absurd h (hok i)
    | .error e =>
      obtain rfl | rfl := decodeCmd_error h
      · rfl
      · exact absurd h hbad

end Sys2Proof
end

section
/-! PROOFS. What the commands' statements share (30_encoding.md R82 to R85): the one word of a command without
`DIGITS`, the bounds checks, and what a successful command with a byte-string result leaves. -/

namespace Sys2Proof.Machine
open Sys2Proof Sys2Proof.Claims

/-- The bits above `OP` are 0 exactly when the three fields they make up are (30_encoding.md R80). -/
theorem extractLsb'_aboveOp_eq_zero_iff (w : Word) :
    w.extractLsb' 4 28 = 0 ↔ rsv1Field w = 0 ∧ digitsField w = 0 ∧ rsv0Field w = 0 := by
  simp only [← BitVec.toNat_inj, rsv1Field, digitsField, rsv0Field, BitVec.extractLsb'_toNat, BitVec.ofNat_eq_ofNat,
    BitVec.toNat_ofNat, Nat.shiftRight_eq_div_pow]
  have := w.isLt
  omega

/-- A command without `DIGITS` has one word: its `OP`, every other bit 0 (30_encoding.md R82, R83). -/
theorem oneWord_of_not_usesDigits {op : BitVec 4} {i : Instr} (hop : ∀ digits, opCommand op digits = some i)
    (huses : usesDigits i = false) : OneWord op i := by
  intro w hw
  have hcmd : opCommand (opField w) (digitsField w) = some i := by rw [opField, hw, hop]
  rw [decodeCmd, hcmd]
  simp only [huses, extractLsb'_aboveOp_eq_zero_iff]
  by_cases hrsv : rsv0Field w ≠ 0 ∨ rsv1Field w ≠ 0
  · rw [if_pos hrsv, if_neg (by tauto)]
  · obtain ⟨h0, h1⟩ : rsv0Field w = 0 ∧ rsv1Field w = 0 := by tauto
    by_cases hd : digitsField w = 0 <;> simp_all

theorem src_eq_srcBytes (s : State) : src s = srcBytes s := rfl

theorem src_length (s : State) : (src s).length = s.srcLen.toNat := srcBytes_length s

theorem srcInBounds_iff (s : State) : srcInBounds s = true ↔ SrcOk s := inBounds_iff _ _

theorem dstInBounds_iff (s : State) (l : Nat) : dstInBounds s l = true ↔ DstOk s l := inBounds_iff _ _

/-- A command whose only writes are its result at `DST_ADDR` and `RES_LEN` completes with that result and nothing
else (60_exceptions.md R220, R221). -/
theorem succeed_writeResult_spec {s : State} {out : List Byte} (hm : Memory.wf s.buf) (hd : DstOk s out.length) :
    let t := succeed (writeResult s out)
    Completes s t out ∧ OnlyResults s t ∧ t.tag = s.tag ∧ t.digest = s.digest ∧ SameHotp s t := by
  have hstores : Stores s.buf (memWrite s.buf s.dstAddr.toNat out) s.dstAddr.toNat out :=
    ⟨memRead_memWrite_self hm _ _, readByte_memWrite_outside _ _ _⟩
  have hlen : (BitVec.ofNat 32 out.length).toNat = out.length := by
    rw [BitVec.toNat_ofNat, Nat.mod_eq_of_lt (by omega)]
  exact ⟨⟨hstores, hlen, rfl, rfl, rfl, rfl⟩, rfl, rfl, rfl, rfl, rfl, rfl⟩

end Sys2Proof.Machine
end

section
/-! PROOFS. Base32 (40_base32.md): the alphabet, the encoder's symbols and the two commands. -/

namespace Sys2Proof.Machine
open Sys2Proof Sys2Proof.Claims

/-! The alphabet. -/

/-- `SYMVAL` reads back what `SYM` writes (40_base32.md R100). -/
theorem b32SymVal_b32Sym : ∀ {j : Nat}, j < 32 → b32SymVal (b32Sym j) = some j := by
  decide

/-- A byte with a symbol value is that symbol. -/
theorem b32Sym_of_b32SymVal {c : Byte} {j : Nat} (h : b32SymVal c = some j) : j < 32 ∧ c = b32Sym j := by
  unfold b32SymVal at h
  split at h
  next hletter =>
    obtain rfl := Option.some.inj h
    rw [b32Sym, if_pos (by omega), Nat.add_sub_cancel' hletter.1]
    exact ⟨by omega, by simp⟩
  next =>
    split at h
    next hdigit =>
      obtain rfl := Option.some.inj h
      rw [b32Sym, if_neg (by omega), Nat.add_sub_cancel, Nat.add_sub_cancel' hdigit.1]
      exact ⟨by omega, by simp⟩
    next => cases h

/-- Settles O42: the table by evaluation, and the two directions of `SYM` and `SYMVAL`. -/
theorem base32AlphabetIsABijection : Obligations.Base32AlphabetIsABijection := by
  refine ⟨by decide, fun c j => ⟨b32Sym_of_b32SymVal, ?_⟩⟩
  rintro ⟨hj, rfl⟩
  exact b32SymVal_b32Sym hj

/-- No symbol is the padding character. -/
theorem b32Sym_ne_equals {j : Nat} (hj : j < 32) : b32Sym j ≠ 0x3D := by
  intro h
  have hval : b32SymVal 0x3D = some j := h ▸ b32SymVal_b32Sym hj
  exact absurd hval (by simp [b32SymVal])

/-! Bit strings. -/

theorem bitsVal_concat (s : List Bool) (x : Bool) : bitsVal (s ++ [x]) = Nat.bit x (bitsVal s) := by
  rw [Nat.bit_val]
  simp [bitsVal]

/-- Bit `i` of a bit string's value is its bit `i` from the end. -/
theorem testBit_bitsVal (s : List Bool) (i : Nat) : (bitsVal s).testBit i = s.reverse[i]?.getD false := by
  induction s using List.reverseRecOn generalizing i with
  | nil => simp [bitsVal]
  | append_singleton s x ih =>
    rw [bitsVal_concat]
    cases i with
    | zero => simp
    | succ i => simp [Nat.testBit_bit_succ, ih]

theorem bitsVal_lt (s : List Bool) : bitsVal s < 2 ^ s.length := by
  refine Nat.lt_pow_two_of_testBit _ fun i hi => ?_
  rw [testBit_bitsVal, List.getElem?_eq_none (by simpa using hi)]
  rfl

@[simp] theorem bitString_length (b : List Byte) : (bitString b).length = 8 * b.length := by
  induction b with
  | nil => rfl
  | cons x b ih =>
    rw [bitString, List.flatMap_cons, List.length_append, ← bitString, ih]
    simp [byteBits]
    omega

theorem byteBits_getElem? (x : Byte) : ∀ {r : Nat}, r < 8 → (byteBits x)[r]? = some (x.getLsbD (7 - r))
  | 0, _ | 1, _ | 2, _ | 3, _ | 4, _ | 5, _ | 6, _ | 7, _ => rfl

/-- Bit `p` of a bit string is bit `7 - p mod 8` of byte `floor(p/8)`; past the end both are 0. -/
theorem bitString_getElem? (b : List Byte) (p : Nat) :
    (bitString b)[p]?.getD false = (b[p / 8]?.getD 0).getLsbD (7 - p % 8) := by
  by_cases hp : p / 8 < b.length
  · have hbit := flatMap_getElem? byteBits 8 (fun _ => rfl) b (p / 8) (p % 8) hp (Nat.mod_lt _ (by decide))
    rw [Nat.div_add_mod, byteBits_getElem? _ (Nat.mod_lt _ (by decide))] at hbit
    simp [bitString, hbit, hp]
  · rw [List.getElem?_eq_none (by simp; omega), List.getElem?_eq_none (by omega)]
    simp

/-! The encoder. -/

/-- `S'`: the bit string of the input, filled with zero bits to whole symbols (40_base32.md R101). -/
def b32Padded (b : List Byte) : List Bool :=
  bitString b ++ List.replicate (5 * b32EncLen b.length - 8 * b.length) false

/-- `S'[5j .. 5j+5)`: the bits of symbol `j` (40_base32.md R101). -/
def b32SymbolBits (b : List Byte) (j : Nat) : List Bool := ((b32Padded b).drop (5 * j)).take 5

theorem b32Padded_length (b : List Byte) : (b32Padded b).length = 5 * b32EncLen b.length := by
  simp [b32Padded, b32EncLen]
  omega

/-- The zero fill reads as the bits past the end of the input do. -/
theorem b32Padded_getElem? (b : List Byte) (p : Nat) :
    (b32Padded b)[p]?.getD false = (b[p / 8]?.getD 0).getLsbD (7 - p % 8) := by
  rw [← bitString_getElem?, b32Padded, List.getElem?_append]
  split
  next => rfl
  next hp =>
    rw [List.getElem?_eq_none (l := bitString b) (by omega), List.getElem?_replicate]
    split <;> rfl

theorem b32SymbolBits_length {b : List Byte} {j : Nat} (hj : j < b32EncLen b.length) :
    (b32SymbolBits b j).length = 5 := by
  simp [b32SymbolBits, b32Padded_length]
  omega

/-- Symbol `j` of the output is the symbol of bits `5j` to `5j+4` of `S'` (40_base32.md R101). -/
theorem b32Encode_getElem? {b : List Byte} {j : Nat} (hj : j < b32EncLen b.length) :
    (b32Encode b)[j]? = some (b32Sym (bitsVal (b32SymbolBits b j))) := by
  rw [List.getElem?_eq_getElem (by simpa using hj)]
  simp [b32Encode, pieces_getElem, b32SymbolBits, b32Padded]

theorem bitsVal_b32SymbolBits_lt {b : List Byte} {j : Nat} (hj : j < b32EncLen b.length) :
    bitsVal (b32SymbolBits b j) < 32 := by
  simpa [b32SymbolBits_length hj] using bitsVal_lt (b32SymbolBits b j)

/-- Bit `k` of symbol `j`, the most significant first, is bit `5j + k` of the input's bit string. -/
theorem testBit_b32SymbolBits {b : List Byte} {j k : Nat} (hj : j < b32EncLen b.length) (hk : k < 5) :
    (bitsVal (b32SymbolBits b j)).testBit (4 - k) =
      (b[(5 * j + k) / 8]?.getD 0).getLsbD (7 - (5 * j + k) % 8) := by
  have hlen := b32SymbolBits_length hj
  rw [testBit_bitsVal, List.getElem?_reverse (by omega), hlen, show 5 - 1 - (4 - k) = k by omega, b32SymbolBits,
    List.getElem?_take_of_lt hk, List.getElem?_drop, b32Padded_getElem?]

/-- Settles O43: the output is the symbols of the pieces of `S'`, each of five bits. -/
theorem base32EncodeTakesFiveBitsASymbol : Obligations.Base32EncodeTakesFiveBitsASymbol := by
  refine fun b => ⟨b32Encode_length b, fun hmem => ?_, fun j hj => ?_⟩
  · obtain ⟨j, hlen, heq⟩ := List.getElem_of_mem hmem
    have hj : j < b32EncLen b.length := by simpa using hlen
    have hsym := b32Encode_getElem? hj
    rw [List.getElem?_eq_getElem hlen, heq] at hsym
    exact b32Sym_ne_equals (bitsVal_b32SymbolBits_lt hj) (Option.some.inj hsym).symm
  · exact ⟨_, b32Encode_getElem? hj, bitsVal_b32SymbolBits_lt hj, fun k => testBit_b32SymbolBits hj⟩

/-! The commands. -/

/-- `B32_ENC` in bounds (40_base32.md R107). -/
theorem exec_b32Enc_ok {s : State} (hs : SrcOk s) (hd : DstOk s (b32EncLen s.srcLen.toNat)) :
    exec .b32Enc s = .next (succeed (writeResult s (b32Encode (src s)))) :=
  complete_ok ((performB32Enc_ok_iff _ _).2 ⟨(srcInBounds_iff s).2 hs, (dstInBounds_iff s _).2 hd, rfl⟩)

/-- `B32_ENC` with a region out of bounds (40_base32.md R107). -/
theorem b32Enc_failsWith_range {s : State} (h : ¬(SrcOk s ∧ DstOk s (b32EncLen s.srcLen.toNat))) :
    FailsWith .b32Enc s 6 := by
  refine complete_error (e := .range) ?_
  rw [← srcInBounds_iff, ← dstInBounds_iff] at h
  cases hsrc : srcInBounds s with
  | false => simp [performB32Enc, hsrc]
  | true =>
    have hdst : dstInBounds s (b32EncLen s.srcLen.toNat) = false := by simpa [hsrc] using h
    simp [performB32Enc, hsrc, hdst]

/-- `B32_DEC` in bounds (40_base32.md R108). -/
theorem exec_b32Dec_ok {s : State} (hs : SrcOk s) (hd : DstOk s (b32Decode (src s)).length) :
    exec .b32Dec s = .next (succeed (writeResult s (b32Decode (src s)))) :=
  complete_ok ((performB32Dec_ok_iff _ _).2 ⟨(srcInBounds_iff s).2 hs, (dstInBounds_iff s _).2 hd, rfl⟩)

/-- `B32_DEC` with a region out of bounds (40_base32.md R108). -/
theorem b32Dec_failsWith_range {s : State} (h : ¬(SrcOk s ∧ DstOk s (b32Decode (src s)).length)) :
    FailsWith .b32Dec s 6 := by
  refine complete_error (e := .range) ?_
  rw [← srcInBounds_iff, ← dstInBounds_iff] at h
  cases hsrc : srcInBounds s with
  | false => simp [performB32Dec, hsrc]
  | true =>
    have hdst : dstInBounds s (b32Decode (srcBytes s)).length = false := by simpa [hsrc, src_eq_srcBytes] using h
    simp [performB32Dec, hsrc, hdst]

/-- Settles O35: in bounds the command writes the text alone, and else it fails with RANGE. -/
theorem base32EncodeWritesTheText : Obligations.Base32EncodeWritesTheText := by
  refine ⟨oneWord_of_not_usesDigits (fun _ => rfl) rfl, fun s => ⟨fun hm hs hd => ?_, b32Enc_failsWith_range⟩⟩
  have hlen : (b32Encode (src s)).length = (8 * s.srcLen.toNat + 4) / 5 := by
    rw [b32Encode_length, src_length, b32EncLen]
  obtain ⟨hcompletes, hframe⟩ := succeed_writeResult_spec (out := b32Encode (src s)) hm (hlen ▸ hd)
  have ⟨_, hres, _⟩ := hcompletes
  exact ⟨_, exec_b32Enc_ok hs hd, hcompletes, hres.trans hlen, hframe⟩

/-- Settles O36: in bounds the command writes the bytes alone, at most five for eight bytes of text, and else it
fails with RANGE. -/
theorem base32DecodeWritesTheBytes : Obligations.Base32DecodeWritesTheBytes := by
  refine ⟨oneWord_of_not_usesDigits (fun _ => rfl) rfl, fun s => ⟨fun hm hs hd => ?_, b32Dec_failsWith_range⟩⟩
  obtain ⟨hcompletes, honly, htag, hdigest, hhotp⟩ := succeed_writeResult_spec hm hd
  refine ⟨_, exec_b32Dec_ok hs hd, hcompletes, honly, htag, hdigest, hhotp, fun hne => ?_⟩
  have ⟨_, hres, _⟩ := hcompletes
  have hle := b32Decode_length_le (src s)
  have hpos : s.srcLen.toNat ≠ 0 := fun h => hne (BitVec.eq_of_toNat_eq h)
  rw [src_length] at hle
  rw [hres]
  omega

end Sys2Proof.Machine
end

section
/-! PROOFS. SHA-1 (41_hmac_sha1.md R120, R122): the padding's least count of zeros, and the message schedule. -/

namespace Sys2Proof.Machine

/-! The padding. -/

/-- The zeros fill the message and its 0x80 up to eight bytes short of whole blocks. -/
theorem sha1PadZeros_spec (len : Nat) : (len + 1 + sha1PadZeros len) % 64 = 56 := by
  unfold sha1PadZeros
  omega

theorem sha1PadZeros_le {len y : Nat} (h : (len + 1 + y) % 64 = 56) : sha1PadZeros len ≤ y := by
  unfold sha1PadZeros
  omega

theorem sha1Pad_length (m : List Byte) : (sha1Pad m).length = m.length + 1 + sha1PadZeros m.length + 8 := by
  simp [sha1Pad]
  omega

/-- Settles O47: the padding is the message, 0x80, the least zeros up to 56 mod 64, and the eight length bytes. -/
theorem sha1PaddingFillsWholeBlocks : Obligations.Sha1PaddingFillsWholeBlocks := by
  intro m
  have hz := sha1PadZeros_spec m.length
  have hlen := sha1Pad_length m
  exact ⟨sha1PadZeros m.length, (sha1Pad m).length / 64, by omega, rfl, by omega, hz, fun _ => sha1PadZeros_le⟩

/-! The message schedule. -/

/-- The word the recurrence of R122 adds to a schedule held newest first. -/
def sha1NextWord (w : List Word) : Word :=
  rotl32 (w.getD 2 0 ^^^ w.getD 7 0 ^^^ w.getD 13 0 ^^^ w.getD 15 0) 1

/-- The last of the extensions adds the next word to what the others made. -/
theorem sha1Extend_succ (n : Nat) (w : List Word) :
    sha1Extend (n + 1) w = sha1NextWord (sha1Extend n w) :: sha1Extend n w := by
  induction n generalizing w with
  | zero => rfl
  | succ n ih => exact ih (sha1NextWord w :: w)

@[simp] theorem sha1Extend_length (n : Nat) (w : List Word) : (sha1Extend n w).length = n + w.length := by
  induction n with
  | zero => simp [sha1Extend]
  | succ n ih => rw [sha1Extend_succ, List.length_cons, ih, Nat.succ_add]

/-- The words of fewer extensions stand behind those added later. -/
theorem sha1Extend_drop (m n : Nat) (w : List Word) : (sha1Extend (m + n) w).drop m = sha1Extend n w := by
  induction m with
  | zero => rw [Nat.zero_add, List.drop_zero]
  | succ m ih => rw [Nat.succ_add, sha1Extend_succ, List.drop_succ_cons, ih]

@[simp] theorem sha1BlockWords_length (block : List Byte) : (sha1BlockWords block).length = 16 := by
  simp [sha1BlockWords]

@[simp] theorem sha1Schedule_length (block : List Byte) : (sha1Schedule block).length = 80 := by
  simp [sha1Schedule]

/-- The schedule after `k` extensions, oldest first, is the first `16 + k` words of the whole one. -/
theorem sha1Extend_reverse_eq_take (block : List Byte) {k : Nat} (hk : k ≤ 64) :
    (sha1Extend k (sha1BlockWords block).reverse).reverse = (sha1Schedule block).take (16 + k) := by
  have hdrop := sha1Extend_drop (64 - k) k (sha1BlockWords block).reverse
  rw [Nat.sub_add_cancel hk] at hdrop
  rw [sha1Schedule, List.take_reverse, ← hdrop]
  simp
  omega

/-- Word `i` of the schedule after `k` extensions, the newest first. -/
theorem sha1Extend_getElem? (block : List Byte) {k i : Nat} (hk : k ≤ 64) (hi : i < 16 + k) :
    (sha1Extend k (sha1BlockWords block).reverse)[i]? = (sha1Schedule block)[15 + k - i]? := by
  rw [← List.reverse_reverse (sha1Extend k _), sha1Extend_reverse_eq_take block hk,
    List.getElem?_reverse (by simp; omega), List.getElem?_take_of_lt (by simp; omega)]
  congr 1
  simp
  omega

/-- The schedule begins with the block's sixteen words. -/
theorem sha1Schedule_getElem?_of_lt (block : List Byte) {t : Nat} (ht : t < 16) :
    (sha1Schedule block)[t]? = (sha1BlockWords block)[t]? := by
  have htake := sha1Extend_reverse_eq_take block (Nat.zero_le 64)
  rw [sha1Extend, List.reverse_reverse] at htake
  rw [htake, List.getElem?_take_of_lt ht]

/-- Word `t` of a block is the big-endian value of its bytes `4t` to `4t + 3`. -/
theorem sha1BlockWords_getElem? (block : List Byte) {t : Nat} (ht : t < 16) :
    (sha1BlockWords block)[t]? = some (BitVec.ofNat 32 (beVal ((block.drop (4 * t)).take 4))) := by
  rw [List.getElem?_eq_getElem (by simpa using ht)]
  simp [sha1BlockWords, pieces_getElem]

/-- Word `16 + k` of the schedule is the one the recurrence adds to the words before it. -/
theorem sha1Schedule_getElem?_add (block : List Byte) {k : Nat} (hk : k < 64) :
    (sha1Schedule block)[16 + k]? = some (sha1NextWord (sha1Extend k (sha1BlockWords block).reverse)) := by
  have hnew := sha1Extend_getElem? block (k := k + 1) (i := 0) hk (by omega)
  rw [sha1Extend_succ, List.getElem?_cons_zero, show 15 + (k + 1) - 0 = 16 + k by omega] at hnew
  exact hnew.symm

/-- Settles O48: the first sixteen words are the block's, and the places 2, 7, 13 and 15 of a schedule held newest
first are the words 3, 8, 14 and 16 before the next. -/
theorem sha1ScheduleFollowsItsRecurrence : Obligations.Sha1ScheduleFollowsItsRecurrence := by
  refine fun block _ => ⟨sha1Schedule_length block, fun t ht => ?_, fun t hlo hhi => ?_⟩
  · rw [sha1Schedule_getElem?_of_lt block ht, sha1BlockWords_getElem? block ht]
  · obtain ⟨k, rfl⟩ := Nat.exists_eq_add_of_le hlo
    have hback : ∀ i < 16, (sha1Extend k (sha1BlockWords block).reverse).getD i 0 =
        (sha1Schedule block).getD (16 + k - (i + 1)) 0 := fun i hi => by
      rw [List.getD_eq_getElem?_getD, sha1Extend_getElem? block (by omega) (by omega), List.getD_eq_getElem?_getD]
      congr 2
      omega
    rw [sha1Schedule_getElem?_add block (by omega), sha1NextWord, hback 2 (by decide), hback 7 (by decide),
      hback 13 (by decide), hback 15 (by decide)]

end Sys2Proof.Machine
end

section
/-! PROOFS. HMAC-SHA1 (41_hmac_sha1.md R126 to R128): the key block, the nested hash and the command. -/

namespace Sys2Proof.Machine
open Sys2Proof Sys2Proof.Claims

/-! The algorithm. -/

/-- Exclusive or with a string of one byte, as long as the operand, is that byte's on every byte. -/
theorem xorBytes_replicate {b : List Byte} {n : Nat} (hb : b.length = n) (c : Byte) :
    xorBytes b (List.replicate n c) = b.map (· ^^^ c) := by
  refine List.ext_getElem (by simp [hb]) fun i _ _ => ?_
  simp [xorBytes]

/-- The nested hash with the exclusive or on every byte of the key block (41_hmac_sha1.md R127). -/
theorem hmacSha1_eq (k m : List Byte) :
    hmacSha1 k m =
      sha1 ((hmacKeyBlock k).map (· ^^^ 0x5C) ++ sha1 ((hmacKeyBlock k).map (· ^^^ 0x36) ++ m)) := by
  simp only [hmacSha1, xorBytes_replicate (hmacKeyBlock_length k)]

/-- The key counts only by its block. -/
theorem hmacSha1_congr {k k' : List Byte} (h : hmacKeyBlock k = hmacKeyBlock k') (m : List Byte) :
    hmacSha1 k m = hmacSha1 k' m := by
  simp only [hmacSha1, h]

theorem hmacKeyBlock_of_le {k : List Byte} (hk : k.length ≤ 64) : hmacKeyBlock k = k ++ zeros (64 - k.length) :=
  if_pos hk

theorem hmacKeyBlock_of_lt {k : List Byte} (hk : 64 < k.length) : hmacKeyBlock k = sha1 k ++ zeros 44 :=
  if_neg (Nat.not_le.2 hk)

/-- A key longer than a block has its hash's key block. -/
theorem hmacKeyBlock_sha1 {k : List Byte} (hk : 64 < k.length) : hmacKeyBlock (sha1 k) = hmacKeyBlock k := by
  rw [hmacKeyBlock_of_lt hk, hmacKeyBlock_of_le (by simp), sha1_length]

/-- Zeros behind a key, up to a block in all, leave its key block. -/
theorem hmacKeyBlock_append_zeros {k : List Byte} {z : Nat} (h : k.length + z ≤ 64) :
    hmacKeyBlock (k ++ zeros z) = hmacKeyBlock k := by
  rw [hmacKeyBlock_of_le (by simpa using h), hmacKeyBlock_of_le (by omega), List.append_assoc]
  simp [zeros]
  omega

/-- Settles O49: `k0` of the statement is the model's key block, which alone decides the result. -/
theorem hmacKeysAreHashedOrFilledToABlock : Obligations.HmacKeysAreHashedOrFilledToABlock := fun k m =>
  ⟨hmacKeyBlock_length k, hmacSha1_eq k m, sha1_length k, hmacSha1_length k m,
    fun hk => hmacSha1_congr (hmacKeyBlock_sha1 hk).symm m,
    fun _ hz => hmacSha1_congr (hmacKeyBlock_append_zeros hz) m⟩

/-! The command. -/

theorem keyInBounds_iff (s : State) : keyInBounds s = true ↔ KeyRegionOk s := inBounds_iff _ _

/-- A digest written besides leaves what a completion stores and answers. -/
theorem completes_writeDigest {s t : State} {out : List Byte} (h : Completes s t out) (d : List Byte) :
    Completes s (writeDigest t d) out := h

/-- A digest is a result. -/
theorem onlyResults_writeDigest {s t : State} (h : OnlyResults s t) (d : List Byte) :
    OnlyResults s (writeDigest t d) := congrArg (writeDigest · d) h

/-- `HMAC_SHA1` in bounds (41_hmac_sha1.md R128). -/
theorem exec_hmacSha1_ok {s : State} (hs : SrcOk s) (hk : KeyRegionOk s) (hd : DstOk s 20) :
    let d := hmacSha1 (hmacKey s) (src s)
    exec .hmacSha1 s = .next (writeDigest (succeed (writeResult s d)) d) :=
  complete_ok ((performHmacSha1_ok_iff _ _).2
    ⟨(srcInBounds_iff s).2 hs, (keyInBounds_iff s).2 hk, (dstInBounds_iff s _).2 hd, rfl⟩)

/-- `HMAC_SHA1` has one error (41_hmac_sha1.md R128). -/
theorem performHmacSha1_error {s : State} {e : ErrCode} (h : performHmacSha1 s = .error e) : e = .range := by
  unfold performHmacSha1 at h
  repeat' split at h
  all_goals simp_all

/-- `HMAC_SHA1` with a region out of bounds (41_hmac_sha1.md R128). -/
theorem hmacSha1_failsWith_range {s : State} (h : ¬(SrcOk s ∧ KeyRegionOk s ∧ DstOk s 20)) :
    FailsWith .hmacSha1 s 6 := by
  refine complete_error (e := .range) ?_
  cases hperform : performHmacSha1 s with
  | error e => rw [performHmacSha1_error hperform]
  | ok t =>
    obtain ⟨hs, hk, hd, -⟩ := (performHmacSha1_ok_iff s t).1 hperform
    exact absurd ⟨(srcInBounds_iff s).1 hs, (keyInBounds_iff s).1 hk, (dstInBounds_iff s _).1 hd⟩ h

/-- Settles O32: in bounds the command writes the digest to memory and to its registers alone, and else it fails
with RANGE. -/
theorem hmacSha1WritesTheDigest : Obligations.HmacSha1WritesTheDigest := by
  refine ⟨oneWord_of_not_usesDigits (fun _ => rfl) rfl,
    fun s => ⟨fun hm hs hk hd => ?_, hmacSha1_failsWith_range⟩⟩
  have hlen := hmacSha1_length (hmacKey s) (src s)
  obtain ⟨hcompletes, honly, htag, -, hhotp⟩ :=
    succeed_writeResult_spec (out := hmacSha1 (hmacKey s) (src s)) hm (hlen ▸ hd)
  exact ⟨_, exec_hmacSha1_ok hs hk hd, completes_writeDigest hcompletes _, congrArg (BitVec.ofNat 32) hlen,
    regBytes_setRegBytes 5 _ hlen, onlyResults_writeDigest honly _, htag, hhotp⟩

end Sys2Proof.Machine
end

section
/-! PROOFS. Dynamic truncation and the six digits (42_hotp.md R151 to R154): the three values in plain arithmetic,
what of the digest they depend on, and the rendering of a code. -/

namespace Sys2Proof.Machine

/-! The truncation. -/

/-- A byte's low nibble is the byte mod 16. -/
theorem toNat_and_lowNibble (b : Byte) : (b &&& 0x0F).toNat = b.toNat % 16 :=
  Nat.and_two_pow_sub_one_eq_mod b.toNat 4

/-- `OFF(D)` in plain arithmetic (42_hotp.md R151). -/
theorem hotpOffset_eq_mod (d : List Byte) : hotpOffset d = (d.getD 19 0).toNat % 16 := toNat_and_lowNibble _

/-- One byte more at the end of a big-endian string is one more place. -/
theorem beVal_take_succ {b : List Byte} {n : Nat} (hn : n < b.length) :
    beVal (b.take (n + 1)) = 256 * beVal (b.take n) + (b.getD n 0).toNat := by
  rw [List.take_succ_eq_append_getElem hn, beVal, List.foldl_append, List.getD_eq_getElem _ _ hn]
  rfl

/-- The big-endian value of four bytes inside a string. -/
theorem beVal_drop_take_four {d : List Byte} {n : Nat} (hn : n + 3 < d.length) :
    beVal ((d.drop n).take 4) = 2 ^ 24 * (d.getD n 0).toNat + 2 ^ 16 * (d.getD (n + 1) 0).toNat +
      2 ^ 8 * (d.getD (n + 2) 0).toNat + (d.getD (n + 3) 0).toNat := by
  have hget (i : Nat) : (d.drop n).getD i 0 = d.getD (n + i) 0 := by simp [List.getD_eq_getElem?_getD]
  have hstep {k : Nat} (hk : k ≤ 3) := beVal_take_succ (b := d.drop n) (n := k) (by simp; omega)
  have hzero : beVal ((d.drop n).take 0) = 0 := rfl
  rw [hstep (k := 3) (by omega), hstep (k := 2) (by omega), hstep (k := 1) (by omega), hstep (k := 0) (by omega), hzero]
  simp only [hget, Nat.add_zero]
  omega

/-- `BIN(D)` is the four bytes' value without its top bit (42_hotp.md R152). -/
theorem hotpBinary_toNat (d : List Byte) :
    (hotpBinary d).toNat = beVal ((d.drop (hotpOffset d)).take 4) % 2 ^ 31 := by
  have hmask : (hotpBinary d).toNat = beVal ((d.drop (hotpOffset d)).take 4) % 2 ^ 32 % 2 ^ 31 := by
    rw [hotpBinary, BitVec.toNat_and, BitVec.toNat_ofNat]
    exact Nat.and_two_pow_sub_one_eq_mod _ 31
  omega

/-- The truncation depends on the low nibble of byte 19 and on the bytes before it alone (42_hotp.md R157). -/
theorem truncation_congr {d d' : List Byte} (htake : d'.take 19 = d.take 19) (hoff : hotpOffset d' = hotpOffset d) :
    hotpOffset d' = hotpOffset d ∧ hotpBinary d' = hotpBinary d ∧ hotpCodeOf d' = hotpCodeOf d := by
  have hbytes : (d'.drop (hotpOffset d)).take 4 = (d.drop (hotpOffset d)).take 4 := by
    have hle : hotpOffset d + 4 ≤ 19 := by have := hotpOffset_lt d; omega
    have hfirst := congrArg (List.take (hotpOffset d + 4)) htake
    simp only [List.take_take, Nat.min_eq_left hle] at hfirst
    rw [List.take_drop, List.take_drop, hfirst]
  have hbin : hotpBinary d' = hotpBinary d := by rw [hotpBinary, hotpBinary, hoff, hbytes]
  exact ⟨hoff, hbin, by rw [hotpCodeOf, hotpCodeOf, hbin]⟩

/-- Settles O50: the offset is at most 15, so the four bytes lie before byte 19, which counts by its nibble. -/
theorem truncationStaysInBounds : Obligations.TruncationStaysInBounds := by
  intro d hd
  have hoff := hotpOffset_lt d
  have hbin := hotpBinary_toNat d
  rw [beVal_drop_take_four (by omega)] at hbin
  refine ⟨hotpOffset_eq_mod d, hbin, rfl, hoff, by omega, hotpBinary_lt d, hotpCodeOf_lt d, fun x hx => ?_⟩
  have hlen : (d.take 19).length = 19 := by simp [hd]
  have hlast : (d.take 19 ++ [x]).getD 19 0 = x := by
    simp [List.getD_eq_getElem?_getD, hlen]
  exact truncation_congr (List.take_left' hlen) (by rw [hotpOffset, hlast, hx]; rfl)

/-! The digits. -/

/-- The ASCII code of a decimal digit fits a byte. -/
theorem asciiDigit_toNat (n : Nat) : (BitVec.ofNat 8 (0x30 + n % 10)).toNat = 0x30 + n % 10 := by
  rw [BitVec.toNat_ofNat]
  omega

/-- Byte `i` is the digit of weight `10 ^ (5 - i)` (42_hotp.md R154). -/
theorem digits6_getElem? (v : Nat) {i : Nat} (hi : i < 6) :
    (digits6 v)[i]? = some (BitVec.ofNat 8 (0x30 + v / 10 ^ (5 - i) % 10)) := by
  simp [digits6, hi]

/-- The six digits read from left to right are the number again. -/
theorem digits6_foldl {v : Nat} (hv : v < 1000000) :
    (digits6 v).foldl (fun n c => 10 * n + (c.toNat - 0x30)) 0 = v := by
  simp only [digits6, List.range, List.range.loop, List.map, List.foldl, asciiDigit_toNat, Nat.add_sub_cancel_left]
  omega

/-- Settles O51: each byte is its digit, and the six digits are the code's decimal expansion. -/
theorem codeIsRenderedInSixDigits : Obligations.CodeIsRenderedInSixDigits := by
  refine fun v hv => ⟨fun i hi => ?_, digits6_length v, fun c hc => ?_, digits6_foldl hv⟩
  · rw [digits6_getElem? v hi]
    exact asciiDigit_toNat _
  · obtain ⟨i, -, rfl⟩ := List.mem_map.1 hc
    rw [asciiDigit_toNat]
    omega

end Sys2Proof.Machine
end

section
/-! PROOFS. The commands `HOTP` and `HOTP_TRUNC` (42_hotp.md R155, R156). -/

namespace Sys2Proof.Machine
open Sys2Proof Sys2Proof.Claims

/-! What the two share. -/

/-- A command with `DIGITS` has one word: its `OP`, `DIGITS` 6, every other bit 0 (30_encoding.md R82, R83). -/
theorem oneDigitsWord_of_usesDigits {op : BitVec 4} {f : BitVec 4 → Instr}
    (hop : ∀ digits, opCommand op digits = some (f digits)) (huses : ∀ digits, usesDigits (f digits) = true) :
    OneDigitsWord op (f 6) := by
  intro w hw
  change decodeCmd w = if rsv0Field w ≠ 0 ∨ rsv1Field w ≠ 0 then .error .illegalCmd
    else if digitsField w ≠ 6 then .error .badDigits else .ok (f 6)
  have hcmd : opCommand (opField w) (digitsField w) = some (f (digitsField w)) := by rw [opField, hw, hop]
  rw [decodeCmd, hcmd]
  simp only [huses, if_true]
  by_cases hd : digitsField w = 6
  · rw [hd]
  · simp only [if_pos hd]

/-- Two bounds checks that do not both pass end in RANGE, whatever a command would do after them. -/
theorem range_of_not_inBounds {b c : Bool} (h : ¬(b = true ∧ c = true)) (r : Except ErrCode State) :
    (if !b then .error .range else if !c then .error .range else r) = Except.error ErrCode.range := by
  cases b with
  | false => rfl
  | true =>
    have hc : c = false := by simpa using h
    simp [hc]

/-- Both HOTP commands write the digits of a digest's code and the three values they come from, and nothing else. -/
theorem succeed_writeCode_spec {s : State} (d : List Byte) (hm : Memory.wf s.buf) (hd : DstOk s 6) :
    let t := succeed (writeCode s d)
    Completes s t (digits6 (hotpCodeOf d)) ∧ t.resLen = 6 ∧ HotpOf t d ∧ OnlyResults s t ∧ t.tag = s.tag ∧
      t.digest = s.digest := by
  have hlen := digits6_length (hotpCodeOf d)
  obtain ⟨hcompletes, -⟩ := succeed_writeResult_spec (out := digits6 (hotpCodeOf d)) hm (hlen ▸ hd)
  have hoff : (BitVec.ofNat 32 (hotpOffset d)).toNat = hotpOffset d :=
    Nat.mod_eq_of_lt (by have := hotpOffset_lt d; omega)
  have hcode : (BitVec.ofNat 32 (hotpCodeOf d)).toNat = hotpCodeOf d :=
    Nat.mod_eq_of_lt (by have := hotpCodeOf_lt d; omega)
  exact ⟨hcompletes, congrArg (BitVec.ofNat 32) hlen, ⟨hoff, rfl, hcode⟩, rfl, rfl, rfl⟩

/-! HOTP. -/

/-- `COUNTER` is `CNT_HI` above `CNT_LO` (10_state.md R35). -/
theorem counter_toNat (s : State) : (counter s).toNat = s.cntHi.toNat * 2 ^ 32 + s.cntLo.toNat := by
  rw [counter, BitVec.toNat_append, ← Nat.shiftLeft_add_eq_or_of_lt s.cntLo.isLt, Nat.shiftLeft_eq]

/-- The digest `HOTP` truncates, with the counter in plain arithmetic (42_hotp.md R150, R155). -/
theorem hotpDigest_eq (s : State) :
    hotpDigest s = hmacSha1 (hmacKey s) (beBytes 8 (s.cntHi.toNat * 2 ^ 32 + s.cntLo.toNat)) := by
  rw [← counter_toNat]
  rfl

/-- `HOTP` with a key, in bounds (42_hotp.md R155). -/
theorem exec_hotp_ok {s : State} (hne : s.keyLen ≠ 0) (hk : KeyRegionOk s) (hd : DstOk s 6) :
    exec (.hotp 6) s = .next (writeDigest (succeed (writeCode s (hotpDigest s))) (hotpDigest s)) :=
  complete_ok ((performHotp_ok_iff _ _ _).2
    ⟨rfl, hne, (keyInBounds_iff s).2 hk, (dstInBounds_iff s _).2 hd, rfl⟩)

/-- `HOTP` without a key (42_hotp.md R155). -/
theorem hotp_failsWith_keyEmpty {s : State} (h : s.keyLen = 0) : FailsWith (.hotp 6) s 5 :=
  complete_error (e := .keyEmpty) (by simp [performHotp, h])

/-- `HOTP` with a key and a region out of bounds (42_hotp.md R155). -/
theorem hotp_failsWith_range {s : State} (hne : s.keyLen ≠ 0) (h : ¬(KeyRegionOk s ∧ DstOk s 6)) :
    FailsWith (.hotp 6) s 6 := by
  rw [← keyInBounds_iff, ← dstInBounds_iff] at h
  refine complete_error (e := .range) ?_
  rw [performHotp, if_neg (not_not.2 rfl), if_neg hne, range_of_not_inBounds h]

/-- Settles O33: with a key and in bounds the command writes the code and the digest alone, and else it fails with
KEY_EMPTY or RANGE. -/
theorem hotpWritesTheCode : Obligations.HotpWritesTheCode := by
  refine ⟨oneDigitsWord_of_usesDigits (f := .hotp) (fun _ => rfl) (fun _ => rfl),
    fun s => ⟨fun hm hne hk hd => ?_, hotp_failsWith_keyEmpty, hotp_failsWith_range⟩⟩
  rw [← hotpDigest_eq]
  obtain ⟨hcompletes, hres, hhotp, honly, htag, -⟩ := succeed_writeCode_spec (hotpDigest s) hm hd
  have hlen : (hotpDigest s).length = 4 * 5 := hmacSha1_length _ _
  exact ⟨_, exec_hotp_ok hne hk hd, completes_writeDigest hcompletes _, hres, hhotp, regBytes_setRegBytes 5 _ hlen,
    onlyResults_writeDigest honly _, htag⟩

/-! HOTP_TRUNC. -/

/-- `HOTP_TRUNC` of 20 bytes, in bounds (42_hotp.md R156). -/
theorem exec_hotpTrunc_ok {s : State} (hlen : s.srcLen = 20) (hs : SrcOk s) (hd : DstOk s 6) :
    exec (.hotpTrunc 6) s = .next (succeed (writeCode s (src s))) :=
  complete_ok ((performHotpTrunc_ok_iff _ _ _).2
    ⟨rfl, hlen, (srcInBounds_iff s).2 hs, (dstInBounds_iff s _).2 hd, rfl⟩)

/-- `HOTP_TRUNC` of another length (42_hotp.md R156). -/
theorem hotpTrunc_failsWith_badLen {s : State} (h : s.srcLen ≠ 20) : FailsWith (.hotpTrunc 6) s 4 :=
  complete_error (e := .badLen) (by rw [performHotpTrunc, if_neg (not_not.2 rfl), if_pos h])

/-- `HOTP_TRUNC` of 20 bytes with a region out of bounds (42_hotp.md R156). -/
theorem hotpTrunc_failsWith_range {s : State} (hlen : s.srcLen = 20) (h : ¬(SrcOk s ∧ DstOk s 6)) :
    FailsWith (.hotpTrunc 6) s 6 := by
  rw [← srcInBounds_iff, ← dstInBounds_iff] at h
  refine complete_error (e := .range) ?_
  rw [performHotpTrunc, if_neg (not_not.2 rfl), if_neg (not_not.2 hlen), range_of_not_inBounds h]

/-- Settles O34: of 20 bytes and in bounds the command writes the code alone, and else it fails with BAD_LEN or
RANGE. -/
theorem hotpTruncWritesTheCode : Obligations.HotpTruncWritesTheCode :=
  ⟨oneDigitsWord_of_usesDigits (f := .hotpTrunc) (fun _ => rfl) (fun _ => rfl), fun s =>
    ⟨fun hm hlen hs hd => ⟨_, exec_hotpTrunc_ok hlen hs hd, succeed_writeCode_spec (src s) hm hd⟩,
      hotpTrunc_failsWith_badLen, hotpTrunc_failsWith_range⟩⟩

end Sys2Proof.Machine
end

section
/-! PROOFS. AES-256 (43_aes_gcm.md R171 to R176): the S-box, ShiftRows and MixColumns, and the key expansion. -/

namespace Sys2Proof.Machine

/-! The S-box. -/

/-- The affine transform of R171, with its constant 0x63. -/
def sboxAffine (y : Byte) : Byte :=
  y ^^^ y.rotateLeft 1 ^^^ y.rotateLeft 2 ^^^ y.rotateLeft 3 ^^^ y.rotateLeft 4 ^^^ 0x63

/-- The affine transform that undoes `sboxAffine`. -/
def sboxAffineInv (s : Byte) : Byte := s.rotateLeft 1 ^^^ s.rotateLeft 3 ^^^ s.rotateLeft 6 ^^^ 0x05

theorem sboxAffine_sboxAffineInv : ∀ s : Byte, sboxAffine (sboxAffineInv s) = s := by decide

/-- Behind the affine transform the table holds the inverse in GF(2^8), 0 for 0 (43_aes_gcm.md R171). -/
theorem gf8Mul_sboxAffineInv_sbox :
    ∀ x : Byte, (x = 0 ∧ sboxAffineInv (sbox x) = 0) ∨ gf8Mul x (sboxAffineInv (sbox x)) = 1 := by decide

/-- Settles O52: the inverse is the table entry with the affine transform undone. -/
theorem sboxIsInverseThenAffine : Obligations.SboxIsInverseThenAffine := fun x =>
  ⟨sboxAffineInv (sbox x), gf8Mul_sboxAffineInv_sbox x, (sboxAffine_sboxAffineInv (sbox x)).symm⟩

/-! ShiftRows and MixColumns. -/

/-- The doubling is the product by 2 (43_aes_gcm.md R172). -/
theorem gf8Mul_two : ∀ a : Byte, gf8Mul 2 a = xtime a := by decide

/-- The tripling is the product by 3 (43_aes_gcm.md R172). -/
theorem gf8Mul_three : ∀ a : Byte, gf8Mul 3 a = times3 a := by decide

/-- Row `r` moves left by `r` columns (43_aes_gcm.md R175). -/
theorem shiftRows_getElem? (s : List Byte) {r c : Nat} (hr : r < 4) (hc : c < 4) :
    (shiftRows s)[r + 4 * c]? = some (s.getD (r + 4 * ((c + r) % 4)) 0) := by
  have hrow : (r + 4 * c) % 4 = r := by omega
  have hcol : (r + 4 * c) / 4 = c := by omega
  rw [List.getElem?_eq_getElem (by rw [shiftRows_length]; omega)]
  simp only [shiftRows, List.getElem_map, List.getElem_range, hrow, hcol]

/-- Row `r` of a mixed column, from that row on (43_aes_gcm.md R176). -/
def mixedRow (col : Nat → Byte) (r : Nat) : Byte :=
  xtime (col r) ^^^ times3 (col ((r + 1) % 4)) ^^^ col ((r + 2) % 4) ^^^ col ((r + 3) % 4)

/-- MixColumns mixes the first column and goes on with the rest. -/
theorem mixColumns_cons (a0 a1 a2 a3 : Byte) (rest : List Byte) :
    mixColumns (a0 :: a1 :: a2 :: a3 :: rest) =
      (List.range 4).map (mixedRow fun i => (a0 :: a1 :: a2 :: a3 :: rest).getD i 0) ++ mixColumns rest := by
  simp only [mixColumns, List.range_succ, List.range_zero, List.nil_append, List.cons_append, List.map_cons,
    List.map_nil, List.cons.injEq, and_true]
  refine ⟨rfl, ?_, ?_, ?_⟩ <;>
  · simp only [mixedRow, Nat.reduceAdd, Nat.reduceMod, List.getD_cons_succ, List.getD_cons_zero]
    ac_rfl

/-- Row `r` of column `c` after MixColumns (43_aes_gcm.md R176). -/
theorem mixColumns_getElem? (s : List Byte) {r c : Nat} (hr : r < 4) (hc : 4 * c + 4 ≤ s.length) :
    (mixColumns s)[r + 4 * c]? = some (mixedRow (fun i => s.getD (i + 4 * c) 0) r) := by
  induction c generalizing s with
  | zero =>
    match s, hc with
    | a0 :: a1 :: a2 :: a3 :: rest, _ =>
      rw [mixColumns_cons, List.getElem?_append_left (by simpa using hr)]
      simp [hr]
  | succ c ih =>
    match s, hc with
    | a0 :: a1 :: a2 :: a3 :: rest, hc =>
      rw [mixColumns_cons, List.getElem?_append_right (by simp; omega)]
      exact ih rest (by simp only [List.length_cons] at hc; omega)

/-- Settles O54: each step by row and column, the doubling and the tripling being products in GF(2^8). -/
theorem roundStepsMoveAndMixAsStated : Obligations.RoundStepsMoveAndMixAsStated := by
  refine fun s hs r c hr hc => ⟨shiftRows_getElem? s hr hc, ?_⟩
  rw [gf8Mul_two, gf8Mul_three]
  exact mixColumns_getElem? s hr (by omega)

/-! The key expansion. -/

/-- The word that R173 adds at index `i` to a schedule held newest first. -/
def nextKeyWord (i : Nat) (w : List (List Byte)) : List Byte := xorBytes (w.getD 7 []) (keyTemp i (w.getD 0 []))

/-- The last of the extensions adds the next word to what the others made. -/
theorem keyExtend_succ (n i : Nat) (w : List (List Byte)) :
    keyExtend (n + 1) i w = nextKeyWord (i + n) (keyExtend n i w) :: keyExtend n i w := by
  induction n generalizing i w with
  | zero => rfl
  | succ n ih =>
    rw [keyExtend, ih, Nat.add_right_comm]
    rfl

/-- The words of fewer extensions stand behind those added later. -/
theorem keyExtend_drop (m n i : Nat) (w : List (List Byte)) : (keyExtend (m + n) i w).drop m = keyExtend n i w := by
  induction m with
  | zero => rw [Nat.zero_add, List.drop_zero]
  | succ m ih => rw [Nat.succ_add, keyExtend_succ, List.drop_succ_cons, ih]

/-- The schedule of a key after `n` extensions, newest first. -/
def keyWords (k : List Byte) (n : Nat) : List (List Byte) := keyExtend n 8 (pieces 4 8 k).reverse

@[simp] theorem keyWords_length (k : List Byte) (n : Nat) : (keyWords k n).length = n + 8 := by
  induction n with
  | zero => simp [keyWords, keyExtend]
  | succ n ih => rw [keyWords, keyExtend_succ, List.length_cons, ← keyWords, ih, Nat.succ_add]

@[simp] theorem keyExpansion_length (k : List Byte) : (keyExpansion k).length = 60 := by
  rw [keyExpansion, List.length_reverse, ← keyWords, keyWords_length]

/-- Word `i` of the schedule after `n` extensions, the newest first. -/
theorem keyWords_getElem? (k : List Byte) {n i : Nat} (hn : n ≤ 52) (hi : i < n + 8) :
    (keyWords k n)[i]? = (keyExpansion k)[n + 7 - i]? := by
  have hdrop : (keyWords k 52).drop (52 - n) = keyWords k n := by
    have h := keyExtend_drop (52 - n) n 8 (pieces 4 8 k).reverse
    rwa [Nat.sub_add_cancel hn] at h
  have hindex : 52 - n + i = (keyWords k 52).length - 1 - (n + 7 - i) := by
    rw [keyWords_length]
    omega
  rw [← hdrop, List.getElem?_drop, hindex, ← List.getElem?_reverse (by rw [keyWords_length]; omega)]
  rfl

/-- The expansion begins with the key's eight words. -/
theorem keyExpansion_getElem?_of_lt (k : List Byte) {i : Nat} (hi : i < 8) :
    (keyExpansion k)[i]? = some ((k.drop (4 * i)).take 4) := by
  have hword := keyWords_getElem? k (n := 0) (i := 7 - i) (by decide) (by omega)
  rw [show 0 + 7 - (7 - i) = i by omega] at hword
  rw [← hword, keyWords, keyExtend, List.getElem?_reverse (by simp; omega),
    List.getElem?_eq_getElem (by simp; omega), pieces_getElem]
  simp only [pieces_length]
  congr 4
  omega

/-- Word `8 + n` of the expansion is the one the recurrence adds to the words before it. -/
theorem keyExpansion_getElem?_add (k : List Byte) {n : Nat} (hn : n < 52) :
    (keyExpansion k)[8 + n]? = some (nextKeyWord (8 + n) (keyWords k n)) := by
  have hnew := keyWords_getElem? k (n := n + 1) (i := 0) hn (by omega)
  rw [keyWords, keyExtend_succ, List.getElem?_cons_zero, show n + 1 + 7 - 0 = 8 + n by omega] at hnew
  exact hnew.symm

/-- The word `i + 1` places before word `8 + n` stands at place `i` of the schedule that word is added to. -/
theorem keyWords_getD (k : List Byte) {n i : Nat} (hn : n < 52) (hi : i < 8) :
    (keyWords k n).getD i [] = (keyExpansion k).getD (8 + n - (i + 1)) [] := by
  rw [List.getD_eq_getElem?_getD, keyWords_getElem? k (by omega) (by omega), List.getD_eq_getElem?_getD]
  congr 2
  omega

theorem rotWord_eq_rotateLeft (p : List Byte) : rotWord p = p.rotateLeft 1 := by
  match p with
  | [] | [_] => rfl
  | a :: b :: r => simp [rotWord, List.rotateLeft]

/-- The round constants of R173, `RC[1]` first. -/
theorem roundConst_eq_getD {j : Nat} (hj : 0 < j) :
    roundConst j = [0x01, 0x02, 0x04, 0x08, 0x10, 0x20, 0x40].getD (j - 1) 0 := by
  obtain ⟨j, rfl⟩ := Nat.exists_eq_add_of_lt hj
  rfl

/-- `temp` of R173 with the rotation and the round constants written out. -/
theorem keyTemp_eq {i : Nat} (hi : 8 ≤ i) (p : List Byte) : keyTemp i p =
    if i % 8 = 0 then
      xorBytes ((p.rotateLeft 1).map sbox) [[0x01, 0x02, 0x04, 0x08, 0x10, 0x20, 0x40].getD (i / 8 - 1) 0, 0, 0, 0]
    else if i % 8 = 4 then p.map sbox
    else p := by
  rw [keyTemp, rotWord_eq_rotateLeft, roundConst_eq_getD (by omega)]
  rfl

/-- Four consecutive items of a list, by place. -/
theorem take_four_drop {α : Type} (l : List α) (d : α) {m : Nat} (hm : m + 4 ≤ l.length) :
    (l.drop m).take 4 = [l.getD m d, l.getD (m + 1) d, l.getD (m + 2) d, l.getD (m + 3) d] := by
  refine List.ext_getElem (by simp; omega) fun i hi hi' => ?_
  have hget : ((l.drop m).take 4)[i] = l.getD (m + i) d := by
    rw [List.getD_eq_getElem _ _ (by simp at hi; omega)]
    simp
  match i, hi' with
  | 0, _ | 1, _ | 2, _ | 3, _ => exact hget

/-- A round key is four words of the expansion, in order (43_aes_gcm.md R173). -/
theorem roundKey_eq {w : List (List Byte)} {r : Nat} (hr : 4 * r + 4 ≤ w.length) : roundKey w r =
    w.getD (4 * r) [] ++ w.getD (4 * r + 1) [] ++ w.getD (4 * r + 2) [] ++ w.getD (4 * r + 3) [] := by
  rw [roundKey, take_four_drop w [] hr]
  simp

/-- Settles O53: the first eight words are the key's, and the places 0 and 7 of a schedule held newest first are
the word before and the word eight before the next. -/
theorem keyExpansionFollowsItsRecurrence : Obligations.KeyExpansionFollowsItsRecurrence := by
  refine fun k _ => ⟨keyExpansion_length k, fun i => keyExpansion_getElem?_of_lt k, fun i hlo hhi => ?_,
    fun r hr => roundKey_eq (by rw [keyExpansion_length]; omega)⟩
  obtain ⟨n, rfl⟩ := Nat.exists_eq_add_of_le hlo
  have hn : n < 52 := by omega
  rw [keyExpansion_getElem?_add k hn, nextKeyWord, keyWords_getD k hn (by decide), keyWords_getD k hn (by decide),
    keyTemp_eq hlo]

end Sys2Proof.Machine
end

section
/-! PROOFS. GHASH, inc32 and GCTR (43_aes_gcm.md R180 to R182): a block as a number and back, the fold over the
blocks, and the counters byte by byte. -/

namespace Sys2Proof.Machine

/-! Big-endian numbers. -/

theorem beVal_concat (b : List Byte) (x : Byte) : beVal (b ++ [x]) = 256 * beVal b + x.toNat := by
  rw [beVal, List.foldl_append]
  rfl

/-- One byte more is one place more at the end. -/
theorem beBytes_succ (n v : Nat) : beBytes (n + 1) v = beBytes n (v / 256) ++ [BitVec.ofNat 8 v] := by
  simp only [beBytes, List.range_succ, List.map_append, List.map_cons, List.map_nil]
  congr 1
  · refine List.map_congr_left fun i hi => ?_
    have hlt : i < n := List.mem_range.1 hi
    rw [show 8 * (n + 1 - 1 - i) = 8 + 8 * (n - 1 - i) by omega, Nat.shiftRight_add, Nat.shiftRight_eq_div_pow v 8]
  · simp

/-- `n` bytes hold a number modulo `256 ^ n` (00_scope.md R11). -/
theorem beVal_beBytes (n v : Nat) : beVal (beBytes n v) = v % 256 ^ n := by
  induction n generalizing v with
  | zero => simp [beBytes, beVal, Nat.mod_one]
  | succ n ih =>
    have hmod : v % 256 ^ (n + 1) = v % 256 + 256 * (v / 256 % 256 ^ n) := by rw [Nat.pow_succ', Nat.mod_mul]
    rw [beBytes_succ, beVal_concat, ih, BitVec.toNat_ofNat, hmod, Nat.add_comm]

/-- A 128-bit number is that of its 16 bytes. -/
@[simp] theorem blockVal_blockBytes (x : BitVec 128) : blockVal (blockBytes x) = x := by
  apply BitVec.eq_of_toNat_eq
  rw [blockVal, blockBytes, beVal_beBytes, BitVec.toNat_ofNat]
  have := x.isLt
  omega

/-! GHASH. -/

/-- The running value of `GHASH_H` after the blocks of a string, as a number (43_aes_gcm.md R180). -/
def ghashValue (h : BitVec 128) (x : List Byte) : BitVec 128 :=
  (pieces 16 (x.length / 16) x).foldl (fun y b => gfMul (y ^^^ blockVal b) h) 0

theorem ghash_eq (h : BitVec 128) (x : List Byte) : ghash h x = blockBytes (ghashValue h x) := rfl

/-- A block at the end is added to the running value of the blocks before it, and the sum multiplied by `H`. -/
theorem ghashValue_append (h : BitVec 128) {x b : List Byte} (hx : x.length % 16 = 0) (hb : b.length = 16) :
    ghashValue h (x ++ b) = gfMul (ghashValue h x ^^^ blockVal b) h := by
  have hcount : (x ++ b).length / 16 = x.length / 16 + 1 := by
    rw [List.length_append]
    omega
  have hlast : pieces 16 1 b = [b] := by
    rw [pieces, pieces, List.take_of_length_le (by omega)]
  rw [ghashValue, hcount, pieces_append _ _ _ _ _ (by omega), hlast, List.foldl_append, ← ghashValue,
    List.foldl_cons, List.foldl_nil]

/-- Settles O56: the running value is read back from the 16 bytes that GHASH answers. -/
theorem ghashFoldsBlockByBlock : Obligations.GhashFoldsBlockByBlock := by
  refine fun h x b => ⟨?_, fun hx hb => ?_⟩
  · have hnone : ghashValue h [] = 0 := rfl
    rw [ghash_eq, hnone]
    rfl
  · rw [ghash_eq h x, blockVal_blockBytes, ghash_eq, ghashValue_append h hx hb, blockBytes]

/-! inc32 and GCTR. -/

theorem inc32_take (cb : List Byte) (h : cb.length = 16) : (inc32 cb).take 12 = cb.take 12 :=
  List.take_left' (by simp [h])

theorem inc32_drop (cb : List Byte) (h : cb.length = 16) :
    (inc32 cb).drop 12 = beBytes 4 ((beVal (cb.drop 12) + 1) % 2 ^ 32) :=
  List.drop_left' (by simp [h])

theorem inc32_length (cb : List Byte) (h : cb.length = 16) : (inc32 cb).length = 16 := by
  simp [inc32, h]

theorem xorBytes_getElem? {a b : List Byte} {i : Nat} (ha : i < a.length) (hb : i < b.length) :
    (xorBytes a b)[i]? = some (a.getD i 0 ^^^ b.getD i 0) := by
  rw [List.getElem?_eq_getElem (by simp [ha, hb]), List.getD_eq_getElem _ _ ha, List.getD_eq_getElem _ _ hb]
  simp [xorBytes]

/-- Byte `i` of the loop's output, by its block and its place there (43_aes_gcm.md R182). -/
theorem gctrLoop_getElem? {w : List (List Byte)} (hw : ∀ cb, (aesCipher w cb).length = 16) (n : Nat)
    (cb x : List Byte) (hx : x.length ≤ 16 * n) {i : Nat} (hi : i < x.length) :
    (gctrLoop w n cb x)[i]? = some (x.getD i 0 ^^^ (aesCipher w (inc32^[i / 16] cb)).getD (i % 16) 0) := by
  induction n generalizing cb x i with
  | zero => omega
  | succ n ih =>
    have hblock : (xorBytes (x.take 16) (aesCipher w cb)).length = min 16 x.length := by
      simp [hw]
    rw [gctrLoop]
    rcases Nat.lt_or_ge i 16 with hfirst | hlater
    · rw [List.getElem?_append_left (by omega), xorBytes_getElem? (by simp; omega) (by rw [hw]; exact hfirst),
        Nat.div_eq_of_lt hfirst, Nat.mod_eq_of_lt hfirst]
      simp [List.getElem?_take_of_lt hfirst]
    · obtain ⟨j, rfl⟩ := Nat.exists_eq_add_of_le hlater
      have hrest := ih (inc32 cb) (x.drop 16) (by simp; omega) (i := j) (by simp; omega)
      rw [List.getElem?_append_right (by omega), hblock, show 16 + j - min 16 x.length = j by omega, hrest,
        show (16 + j) / 16 = j / 16 + 1 by omega, Nat.add_mod_left, Function.iterate_succ_apply]
      simp

/-- Settles O57: the counter's low half is a four-byte number, and GCTR takes the counters block by block. -/
theorem gctrIsAnXorWithEncipheredCounters : Obligations.GctrIsAnXorWithEncipheredCounters := by
  refine ⟨fun cb h => ⟨inc32_length cb h, inc32_take cb h, ?_⟩, fun k icb x hk => ⟨gctr_length k icb x hk, ?_⟩⟩
  · rw [inc32_drop cb h, beVal_beBytes]
    omega
  · exact fun i => gctrLoop_getElem? (aesCipher_length k hk) _ icb x (by unfold blockCount; omega)

end Sys2Proof.Machine
end

section
/-! PROOFS. The commands `GCM_ENC` and `GCM_DEC` (43_aes_gcm.md R186, R187). -/

namespace Sys2Proof.Machine
open Sys2Proof Sys2Proof.Claims

/-! GCM_ENC. -/

/-- A tag written besides leaves what a completion stores and answers. -/
theorem completes_writeTag {s t : State} {out : List Byte} (h : Completes s t out) (tag : List Byte) :
    Completes s (writeTag t tag) out := h

/-- A tag is a result. -/
theorem onlyResults_writeTag {s t : State} (h : OnlyResults s t) (tag : List Byte) :
    OnlyResults s (writeTag t tag) := congrArg (writeTag · tag) h

/-- `GCM_ENC` with a key, in bounds (43_aes_gcm.md R186). -/
theorem exec_gcmEnc_ok {s : State} (hk : s.keyValid = true) (hs : SrcOk s) (hd : DstOk s s.srcLen.toNat) :
    let r := gcmAE (kIntBytes s) (regBytes s.iv) (src s)
    exec .gcmEnc s = .next (writeTag (succeed (writeResult s r.1)) r.2) :=
  complete_ok ((performGcmEnc_ok_iff _ _).2 ⟨hk, (srcInBounds_iff s).2 hs, (dstInBounds_iff s _).2 hd, rfl⟩)

/-- `GCM_ENC` without a key (43_aes_gcm.md R186). -/
theorem gcmEnc_failsWith_noKey {s : State} (h : s.keyValid = false) : FailsWith .gcmEnc s 3 :=
  complete_error (e := .noKey) (by simp [performGcmEnc, h])

/-- `GCM_ENC` with a key and a region out of bounds (43_aes_gcm.md R186). -/
theorem gcmEnc_failsWith_range {s : State} (hk : s.keyValid = true) (h : ¬(SrcOk s ∧ DstOk s s.srcLen.toNat)) :
    FailsWith .gcmEnc s 6 := by
  rw [← srcInBounds_iff, ← dstInBounds_iff] at h
  refine complete_error (e := .range) ?_
  rw [performGcmEnc, if_neg (by simp [hk]), range_of_not_inBounds h]

/-- The ciphertext is as long as the plaintext, and the tag has 16 bytes. -/
theorem gcmAE_length {k : List Byte} (hk : k.length = 32) (iv p : List Byte) :
    (gcmAE k iv p).1.length = p.length ∧ (gcmAE k iv p).2.length = 16 :=
  ⟨gctr_length _ _ _ hk, gcmTag_length _ _ _ hk⟩

/-- Settles O37: with a key and in bounds the command writes the ciphertext and its tag alone, and else it fails
with NO_KEY or RANGE. -/
theorem gcmEncryptWritesCiphertextAndTag : Obligations.GcmEncryptWritesCiphertextAndTag := by
  refine ⟨oneWord_of_not_usesDigits (fun _ => rfl) rfl,
    fun s => ⟨fun hm hk hs hd => ?_, gcmEnc_failsWith_noKey, gcmEnc_failsWith_range⟩⟩
  obtain ⟨hlen, htag⟩ := gcmAE_length (kIntBytes_length s) (regBytes s.iv) (src s)
  rw [src_length] at hlen
  obtain ⟨hcompletes, honly, -, hdigest, hhotp⟩ := succeed_writeResult_spec hm (hlen ▸ hd)
  have ⟨_, hres, _⟩ := hcompletes
  exact ⟨_, exec_gcmEnc_ok hk hs hd, completes_writeTag hcompletes _, BitVec.eq_of_toNat_eq (hres.trans hlen),
    regBytes_setRegBytes 4 _ htag, onlyResults_writeTag honly _, hdigest, hhotp⟩

/-! GCM_DEC. -/

/-- `GCM_AD` under the right tag is the plaintext (43_aes_gcm.md R185). -/
theorem gcmAD_of_eq {k iv c t : List Byte} (h : t = gcmTag k iv c) :
    gcmAD k iv c t = some (gctr k (inc32 (preCounter iv)) c) := if_neg (not_not.2 h.symm)

/-- `GCM_AD` under any other tag is FAIL (43_aes_gcm.md R185). -/
theorem gcmAD_of_ne {k iv c t : List Byte} (h : t ≠ gcmTag k iv c) : gcmAD k iv c t = none := if_pos h.symm

/-- `GCM_DEC` with a key, in bounds and with the ciphertext's tag (43_aes_gcm.md R187). -/
theorem exec_gcmDec_ok {s : State} (hk : s.keyValid = true) (hs : SrcOk s) (hd : DstOk s s.srcLen.toNat)
    (ht : regBytes s.tag = gcmTag (kIntBytes s) (regBytes s.iv) (src s)) :
    exec .gcmDec s =
      .next (succeed (writeResult s (gctr (kIntBytes s) (inc32 (preCounter (regBytes s.iv))) (src s)))) :=
  complete_ok ((performGcmDec_ok_iff _ _).2
    ⟨hk, (srcInBounds_iff s).2 hs, (dstInBounds_iff s _).2 hd, _, gcmAD_of_eq ht, rfl⟩)

/-- `GCM_DEC` without a key (43_aes_gcm.md R187). -/
theorem gcmDec_failsWith_noKey {s : State} (h : s.keyValid = false) : FailsWith .gcmDec s 3 :=
  complete_error (e := .noKey) (by simp [performGcmDec, h])

/-- `GCM_DEC` with a key and a region out of bounds (43_aes_gcm.md R187). -/
theorem gcmDec_failsWith_range {s : State} (hk : s.keyValid = true) (h : ¬(SrcOk s ∧ DstOk s s.srcLen.toNat)) :
    FailsWith .gcmDec s 6 := by
  rw [← srcInBounds_iff, ← dstInBounds_iff] at h
  refine complete_error (e := .range) ?_
  rw [performGcmDec, if_neg (by simp [hk]), range_of_not_inBounds h]

/-- `GCM_DEC` with a key, in bounds and with any other tag (43_aes_gcm.md R187). -/
theorem gcmDec_failsWith_authFail {s : State} (hk : s.keyValid = true) (hs : SrcOk s)
    (hd : DstOk s s.srcLen.toNat) (ht : regBytes s.tag ≠ gcmTag (kIntBytes s) (regBytes s.iv) (src s)) :
    FailsWith .gcmDec s 7 := by
  have hfail : gcmAD (kIntBytes s) (ivBytes s) (srcBytes s) (tagBytes s) = none := gcmAD_of_ne ht
  refine complete_error (e := .authFail) ?_
  simp [performGcmDec, hk, (srcInBounds_iff s).2 hs, (dstInBounds_iff s _).2 hd, hfail]

/-- Settles O38: with a key, in bounds and with the right tag the command writes the plaintext alone, and else it
fails with NO_KEY, RANGE or AUTH_FAIL. -/
theorem gcmDecryptChecksTheTagFirst : Obligations.GcmDecryptChecksTheTagFirst := by
  refine ⟨oneWord_of_not_usesDigits (fun _ => rfl) rfl, fun s => ⟨fun hm hk hs hd ht => ?_,
    gcmDec_failsWith_noKey, gcmDec_failsWith_range, gcmDec_failsWith_authFail⟩⟩
  have hlen := gctr_length _ (inc32 (preCounter (regBytes s.iv))) (src s) (kIntBytes_length s)
  rw [src_length] at hlen
  obtain ⟨hcompletes, honly, htag, hdigest, hhotp⟩ := succeed_writeResult_spec hm (hlen ▸ hd)
  have ⟨_, hres, _⟩ := hcompletes
  exact ⟨_, exec_gcmDec_ok hk hs hd ht, hcompletes, BitVec.eq_of_toNat_eq (hres.trans hlen), honly, htag, hdigest,
    hhotp⟩

end Sys2Proof.Machine
end

section
/-! PROOFS. The key register (10_state.md R41, 43_aes_gcm.md R188, R189): the two `KEYCTL` actions, and all that a
step can do to the key. -/

namespace Sys2Proof.Machine
open Sys2Proof Sys2Proof.Claims

/-! The decoder of `KEYCTL` words. -/

theorem decode_keyctl_ok {v : Word} {i : Instr} (h : decodeKeyctl v = some i) : decode .keyctl v = .ok i := by
  rw [decode, h]

/-- KEY_LOAD is asked for by bit 0 without bit 1 (10_state.md R39). -/
theorem decodeKeyctl_eq_keyLoad_iff {v : Word} :
    decodeKeyctl v = some .keyLoad ↔ v.getLsbD 1 = false ∧ v.getLsbD 0 = true := by
  rw [decodeKeyctl]
  cases v.getLsbD 1 <;> cases v.getLsbD 0 <;> decide

/-- KEY_CLEAR is asked for by bit 1 (10_state.md R39). -/
theorem decodeKeyctl_eq_keyClear_iff {v : Word} : decodeKeyctl v = some .keyClear ↔ v.getLsbD 1 = true := by
  rw [decodeKeyctl]
  cases v.getLsbD 1 <;> cases v.getLsbD 0 <;> decide

/-! The actions. -/

@[simp] theorem kIntBytes_loadKey (s : State) : kIntBytes (loadKey s) = regBytes s.aesKey := by
  rw [kIntBytes, loadKey_kInt, stagedKey_toList]

@[simp] theorem kIntBytes_clearKey (s : State) : kIntBytes (clearKey s) = List.replicate 32 0 := by
  rw [kIntBytes, clearKey_kInt, Vector.toList_replicate]

@[simp] theorem regBytes_clearKey (s : State) : regBytes (clearKey s).aesKey = List.replicate 32 0 := by
  rw [clearKey_aesKey]
  rfl

/-- Settles O27: the action while idle, and a `KEYCTL` write of a word that asks for it. -/
theorem keyLoadCopiesTheStagedKey : Obligations.KeyLoadCopiesTheStagedKey := by
  refine fun s hb => ⟨_, exec_keyLoad_idle hb, kIntBytes_loadKey s, rfl, fun v h1 h0 => ?_⟩
  have hv := decodeKeyctl_load h1 h0
  exact ⟨decode_keyctl_ok hv, writeLeaves_keyctl hb hv (exec_keyLoad_idle hb)⟩

/-! The key over a step. -/

/-- The key in use and its valid bit are as before. -/
abbrev SameKey (s t : State) : Prop := t.kInt = s.kInt ∧ t.keyValid = s.keyValid

/-- How a step moves the key (10_state.md R41): not at all, by an accepted action, or by reset. -/
inductive KeyMove (s t : State) : Prop where
  | same (h : SameKey s t)
  | load (v : Word) (rest : List Event) (he : NextIsWrite s 0x03C v rest) (hb : s.busy = false)
      (h1 : v.getLsbD 1 = false) (h0 : v.getLsbD 0 = true) (h : SameKey (loadKey s) t)
  | clear (v : Word) (rest : List Event) (he : NextIsWrite s 0x03C v rest) (hb : s.busy = false)
      (h1 : v.getLsbD 1 = true) (h : SameKey (clearKey s) t)
  | reset (rest : List Event) (he : s.events = .reset :: rest) (h : SameKey State.reset t)

/-- No command writes the key: not by its results, and not by its error. -/
theorem engineStep_sameKey {s t : State} (h : engineStep s = .next t) : SameKey s t := by
  rcases engineStep_cases h with ⟨e, rfl⟩ | ⟨u, out, hu, rfl⟩
  · exact ⟨rfl, rfl⟩
  · have hkey : SameKey s u := by rw [hu.frame]; exact ⟨rfl, rfl⟩
    exact hkey

/-- A host access that is no `KEYCTL` action leaves the key. -/
theorem hostAccess_sameKey (s : State) (a : Access) : SameKey s (hostAccess s a) := by
  cases a with
  | read o n =>
    rw [hostAccess, hostRead_frame]
    exact ⟨rfl, rfl⟩
  | write o n v =>
    cases hostWrite_cases s (locate o) v with
    | blocked _ _ h | start _ _ h | status _ h | intEn _ h | operand _ h | ignored h =>
      rw [hostAccess, h]
      exact ⟨rfl, rfl⟩

theorem step_keyMove {s t : State} (h : step s = .next t) : KeyMove s t := by
  cases step_cases h with
  | engine u _ _ hu h =>
    have hkey := engineStep_sameKey h
    rcases hu with rfl | rfl <;> exact .same hkey
  | reset rest he h => subst h; exact .reset rest he ⟨rfl, rfl⟩
  | idle _ h => rcases h with rfl | rfl <;> exact .same ⟨rfl, rfl⟩
  | outside a rest _ _ h => subst h; exact .same ⟨rfl, rfl⟩
  | access a rest _ _ _ _ h => subst h; exact .same (hostAccess_sameKey (popEvent s) a)
  | action a rest i he hw hl hi h =>
    obtain ⟨o, n, v, rfl, ho, hv⟩ := busAction_some hi
    obtain ⟨rfl, ha, -⟩ := legal_write hw hl
    obtain rfl := (locate_keyctl_iff o ha).1 ho
    rcases exec_keyctl_cases (portOf_decodeKeyctl hv) h with ⟨-, rfl⟩ | ⟨hb, rfl, rfl⟩ | ⟨hb, rfl, rfl⟩
    · exact .same ⟨rfl, rfl⟩
    · obtain ⟨h1, h0⟩ := decodeKeyctl_eq_keyLoad_iff.1 hv
      exact .load v rest he hb h1 h0 ⟨rfl, rfl⟩
    · exact .clear v rest he hb (decodeKeyctl_eq_keyClear_iff.1 hv) ⟨rfl, rfl⟩

/-- Settles O28: the action while idle and its `KEYCTL` writes, the GCM commands without a key, and the one move of
the key that makes it valid. -/
theorem keyClearZeroesAllKeyMaterial : Obligations.KeyClearZeroesAllKeyMaterial := by
  refine ⟨fun s hb => ?_, fun s h => ⟨gcmEnc_failsWith_noKey h, gcmDec_failsWith_noKey h⟩, fun s t h hs ht => ?_⟩
  · refine ⟨_, exec_keyClear_idle hb, kIntBytes_clearKey s, regBytes_clearKey s, rfl, fun v h1 => ?_⟩
    have hv := decodeKeyctl_clear h1
    exact ⟨decode_keyctl_ok hv, writeLeaves_keyctl hb hv (exec_keyClear_idle hb)⟩
  · cases step_keyMove h with
    | load v rest he _ h1 h0 => exact ⟨v, rest, he, h1, h0⟩
    | same h => simp [h.2, hs] at ht
    | clear _ _ _ _ _ h => simp [h.2] at ht
    | reset _ _ h => simp [h.2, State.reset] at ht

end Sys2Proof.Machine
end

section
/-! PROOFS. The engine's exceptions (60_exceptions.md): the words that fail at the engine step, what a failed and a
successful command write, and what deasserts `IRQ`. -/

namespace Sys2Proof.Machine
open Sys2Proof Sys2Proof.Claims

/-! Illegal command words. -/

/-- The undefined `OP` values are 0x0 and 0x8 to 0xF (30_encoding.md R81). -/
theorem opCommand_eq_none_iff (op digits : BitVec 4) : opCommand op digits = none ↔ op = 0 ∨ 8 ≤ op.toNat := by
  revert op digits
  decide

/-- ILLEGAL_CMD is the answer to a reserved field that is not 0, an undefined `OP`, or a nonzero `DIGITS` of a
command that has none (60_exceptions.md R212). -/
theorem decodeCmd_illegalCmd_iff {w : Word} :
    decodeCmd w = .error .illegalCmd ↔ rsv0Field w ≠ 0 ∨ rsv1Field w ≠ 0 ∨ opField w = 0 ∨ 8 ≤ (opField w).toNat ∨
      (digitsField w ≠ 0 ∧ opField w ≠ 2 ∧ opField w ≠ 3) := by
  by_cases hrsv : rsv0Field w ≠ 0 ∨ rsv1Field w ≠ 0
  · rw [decodeCmd, if_pos hrsv]
    tauto
  · have hfields : (rsv0Field w ≠ 0 ∨ rsv1Field w ≠ 0 ∨ opField w = 0 ∨ 8 ≤ (opField w).toNat ∨
        (digitsField w ≠ 0 ∧ opField w ≠ 2 ∧ opField w ≠ 3)) ↔
        (opField w = 0 ∨ 8 ≤ (opField w).toNat) ∨ (digitsField w ≠ 0 ∧ ¬(opField w = 2 ∨ opField w = 3)) := by
      tauto
    rw [hfields, ← opCommand_eq_none_iff _ (digitsField w), ← opCommand_usesDigits_iff _ (digitsField w), decodeCmd,
      if_neg hrsv]
    cases opCommand (opField w) (digitsField w) with
    | none => simp
    | some i =>
      cases huses : usesDigits i with
      | true => by_cases hd : digitsField w = 6#4 <;> simp [huses, hd]
      | false => by_cases hd : digitsField w = 0#4 <;> simp [huses, hd]

theorem engineStep_of_decodeCmd_ok {s : State} {i : Instr} (h : decodeCmd s.cmd = .ok i) :
    engineStep s = exec i s := by
  rw [engineStep, h]

/-- A word that is no command fails with its error (60_exceptions.md R220). -/
theorem engineStep_of_decodeCmd_error {s : State} {e : ErrCode} (h : decodeCmd s.cmd = .error e) :
    engineStep s = .next (failedState s (errBits e)) := by
  rw [engineStep, h]
  rfl

/-- Settles O7: each of the two errors has its words, and a word with neither decodes to a command. -/
theorem illegalWordsFailAtTheEngineStep : Obligations.IllegalWordsFailAtTheEngineStep := by
  refine fun s => ⟨fun h => ?_, fun h => ?_, fun hill hbad => ?_⟩
  · exact engineStep_of_decodeCmd_error (decodeCmd_illegalCmd_iff.2 h)
  · exact engineStep_of_decodeCmd_error (decodeCmd_badDigits_iff.2 h)
  · match h : decodeCmd s.cmd with
    | .ok i => exact ⟨i, rfl, engineStep_of_decodeCmd_ok h⟩
    | .error e =>
      obtain rfl | rfl := decodeCmd_error h
      · exact absurd (decodeCmd_illegalCmd_iff.1 h) hill
      · exact absurd (decodeCmd_badDigits_iff.1 h) hbad

/-! What a failed command writes. -/

/-- Settles O40: an engine step that does not succeed answers the failed state with its error's code. -/
theorem failedCommandWritesNothing : Obligations.FailedCommandWritesNothing := by
  intro s t h herr
  rcases engineStep_cases h with ⟨e, rfl⟩ | ⟨u, out, -, rfl⟩
  · exact ⟨rfl, errBits_range e⟩
  · cases herr

/-! What a successful command writes. -/

/-- A completion with `ERR` 0 made the command's writes. -/
theorem complete_succeeds {s t : State} {r : Except ErrCode State} (h : complete s r = .next t)
    (herr : t.err = false) : ∃ u, r = .ok u ∧ t = succeed u := by
  rcases complete_cases s t r h with ⟨e, -, rfl⟩ | hu
  · cases herr
  · exact hu

/-- A successful command stores a byte string as its result, and writes only the result registers of its family
(30_encoding.md R85). -/
theorem exec_command_succeeds {i : Instr} {s t : State} (hm : Memory.wf s.buf) (hi : portOf i = .cmd)
    (h : exec i s = .next t) (herr : t.err = false) :
    (∃ out, Completes s t out) ∧ OnlyResults s t ∧ (i ≠ .gcmEnc → t.tag = s.tag) ∧
      (i ≠ .hmacSha1 → i ≠ .hotp 6 → t.digest = s.digest) ∧ (i ≠ .hotp 6 → i ≠ .hotpTrunc 6 → SameHotp s t) := by
  cases i with
  | hmacSha1 =>
    obtain ⟨u, hu, rfl⟩ := complete_succeeds h herr
    obtain ⟨-, -, hd, rfl⟩ := (performHmacSha1_ok_iff s u).1 hu
    obtain ⟨hc, ho, htag, -, hhotp⟩ := succeed_writeResult_spec (out := hmacSha1 (keyBytes s) (srcBytes s)) hm
      (by simpa [dstInBounds_iff] using hd)
    exact ⟨⟨_, completes_writeDigest hc _⟩, onlyResults_writeDigest ho _, fun _ => htag, by simp, fun _ _ => hhotp⟩
  | hotp d =>
    obtain ⟨u, hu, rfl⟩ := complete_succeeds h herr
    obtain ⟨rfl, -, -, hd, rfl⟩ := (performHotp_ok_iff d s u).1 hu
    obtain ⟨hc, -, -, ho, htag, -⟩ := succeed_writeCode_spec (hotpDigest s) hm ((dstInBounds_iff s 6).1 hd)
    exact ⟨⟨_, completes_writeDigest hc _⟩, onlyResults_writeDigest ho _, fun _ => htag, by simp, by simp⟩
  | hotpTrunc d =>
    obtain ⟨u, hu, rfl⟩ := complete_succeeds h herr
    obtain ⟨rfl, -, -, hd, rfl⟩ := (performHotpTrunc_ok_iff d s u).1 hu
    obtain ⟨hc, -, -, ho, htag, hdigest⟩ := succeed_writeCode_spec (srcBytes s) hm ((dstInBounds_iff s 6).1 hd)
    exact ⟨⟨_, hc⟩, ho, fun _ => htag, fun _ _ => hdigest, by simp⟩
  | b32Enc =>
    obtain ⟨u, hu, rfl⟩ := complete_succeeds h herr
    obtain ⟨-, hd, rfl⟩ := (performB32Enc_ok_iff s u).1 hu
    obtain ⟨hc, ho, htag, hdigest, hhotp⟩ := succeed_writeResult_spec (out := b32Encode (srcBytes s)) hm
      (by simpa [dstInBounds_iff] using hd)
    exact ⟨⟨_, hc⟩, ho, fun _ => htag, fun _ _ => hdigest, fun _ _ => hhotp⟩
  | b32Dec =>
    obtain ⟨u, hu, rfl⟩ := complete_succeeds h herr
    obtain ⟨-, hd, rfl⟩ := (performB32Dec_ok_iff s u).1 hu
    obtain ⟨hc, ho, htag, hdigest, hhotp⟩ := succeed_writeResult_spec hm ((dstInBounds_iff s _).1 hd)
    exact ⟨⟨_, hc⟩, ho, fun _ => htag, fun _ _ => hdigest, fun _ _ => hhotp⟩
  | gcmEnc =>
    obtain ⟨u, hu, rfl⟩ := complete_succeeds h herr
    obtain ⟨-, -, hd, rfl⟩ := (performGcmEnc_ok_iff s u).1 hu
    have hlen := (gcmAE_length (kIntBytes_length s) (ivBytes s) (srcBytes s)).1
    rw [dstInBounds_iff, ← srcBytes_length, ← hlen] at hd
    obtain ⟨hc, ho, -, hdigest, hhotp⟩ := succeed_writeResult_spec hm hd
    exact ⟨⟨_, completes_writeTag hc _⟩, onlyResults_writeTag ho _, by simp, fun _ _ => hdigest, fun _ _ => hhotp⟩
  | gcmDec =>
    obtain ⟨u, hu, rfl⟩ := complete_succeeds h herr
    obtain ⟨-, -, hd, p, hp, rfl⟩ := (performGcmDec_ok_iff s u).1 hu
    have hlen := gcmAD_length _ _ _ _ _ (kIntBytes_length s) hp
    rw [dstInBounds_iff, ← srcBytes_length, ← hlen] at hd
    obtain ⟨hc, ho, htag, hdigest, hhotp⟩ := succeed_writeResult_spec hm hd
    exact ⟨⟨_, hc⟩, ho, fun _ => htag, fun _ _ => hdigest, fun _ _ => hhotp⟩
  | keyLoad | keyClear => cases hi

/-- Settles O41: the stored result is the memory from `DST_ADDR` for `RES_LEN`, and `WBUSY` is no result. -/
theorem successfulCommandWritesOnlyItsResults : Obligations.SuccessfulCommandWritesOnlyItsResults := by
  intro i s t hm hi h herr
  obtain ⟨⟨out, ⟨-, hframe⟩, hlen, hbusy, hdone, -, hcode⟩, honly, hregs⟩ := exec_command_succeeds hm hi h herr
  have hwbusy : t.wbusy = s.wbusy := (congrArg State.wbusy honly :)
  exact ⟨honly, hdone, hbusy, hcode, hwbusy, hlen ▸ hframe, hregs⟩

/-! The interrupt line. -/

theorem step_reset {s : State} {rest : List Event} (h : s.events = .reset :: rest) :
    step s = .next (resetEngine (popEvent s)) := by
  rw [step, turn, h]

/-- A step that lowers `IRQ` is one of the four of 60_exceptions.md R225. -/
theorem step_lowers_irq {s t : State} (h : step s = .next t) (hs : irq s = true) (ht : irq t = false) :
    (∃ v rest, NextIsWrite s 0x008 v rest ∧ v.getLsbD 1 = true) ∨
    (s.busy = false ∧ ∃ v rest, NextIsWrite s 0x004 v rest) ∨
    (∃ v rest, NextIsWrite s 0x00C v rest ∧ v.getLsbD 0 = false) ∨ ∃ rest, s.events = .reset :: rest := by
  obtain ⟨hdone, hie⟩ := Bool.and_eq_true_iff.1 hs
  cases step_status h with
  | same h | blocked _ _ _ _ _ _ _ _ h =>
    obtain ⟨-, h2, -, -, -, h6⟩ := h
    exact absurd ht (by simp [irq, h2, h6, hdone, hie])
  | engine _ _ _ h2 _ h4 => exact absurd ht (by simp [irq, h2, h4, hie])
  | reset rest he => exact .inr (.inr (.inr ⟨rest, he⟩))
  | start v rest he hb => exact .inr (.inl ⟨hb, v, rest, he⟩)
  | status v rest he h1 _ _ _ _ h6 => exact .inl ⟨v, rest, he, by simpa [irq, h1, h6, hdone, hie] using ht⟩
  | intEn v rest he h =>
    obtain ⟨-, h2, -, -, -, h6⟩ := h
    exact .inr (.inr (.inl ⟨v, rest, he, by simpa [irq, h2, h6, hdone, hie] using ht⟩))

/-- A write that leaves a state with `IRQ` low lowers it at its step. -/
theorem irq_low_of_writeLeaves {s u : State} {o : Nat} {v : Word} {rest : List Event} (h : NextIsWrite s o v rest)
    (hw : WriteLeaves s o v u) (hirq : irq u = false) : ∃ t, step s = .next t ∧ irq t = false :=
  ⟨_, step_of_writeLeaves hw h, hirq⟩

/-- Settles O26: the steps that lower `IRQ`, that each of the four does, and a completion's `DONE`. -/
theorem irqIsDeassertedOnlyAsListed : Obligations.IrqIsDeassertedOnlyAsListed := by
  refine ⟨fun _ _ => step_lowers_irq, fun s v rest h hv => ?_, fun s v rest hb h => ?_, fun s v rest h hv => ?_,
    fun s rest h => ⟨_, step_reset h, rfl⟩, fun s t h => ?_⟩
  · refine irq_low_of_writeLeaves h (u := writeStatus s v) ?_ ?_
    · exact writeLeaves_storeLoc (o := 0x008) (by decide) (by simp) (Bool.and_false s.busy)
    · simp [irq, hv]
  · refine irq_low_of_writeLeaves h (u := startCommand s v) ?_ rfl
    exact writeLeaves_storeLoc (o := 0x004) (by decide) (by simp) (by simp [hb])
  · refine irq_low_of_writeLeaves h (u := writeIntEn s v) ?_ ?_
    · exact writeLeaves_storeLoc (o := 0x00C) (by decide) (by simp) (Bool.and_false s.busy)
    · rw [irq, writeIntEn_doneIe, hv, Bool.and_false]
  · obtain ⟨-, -, hdone, -⟩ := engineStep_frame h
    exact hdone

end Sys2Proof.Machine
end

section
/-! PROOFS. Reset (70_reset_and_hazards.md R261, R262): the values of the reset state, and the reset input. -/

namespace Sys2Proof.Machine

/-! The reset state. -/

/-- Every buffer byte is 0 after reset: the reset memory lists none (10_state.md R46). -/
@[simp] theorem readByte_reset_buf (a : Nat) : readByte State.reset.buf a = 0 := rfl

/-- Settles O1: the scalar registers and flags by their reset values, a register group and the key entry by entry, and
the buffer byte by byte. -/
theorem resetStateIsAllZero : Obligations.ResetStateIsAllZero := by
  have haesKey (i : Fin 8) : State.reset.aesKey[i] = 0 := Vector.getElem_replicate i.isLt
  have hiv (i : Fin 3) : State.reset.iv[i] = 0 := Vector.getElem_replicate i.isLt
  have htag (i : Fin 4) : State.reset.tag[i] = 0 := Vector.getElem_replicate i.isLt
  have hdigest (i : Fin 5) : State.reset.digest[i] = 0 := Vector.getElem_replicate i.isLt
  have hkInt (i : Fin 32) : State.reset.kInt[i] = 0 := Vector.getElem_replicate i.isLt
  have hstatus : statusWord State.reset = 0 := by decide
  exact ⟨rfl, rfl, rfl, rfl, rfl, rfl, rfl, rfl, rfl, rfl, rfl, rfl, rfl, haesKey, hiv, htag, hdigest, hstatus,
    rfl, rfl, rfl, rfl, rfl, rfl, rfl, hkInt, readByte_reset_buf, rfl, rfl⟩

/-! The reset input. -/

/-- The reset input keeps of a state only what is not the engine's: the events and the draws (log 14). -/
theorem resetEngine_engineFields (s : State) :
    { resetEngine s with events := [], response := .none, draws := 0 } = State.reset := rfl

/-- Settles O2: the step at the reset input is `resetEngine`, and what that keeps is set aside. -/
theorem resetInputAbandonsCommand : Obligations.ResetInputAbandonsCommand :=
  fun s _ h => ⟨resetEngine (popEvent s), step_reset h, resetEngine_engineFields (popEvent s)⟩

end Sys2Proof.Machine
end

section
/-! PROOFS. Decode and encode at both ports (30_encoding.md R80 to R86, 10_state.md R39), and the spec's own words. -/

namespace Sys2Proof
open Sys2Proof.Machine

theorem decode_keyctl_ok_iff {w : Word} {i : Instr} : decode .keyctl w = .ok i ↔ decodeKeyctl w = some i := by
  unfold decode
  cases decodeKeyctl w <;> simp

/-- A word that decodes gives a well-formed instruction of the port. -/
theorem decode_ok_wellFormed {p : Port} {w : Word} {i : Instr} (h : decode p w = .ok i) :
    i.wellFormed = true ∧ portOf i = p := by
  cases p with
  | cmd =>
    obtain ⟨hport, hwf, -⟩ := decodeCmd_ok_iff.1 (decode_cmd_ok_iff.1 h)
    exact ⟨hwf, hport⟩
  | keyctl =>
    have hport := portOf_decodeKeyctl (decode_keyctl_ok_iff.1 h)
    refine ⟨?_, hport⟩
    cases i with
    | keyLoad | keyClear => rfl
    | _ => cases hport

/-- The action bits of a `KEYCTL` word are those of the action it decodes to (10_state.md R39). -/
theorem actionBits_of_decodeKeyctl {w : Word} {i : Instr} (h : decodeKeyctl w = some i) :
    (i = .keyClear ∧ w.getLsbD 1 = true) ∨ (i = .keyLoad ∧ w.getLsbD 1 = false ∧ w.getLsbD 0 = true) := by
  have hport := portOf_decodeKeyctl h
  cases i with
  | keyLoad => exact .inr ⟨rfl, decodeKeyctl_eq_keyLoad_iff.1 h⟩
  | keyClear => exact .inl ⟨rfl, decodeKeyctl_eq_keyClear_iff.1 h⟩
  | _ => cases hport

/-- Settles O6: `encodeDecode` is one direction, and each port's decoder says what its words are. -/
theorem encodeAndDecodeAgree : Obligations.EncodeAndDecodeAgree := by
  refine ⟨fun i => ⟨encodeDecode i, fun h => (decode_ok_wellFormed h).1⟩, fun p w i h => ?_⟩
  obtain ⟨hwf, hport⟩ := decode_ok_wellFormed h
  refine ⟨hwf, hport, ?_, ?_⟩
  · rintro rfl
    obtain ⟨-, -, hw⟩ := decodeCmd_ok_iff.1 (decode_cmd_ok_iff.1 h)
    exact hw
  · rintro rfl
    exact actionBits_of_decodeKeyctl (decode_keyctl_ok_iff.1 h)

/-- Settles O4: thirteen fixed words, by evaluation of the decoder. -/
theorem specWordsDecode : Obligations.SpecWordsDecode := by
  unfold Obligations.SpecWordsDecode
  decide

end Sys2Proof
end

section
/-! PROOFS. The invariant `EngineOk` (10_state.md, 60_exceptions.md R211): reset meets it, each kind of step keeps
it. -/

namespace Sys2Proof.Machine
open Sys2Proof Sys2Proof.Claims

/-- The invariant of the reset state, whose memory lists no byte and whose registers are 0. -/
theorem engineOk_reset : EngineOk State.reset :=
  ⟨⟨reset_memWf, reset_memInBuf⟩, by decide, by decide, fun _ => rfl⟩

/-- Settles O3: the base case of the invariant. -/
theorem resetMeetsInvariant : Obligations.ResetMeetsInvariant := engineOk_reset

theorem engineOk_popEvent {s : State} (h : EngineOk s) : EngineOk (popEvent s) := h

theorem engineOk_respond {s : State} (h : EngineOk s) (r : Response) : EngineOk (respond s r) := h

/-! The engine's step. -/

/-- A failed command leaves one of the seven codes and `RES_LEN` 0 (60_exceptions.md R222). -/
theorem engineOk_failWith {s : State} (h : EngineOk s) (e : ErrCode) : EngineOk (failWith e s) := by
  obtain ⟨hbuf, -, ⟨hcode, hoff, hbin, -⟩, hkey⟩ := h
  exact ⟨hbuf, ⟨fun hb => (nomatch hb), fun he => (nomatch he), fun _ => errBits_range e⟩,
    ⟨hcode, hoff, hbin, Nat.zero_le _⟩, hkey⟩

/-- A successful command leaves the HOTP results in range: as they were, or a truncation's values
(10_state.md R36 to R38). -/
theorem hotpInRange_of_commandWrites {s u : State} {out : List Byte} (h : ResultsOk s) (hu : CommandWrites s u out) :
    u.hotpCode.toNat < 1000000 ∧ u.hotpOff.toNat < 16 ∧ u.hotpBin.toNat < 2 ^ 31 := by
  obtain ⟨hcode, hoff, hbin, -⟩ := h
  rcases hu.hotp with ⟨h1, h2, h3⟩ | ⟨d, h1, h2, h3⟩
  · rw [h1, h2, h3]
    exact ⟨hcode, hoff, hbin⟩
  · rw [h1, h2, h3, BitVec.toNat_ofNat, BitVec.toNat_ofNat]
    have hcode := (Nat.mod_le (hotpCodeOf d) (2 ^ 32)).trans_lt (hotpCodeOf_lt d)
    have hoff := (Nat.mod_le (hotpOffset d) (2 ^ 32)).trans_lt (hotpOffset_lt d)
    exact ⟨hcode, hoff, hotpBinary_lt d⟩

/-- A successful command stores within the buffer, so that `RES_LEN` is at most its size. -/
theorem engineOk_succeed {s u : State} {out : List Byte} (h : EngineOk s) (hu : CommandWrites s u out) :
    EngineOk (succeed u) := by
  obtain ⟨⟨hwf, hin⟩, -, hres, hkey⟩ := h
  obtain ⟨hcode, hoff, hbin⟩ := hotpInRange_of_commandWrites hres hu
  have hbounds := hu.bounds
  have hbuf : BufOk u := by
    rw [BufOk, hu.buf]
    exact ⟨memWf_memWrite hwf _ _, memInBuf_memWrite hin _ _ hbounds⟩
  have hlen : u.resLen.toNat ≤ Config.bufBytes := by
    rw [hu.resLen, BitVec.toNat_ofNat]
    exact (Nat.mod_le _ _).trans (by omega)
  have hkey' : KeyOk u := by
    rw [hu.frame]
    exact hkey
  have hstatus : StatusOk (succeed u) := ⟨fun hb => (nomatch hb), fun _ => rfl, fun he => (nomatch he)⟩
  exact ⟨hbuf, hstatus, ⟨hcode, hoff, hbin, hlen⟩, hkey'⟩

theorem engineOk_engineStep {s t : State} (h : EngineOk s) (ht : engineStep s = .next t) : EngineOk t := by
  rcases engineStep_cases ht with ⟨e, rfl⟩ | ⟨u, out, hu, rfl⟩
  · exact engineOk_failWith h e
  · exact engineOk_succeed h hu

/-! The `KEYCTL` actions. -/

/-- Of the key, the invariant asks only that there be zeros where none is loaded. -/
theorem engineOk_setKey {s : State} (h : EngineOk s) (staged : Vector Word 8) {key : Vector Byte 32} {valid : Bool}
    (hkey : valid = false → key = Vector.replicate 32 0) :
    EngineOk { s with aesKey := staged, kInt := key, keyValid := valid } := by
  obtain ⟨hbuf, hstatus, hres, -⟩ := h
  exact ⟨hbuf, hstatus, hres, hkey⟩

theorem engineOk_keyctl {s t : State} {i : Instr} (h : EngineOk s) (hi : portOf i = .keyctl)
    (ht : exec i s = .next t) : EngineOk t := by
  rcases exec_keyctl_cases hi ht with ⟨-, rfl⟩ | ⟨-, -, rfl⟩ | ⟨-, -, rfl⟩
  · exact h
  · exact engineOk_setKey h s.aesKey (by simp)
  · exact engineOk_setKey h _ fun _ => rfl

/-! The host's accesses. -/

theorem engineOk_hostRead {s : State} (h : EngineOk s) (l : Loc) : EngineOk (hostRead s l) := by
  rw [hostRead_frame]
  exact h

/-- A `STATUS` write clears at most DONE and WBUSY, which no clause of the invariant needs set. -/
theorem engineOk_writeStatus {s : State} (h : EngineOk s) (v : Word) : EngineOk (writeStatus s v) := by
  obtain ⟨hbuf, ⟨hbusy, hcode⟩, hres, hkey⟩ := h
  refine ⟨hbuf, ⟨fun hb => ?_, hcode⟩, hres, hkey⟩
  obtain ⟨hdone, herr⟩ := hbusy hb
  exact ⟨by rw [writeStatus_done, hdone, Bool.false_and], herr⟩

/-- A word stored at a buffer location of the window stays within the buffer (20_memory.md R60). -/
theorem bufOk_storeWord {s : State} {o a : Nat} (h : BufOk s) (ho : WordOffset o) (hl : locate o = .buf a)
    (v : Word) : BufOk { s with buf := memWrite s.buf a (leBytes 4 v.toNat) } := by
  obtain ⟨hlo, ha⟩ := locate_eq_buf hl
  refine ⟨memWf_memWrite h.1 _ _, memInBuf_memWrite h.2 _ _ ?_⟩
  rw [leBytes_length, Config.bufBytes]
  omega

theorem engineOk_hostWrite {s : State} {o : Nat} (h : EngineOk s) (ho : WordOffset o) (v : Word) :
    EngineOk (hostWrite s (locate o) v) := by
  obtain ⟨hbuf, hstatus, hres, hkey⟩ := h
  have hcases := hostWrite_cases s (locate o) v
  generalize hostWrite s (locate o) v = t at hcases ⊢
  cases hcases with
  | blocked _ _ ht | ignored ht | intEn _ ht => subst ht; exact ⟨hbuf, hstatus, hres, hkey⟩
  | status _ ht =>
    subst ht
    exact engineOk_writeStatus (s := { s with response := _ }) ⟨hbuf, hstatus, hres, hkey⟩ v
  | start _ _ ht =>
    subst ht
    exact ⟨hbuf, ⟨fun _ => ⟨rfl, rfl⟩, fun _ => rfl, fun he => (nomatch he)⟩, hres, hkey⟩
  | operand _ ht hmem =>
    have hbuf' : BufOk t := by
      rcases hmem with hsame | ⟨a, hl, hstore⟩
      · rw [BufOk, hsame]
        exact hbuf
      · rw [BufOk, hstore]
        exact bufOk_storeWord hbuf ho hl v
    rw [ht]
    exact ⟨hbuf', hstatus, hres, hkey⟩

theorem engineOk_hostAccess {s : State} {a : Access} (h : EngineOk s) (hw : inWindow a = true)
    (hl : legalAccess a = true) : EngineOk (hostAccess s a) := by
  cases a with
  | read o n => exact engineOk_hostRead h _
  | write o n v =>
    obtain ⟨-, halign, hwin⟩ := legal_write hw hl
    exact engineOk_hostWrite h ⟨halign, hwin⟩ v

/-- Settles O12: by who moved at the step. -/
theorem stepKeepsInvariant : Obligations.StepKeepsInvariant := by
  intro s t hs h
  cases step_cases h with
  | engine u _ _ hu ht =>
    have hok : EngineOk u := by
      rcases hu with rfl | rfl
      · exact hs
      · exact engineOk_popEvent hs
    exact engineOk_engineStep hok ht
  | reset rest _ ht => subst ht; exact engineOk_reset
  | action a rest i _ _ _ hi ht =>
    obtain ⟨o, n, v, -, -, hk⟩ := busAction_some hi
    exact engineOk_keyctl (engineOk_respond (engineOk_popEvent hs) _) (portOf_decodeKeyctl hk) ht
  | access a rest _ hw hl _ ht => subst ht; exact engineOk_hostAccess (engineOk_popEvent hs) hw hl
  | outside a rest _ _ ht => subst ht; exact engineOk_respond (engineOk_popEvent hs) _
  | idle _ ht =>
    rcases ht with rfl | rfl
    · exact hs
    · exact engineOk_popEvent hs

end Sys2Proof.Machine
end

section
/-! PROOFS. The AES key bears on nothing but itself outside the GCM commands (60_exceptions.md R229): each piece of
a step gives states that differ in the key alone from states that do. -/

namespace Sys2Proof.Machine
open Sys2Proof Sys2Proof.Claims

/-- A state with another staged key and another key in use. -/
def withKey (s : State) (staged : Vector Word 8) (key : Vector Byte 32) : State :=
  { s with aesKey := staged, kInt := key }

theorem exists_withKey {s t : State} (h : SameButKey s t) : ∃ p k, t = withKey s p k := ⟨_, _, h⟩

/-- Both outcomes are next states that differ in the key alone. -/
def SameButKeyNext (o o' : Host.Outcome State Fault Refusal) : Prop :=
  ∃ s t, o = .next s ∧ o' = .next t ∧ SameButKey s t

section KeyChange
variable (s : State) (p : Vector Word 8) (k : Vector Byte 32)

/-! The engine's step. -/

/-- The checks and writes of a command read neither key where they commute with a change of it. -/
def ReadsNoKey (perform : State → Except ErrCode State) : Prop :=
  ∀ s p k, perform (withKey s p k) = (perform s).map (withKey · p k)

theorem readsNoKey_ok {f : State → State} (h : ∀ s p k, f (withKey s p k) = withKey (f s) p k) :
    ReadsNoKey fun s => .ok (f s) := fun s p k => congrArg Except.ok (h s p k)

/-- A check of something else than the key, that fails with an error. -/
theorem readsNoKey_check {c : State → Prop} [∀ s, Decidable (c s)] {e : ErrCode}
    {b : State → Except ErrCode State} (hc : ∀ s p k, c (withKey s p k) ↔ c s) (hb : ReadsNoKey b) :
    ReadsNoKey fun s => if c s then .error e else b s := by
  intro s p k
  have hcheck := hc s p k
  have hrest := hb s p k
  by_cases h : c s
  · simp [hcheck, h, Except.map]
  · simp [hcheck, h, hrest]

theorem keyBytes_withKey : keyBytes (withKey s p k) = keyBytes s := rfl

theorem srcBytes_withKey : srcBytes (withKey s p k) = srcBytes s := rfl

theorem writeResult_withKey (out : List Byte) :
    writeResult (withKey s p k) out = withKey (writeResult s out) p k := rfl

theorem writeDigest_withKey (d : List Byte) :
    writeDigest (withKey s p k) d = withKey (writeDigest s d) p k := rfl

theorem writeCode_withKey (d : List Byte) :
    writeCode (withKey s p k) d = withKey (writeCode s d) p k := rfl

theorem performHmacSha1_readsNoKey : ReadsNoKey performHmacSha1 :=
  readsNoKey_check (fun _ _ _ => Iff.rfl) <|
    readsNoKey_check (fun _ _ _ => Iff.rfl) <|
      readsNoKey_check (fun _ _ _ => Iff.rfl) <|
        readsNoKey_ok fun s p k => by
          simp only [keyBytes_withKey, srcBytes_withKey, writeResult_withKey, writeDigest_withKey]

theorem performHotp_readsNoKey (d : BitVec 4) : ReadsNoKey (performHotp d) :=
  readsNoKey_check (fun _ _ _ => Iff.rfl) <|
    readsNoKey_check (fun _ _ _ => Iff.rfl) <|
      readsNoKey_check (fun _ _ _ => Iff.rfl) <|
        readsNoKey_check (fun _ _ _ => Iff.rfl) <|
          readsNoKey_ok fun s p k => writeDigest_withKey (writeCode s (hotpDigest s)) p k _

theorem performHotpTrunc_readsNoKey (d : BitVec 4) : ReadsNoKey (performHotpTrunc d) :=
  readsNoKey_check (fun _ _ _ => Iff.rfl) <|
    readsNoKey_check (fun _ _ _ => Iff.rfl) <|
      readsNoKey_check (fun _ _ _ => Iff.rfl) <|
        readsNoKey_check (fun _ _ _ => Iff.rfl) <|
          readsNoKey_ok fun s p k => writeCode_withKey s p k (srcBytes s)

theorem performB32Enc_readsNoKey : ReadsNoKey performB32Enc :=
  readsNoKey_check (fun _ _ _ => Iff.rfl) <|
    readsNoKey_check (fun _ _ _ => Iff.rfl) <|
      readsNoKey_ok fun s p k => writeResult_withKey s p k (b32Encode (srcBytes s))

theorem performB32Dec_readsNoKey : ReadsNoKey performB32Dec :=
  readsNoKey_check (fun _ _ _ => Iff.rfl) <|
    readsNoKey_check (fun _ _ _ => Iff.rfl) <|
      readsNoKey_ok fun s p k => writeResult_withKey s p k (b32Decode (srcBytes s))

theorem sameButKey_complete {perform : State → Except ErrCode State} (h : ReadsNoKey perform) :
    SameButKeyNext (complete s (perform s)) (complete (withKey s p k) (perform (withKey s p k))) := by
  rw [h s p k]
  cases perform s with
  | error e => exact ⟨_, _, rfl, rfl, rfl⟩
  | ok u => exact ⟨_, _, rfl, rfl, rfl⟩

/-- A command that is no GCM command reads neither key. -/
theorem sameButKey_exec {i : Instr} (hi : portOf i = .cmd) (henc : i ≠ .gcmEnc) (hdec : i ≠ .gcmDec) :
    SameButKeyNext (exec i s) (exec i (withKey s p k)) := by
  cases i with
  | hmacSha1 => exact sameButKey_complete s p k performHmacSha1_readsNoKey
  | hotp d => exact sameButKey_complete s p k (performHotp_readsNoKey d)
  | hotpTrunc d => exact sameButKey_complete s p k (performHotpTrunc_readsNoKey d)
  | b32Enc => exact sameButKey_complete s p k performB32Enc_readsNoKey
  | b32Dec => exact sameButKey_complete s p k performB32Dec_readsNoKey
  | gcmEnc => exact absurd rfl henc
  | gcmDec => exact absurd rfl hdec
  | keyLoad | keyClear => cases hi

/-- The engine step of any word but those of the two GCM commands. -/
theorem sameButKey_engineStep (h6 : s.cmd ≠ 6) (h7 : s.cmd ≠ 7) :
    SameButKeyNext (engineStep s) (engineStep (withKey s p k)) := by
  cases hd : decodeCmd s.cmd with
  | error e =>
    rw [engineStep_of_decodeCmd_error hd, engineStep_of_decodeCmd_error (s := withKey s p k) hd]
    exact ⟨_, _, rfl, rfl, rfl⟩
  | ok i =>
    obtain ⟨hport, -, hw⟩ := decodeCmd_ok_iff.1 hd
    rw [engineStep_of_decodeCmd_ok hd, engineStep_of_decodeCmd_ok (s := withKey s p k) hd]
    refine sameButKey_exec s p k hport ?_ ?_
    · rintro rfl
      exact h6 hw
    · rintro rfl
      exact h7 hw

/-! The host's accesses. -/

/-- No location reads as any of the key: `AESKEY0..7` read 0 (10_state.md R40). -/
theorem locValue_withKey (l : Loc) : locValue (withKey s p k) l = locValue s l := by
  cases l <;> rfl

theorem sameButKey_hostRead (l : Loc) : SameButKey (hostRead s l) (hostRead (withKey s p k) l) := by
  have hbusy : (withKey s p k).busy = s.busy := rfl
  rw [hostRead, hostRead, locValue_withKey, hbusy]
  split <;> rfl

theorem sameButKey_storeLoc (v : Word) (l : Loc) :
    SameButKey (storeLoc s v l) (storeLoc (withKey s p k) v l) := by
  cases l <;> rfl

theorem sameButKey_hostWrite (l : Loc) (v : Word) :
    SameButKey (hostWrite s l v) (hostWrite (withKey s p k) l v) := by
  have hbusy : (withKey s p k).busy = s.busy := rfl
  rw [hostWrite, hostWrite, hbusy]
  split
  · rfl
  · exact sameButKey_storeLoc (respond s .written) p k v l

/-- A `KEYCTL` action moves the staged key to the key in use or clears both, and reads neither elsewhere. -/
theorem sameButKey_keyctl {i : Instr} (hi : portOf i = .keyctl) :
    SameButKeyNext (exec i s) (exec i (withKey s p k)) := by
  cases hb : s.busy with
  | true =>
    rw [exec_keyctl_busy hi hb, exec_keyctl_busy (s := withKey s p k) hi hb]
    exact ⟨_, _, rfl, rfl, rfl⟩
  | false =>
    cases i with
    | keyLoad =>
      rw [exec_keyLoad_idle hb, exec_keyLoad_idle (s := withKey s p k) hb]
      exact ⟨_, _, rfl, rfl, rfl⟩
    | keyClear =>
      rw [exec_keyClear_idle hb, exec_keyClear_idle (s := withKey s p k) hb]
      exact ⟨_, _, rfl, rfl, rfl⟩
    | _ => cases hi

theorem sameButKey_hostStep (a : Access) : SameButKeyNext (hostStep a s) (hostStep a (withKey s p k)) := by
  unfold hostStep
  cases hi : busAction a with
  | some i =>
    obtain ⟨o, n, v, -, -, hv⟩ := busAction_some hi
    exact sameButKey_keyctl (respond s .written) p k (portOf_decodeKeyctl hv)
  | none =>
    refine ⟨_, _, rfl, rfl, ?_⟩
    cases a with
    | read o n => exact sameButKey_hostRead s p k _
    | write o n v => exact sameButKey_hostWrite s p k _ v

/-! The step. -/

/-- A turn with another key in the state it hands on. -/
def Turn.withKey : Turn → Turn
  | .engineStep s => .engineStep (Machine.withKey s p k)
  | .resetStep s => .resetStep (Machine.withKey s p k)
  | .hostStep a s => .hostStep a (Machine.withKey s p k)
  | .outside s => .outside (Machine.withKey s p k)
  | .busError a => .busError a
  | .idle s => .idle (Machine.withKey s p k)

/-- Who moves next does not depend on the key. -/
theorem turn_withKey : turn (withKey s p k) = (turn s).withKey p k := by
  have hevents : (withKey s p k).events = s.events := rfl
  have hbusy : (withKey s p k).busy = s.busy := rfl
  rw [turn, turn, hevents]
  match s.events with
  | [] | .engine :: _ =>
    simp only [hbusy]
    split <;> rfl
  | .reset :: _ => rfl
  | .access a :: _ =>
    simp only [accessTurn, hbusy]
    split_ifs <;> rfl

end KeyChange

/-- What the statement asks of a step, where both outcomes are next states. -/
theorem aesKey_of_sameButKeyNext {o o' : Host.Outcome State Fault Refusal} (h : SameButKeyNext o o') :
    (∀ s, o = .next s → ∃ t, o' = .next t ∧ SameButKey s t) ∧ ∀ r, o = .fault r → o' = .fault r := by
  obtain ⟨s, t, rfl, rfl, hst⟩ := h
  refine ⟨fun u hu => ?_, fun r hr => (nomatch hr)⟩
  cases hu
  exact ⟨t, rfl, hst⟩

/-- The state an engine step starts from holds the pending word. -/
theorem cmd_of_turn_engineStep {s u : State} (h : turn s = .engineStep u) : u.cmd = s.cmd := by
  unfold turn at h
  split at h
  · split at h <;> cases h
    rfl
  · split at h <;> cases h
    rfl
  · cases h
  · unfold accessTurn at h
    split_ifs at h
    cases h
    rfl

/-- Settles O31: by whose turn it is, the same in both states. -/
theorem aesKeyCannotBeReadBack : Obligations.AesKeyCannotBeReadBack := by
  intro s t hst hgcm
  obtain ⟨p, k, rfl⟩ := exists_withKey hst
  have hturn := turn_withKey s p k
  unfold step
  rw [hturn]
  cases ht : turn s with
  | engineStep u =>
    obtain ⟨h6, h7⟩ := hgcm u ht
    have hcmd := cmd_of_turn_engineStep ht
    rw [← hcmd] at h6 h7
    exact aesKey_of_sameButKeyNext (sameButKey_engineStep u p k h6 h7)
  | hostStep a u => exact aesKey_of_sameButKeyNext (sameButKey_hostStep u p k a)
  | resetStep u | outside u | idle u => exact aesKey_of_sameButKeyNext ⟨_, _, rfl, rfl, rfl⟩
  | busError a => exact ⟨fun _ h => (nomatch h), fun _ h => h⟩

end Sys2Proof.Machine
end

section
/-! PROOFS. The step (60_exceptions.md R220, R243): the engine's turn, the instruction a step runs, and accesses that
are no legal ones. -/

namespace Sys2Proof.Machine
open Sys2Proof Sys2Proof.Claims

/-! The engine's turn. -/

/-- With no event left a pending command takes its engine step (log 1). -/
theorem step_busy_nil {s : State} (hb : s.busy = true) (he : s.events = []) : step s = engineStep s := by
  simp [step, turn, he, hb]

/-- At the engine's turn a pending command takes its engine step. -/
theorem step_busy_engine {s : State} {rest : List Event} (hb : s.busy = true) (he : s.events = .engine :: rest) :
    step s = engineStep { s with events := rest } := by
  simp [step, turn, he, hb, popEvent_of_events he]

/-- With no event left an idle engine holds its state (log 11). -/
theorem step_idle_nil {s : State} (hb : s.busy = false) (he : s.events = []) : step s = .next s := by
  simp [step, turn, he, hb]

/-- At its turn an idle engine holds its state (60_exceptions.md R243). -/
theorem step_idle_engine {s : State} {rest : List Event} (hb : s.busy = false) (he : s.events = .engine :: rest) :
    step s = .next { s with events := rest } := by
  simp [step, turn, he, hb, popEvent_of_events he]

/-- Settles O11: at either turn the step is the engine step, which always completes. -/
theorem engineStepsExactlyWhenBusy : Obligations.EngineStepsExactlyWhenBusy := by
  refine fun s => ⟨fun hb hturn => ?_, step_idle_nil, fun hb rest => step_idle_engine hb⟩
  obtain ⟨t, ht⟩ := engineStep_next { s with events := s.events.tail }
  obtain ⟨hevents, hbusy, hdone, hcmd, hwbusy, hok, herr, -⟩ := engineStep_frame ht
  refine ⟨t, ?_, hevents, hbusy, hdone, hcmd, hwbusy, hok, herr⟩
  rcases hturn with he | ⟨rest, he⟩
  · have hs : { s with events := s.events.tail } = s := by rw [he, List.tail_nil, ← he]
    rw [step_busy_nil hb he, ← hs, ht]
  · rw [step_busy_engine hb he, ← ht, he, List.tail_cons]

/-! A pending command completes. -/

theorem core_run_succ {M : Host.Core} {s t : M.State} (h : M.step s = .next t) (k : Nat) :
    M.run (k + 1) s = M.run k t := by
  simp only [Host.Core.run, h]

/-- A run of one step more than the run from the next state. -/
theorem run_succ_of_step {s t : State} (h : step s = .next t) (k : Nat) :
    Host.Core.run core (k + 1) s = Host.Core.run core k t := core_run_succ (M := core) h k

/-- A pending command keeps the machine from stopping. -/
theorem step_next_of_busy {s : State} (hb : s.busy = true) : ∃ t, step s = .next t := by
  by_contra hstop
  obtain ⟨a, rest, -, -, -, hidle, -⟩ := step_stops fun t ht => hstop ⟨t, ht⟩
  exact absurd hb (by simp [hidle])

/-- A host access leaves the events to come. -/
theorem hostAccess_events (s : State) (a : Access) : (hostAccess s a).events = s.events := by
  cases a with
  | read o n => rw [hostAccess, hostRead_frame]
  | write o n v =>
    cases hostWrite_cases s (locate o) v with
    | blocked _ _ h | start _ _ h | status _ h | intEn _ h | operand _ h | ignored h =>
      exact (congrArg State.events h :)

/-- A step that leaves the command pending took an event. -/
theorem events_of_step_still_busy {s t : State} (h : step s = .next t) (hs : s.busy = true) (ht : t.busy = true) :
    t.events.length + 1 = s.events.length := by
  cases step_cases h with
  | engine u _ _ _ hu =>
    obtain ⟨-, hidle, -⟩ := engineStep_frame hu
    simp [hidle] at ht
  | reset rest _ h => subst h; simp [State.reset] at ht
  | action a rest i he _ _ hi h =>
    obtain ⟨o, n, v, -, -, hv⟩ := busAction_some hi
    have hbusy : (respond (popEvent s) .written).busy = true := hs
    rw [exec_keyctl_busy (portOf_decodeKeyctl hv) hbusy] at h
    cases h
    simp [popEvent, he]
  | access a rest he _ _ _ h =>
    subst h
    rw [hostAccess_events, he]
    simp [popEvent, he]
  | outside a rest he _ h => subst h; simp [popEvent, he]
  | idle hidle => simp [hs] at hidle

/-- Settles O10, by induction on the number of events left: a step ends the pending command or takes an event. -/
theorem pendingCommandCompletes : Obligations.PendingCommandCompletes := by
  intro s hb
  induction hn : s.events.length generalizing s with
  | zero =>
    obtain ⟨t, ht⟩ := step_next_of_busy hb
    refine ⟨1, Nat.le_refl 1, t, run_succ_of_step ht 0, ?_⟩
    by_contra hbusy
    have hlen := events_of_step_still_busy ht hb (by simpa using hbusy)
    omega
  | succ n ih =>
    obtain ⟨t, ht⟩ := step_next_of_busy hb
    cases hbusy : t.busy with
    | false => exact ⟨1, by omega, t, run_succ_of_step ht 0, hbusy⟩
    | true =>
      have hlen := events_of_step_still_busy ht hb hbusy
      obtain ⟨k, hk, u, hrun, hu⟩ := ih t hbusy (by omega)
      exact ⟨k + 1, by omega, u, (run_succ_of_step ht k).trans hrun, hu⟩

/-! The instruction a step runs. -/

/-- A host write to `CMD` is accepted while idle, and never decoded (30_encoding.md R90). -/
theorem step_cmdWrite {s : State} {v : Word} {rest : List Event} (h : NextIsWrite s 0x004 v rest)
    (hb : s.busy = false) : step s = .next (startCommand { s with events := rest, response := .written } v) :=
  step_of_writeLeaves (t := startCommand s v)
    (writeLeaves_storeLoc (o := 0x004) (by decide) (by simp) (by simp [hb])) h

/-- Settles O9: `CMD` is busy-blocked, and while idle its write starts the command. -/
theorem cmdWriteStartsACommand : Obligations.CmdWriteStartsACommand := by
  refine fun s v rest h => ⟨fun hb => ⟨step_cmdWrite h hb, fun hrest => step_busy_nil rfl hrest⟩, fun hb => ?_⟩
  exact step_write_blocked h (by decide) hb rfl

theorem engineStep_of_decode_ok {s : State} {i : Instr} (h : decode .cmd s.cmd = .ok i) :
    engineStep s = exec i s := engineStep_of_decodeCmd_ok (decode_cmd_ok_iff.1 h)

theorem decode_cmd_error_iff {w : Word} {e : ErrCode} :
    decode .cmd w = .error (.error e) ↔ decodeCmd w = .error e := by
  unfold decode
  cases decodeCmd w <;> simp

/-- A 32-bit table word that is a legal command word is placed in `CMD` with the engine's turn next (log 7). -/
theorem withFetchWord_cmd {w : Word} {i : Instr} (h : decode .cmd w = .ok i) (s : State) :
    s.withFetchWord 32 w.toNat = pushEvent (startCommand s w) .engine := by
  rw [State.withFetchWord, tablePort, BitVec.ofNat_toNat, BitVec.setWidth_eq, decode_cmd_ok_iff.1 h]
  rfl

/-- Any other table word is placed in a host write to `KEYCTL` (log 7). -/
theorem withFetchWord_keyctl {w : Word} {n : Nat} (h : n < 32 ∨ ∀ j, decode .cmd w ≠ .ok j) (s : State) :
    s.withFetchWord n w.toNat = pushEvent { s with busy := false } (.access (.write 0x03C 32 w)) := by
  have hport : tablePort n w.toNat = .keyctl := by
    rw [tablePort, BitVec.ofNat_toNat, BitVec.setWidth_eq]
    split
    · rfl
    · rename_i hn
      have hno := h.resolve_left hn
      cases hd : decodeCmd w with
      | ok i => exact absurd (decode_cmd_ok_iff.2 hd) (hno i)
      | error e => rfl
  rw [State.withFetchWord, hport, BitVec.ofNat_toNat, BitVec.setWidth_eq]
  rfl

/-- Settles O8: the engine's turn runs what `CMD` decodes to, a `KEYCTL` write what its word does, and a table word
is placed at one or the other. -/
theorem stepRunsTheDecodedInstruction : Obligations.StepRunsTheDecodedInstruction := by
  refine ⟨fun s i hb he hd => ?_, fun s i rest hb he hd => ?_, fun s e hb he hd => ?_, fun s e rest hb he hd => ?_,
    fun s i v rest he hd => step_keyctl he (decode_keyctl_ok_iff.1 hd), fun s i w hd => ?_, fun s i w n hn hd => ?_⟩
  · rw [step_busy_nil hb he, engineStep_of_decode_ok hd]
  · rw [step_busy_engine hb he]
    exact engineStep_of_decode_ok hd
  · rw [step_busy_nil hb he, engineStep_of_decodeCmd_error (decode_cmd_error_iff.1 hd)]
  · rw [step_busy_engine hb he]
    exact engineStep_of_decodeCmd_error (decode_cmd_error_iff.1 hd)
  · rw [withFetchWord_cmd hd, step_busy_engine (rest := s.events) rfl rfl]
    exact engineStep_of_decode_ok hd
  · rw [withFetchWord_keyctl hn]
    exact step_keyctl rfl (decode_keyctl_ok_iff.1 hd)

/-! Accesses that are no legal ones. -/

/-- A bus error waits for a pending command (log 3). -/
theorem step_busError {s : State} {a : Access} {rest : List Event} (he : s.events = .access a :: rest)
    (hw : inWindow a = true) (hl : legalAccess a = false) :
    step s = if s.busy then engineStep s else .fault (.busError a) := by
  cases hb : s.busy <;> simp [step, turn, he, accessTurn, hw, hl, hb]

theorem step_outside {s : State} {a : Access} {rest : List Event} (he : s.events = .access a :: rest)
    (hw : inWindow a = false) : step s = .next { s with events := rest, response := .undecoded } := by
  simp [step, turn, he, accessTurn, hw, popEvent_of_events he, respond]

/-- Settles O22: the window and the legal accesses in numbers. -/
theorem badAccessesAreHostFaults : Obligations.BadAccessesAreHostFaults := by
  refine fun s a rest he => ⟨fun hoff hbad => ?_, fun hoff => ?_⟩
  · have hw : inWindow a = true := decide_eq_true hoff
    have hl : legalAccess a = false := by
      rw [legalAccess, Config.busWidth]
      rcases hbad with h | h <;> simp [h]
    have hstep := step_busError he hw hl
    exact ⟨fun hb => by rw [hstep, hb]; rfl, fun hb => by rw [hstep, hb]; rfl⟩
  · exact step_outside he (decide_eq_false (Nat.not_lt.2 hoff))

end Sys2Proof.Machine
end

section
/-! PROOFS. The register map while idle (10_state.md section 2): what each offset reads as, which of them store, and
that a read leaves everything but its answer (20_memory.md R69). -/

namespace Sys2Proof.Machine
open Sys2Proof Sys2Proof.Claims

/-! Reads. -/

/-- No location's value depends on the answer recorded last or on the count of draws. -/
theorem locValue_response_draws (s : State) (r : Response) (n : Nat) (l : Loc) :
    locValue { s with response := r, draws := n } l = locValue s l := by cases l <;> rfl

/-- After other reads an offset still reads as it did (20_memory.md R69). -/
theorem readsAs_after_reads {s : State} {o : Nat} (ho : WordOffset o)
    (hr : (s.busy && resultLoc (locate o)) = false) (r : Response) (n : Nat) :
    ReadsAs { s with response := r, draws := n } o (locValue s (locate o)) := by
  rw [← locValue_response_draws s r n]
  exact readsAs_locValue (s := { s with response := r, draws := n }) ho hr

/-- Settles O15: a read of a result location while busy takes a draw, any other leaves its answer alone. -/
theorem readsHaveNoSideEffect : Obligations.ReadsHaveNoSideEffect := by
  intro s o rest ho h
  refine ⟨?_, fun hidle => ?_⟩
  · cases hr : s.busy && resultLoc (locate o) with
    | true => exact ⟨_, _, step_read_draw h ho hr⟩
    | false => exact ⟨_, s.draws, step_read_defined h ho hr⟩
  · have hr : (s.busy && resultLoc (locate o)) = false := by
      rwa [resultOffset_iff ho, ← Bool.and_eq_true_iff, Bool.not_eq_true] at hidle
    exact ⟨_, step_read_defined h ho hr, readsAs_after_reads ho hr _ s.draws, readsAs_after_reads ho hr⟩

theorem readsAs_idle {s : State} (hb : s.busy = false) {o : Nat} (ho : WordOffset o) :
    ReadsAs s o (locValue s (locate o)) := readsAs_locValue ho (by simp [hb])

/-- A register of the map at its offset, while idle. -/
theorem readsAs_idle_of_locate {s : State} (hb : s.busy = false) {o : Nat} {l : Loc} (ho : WordOffset o)
    (hl : locate o = l) : ReadsAs s o (locValue s l) := hl ▸ readsAs_idle hb ho

/-- Settles O16: the scalar registers by evaluation of the map, the groups and the reserved offsets by its laws. -/
theorem registerMapReads : Obligations.RegisterMapReads := by
  intro s hb
  have hread {o : Nat} (ho : WordOffset o) := readsAs_idle hb ho
  refine ⟨hread (by decide), hread (by decide), hread (by decide), hread (by decide), hread (by decide),
    hread (by decide), hread (by decide), hread (by decide), hread (by decide), hread (by decide), hread (by decide),
    hread (by decide), hread (by decide), hread (by decide), hread (by decide), hread (by decide),
    fun i => ?_, fun i => ?_, fun i => ?_, fun i => ?_, fun o ho => ?_⟩
  · exact readsAs_idle_of_locate hb (by omega) (locate_aesKey i)
  · exact readsAs_idle_of_locate hb (by omega) (locate_iv i)
  · exact readsAs_idle_of_locate hb (by omega) (locate_tag i)
  · exact readsAs_idle_of_locate hb (by omega) (locate_digest i)
  · exact readsAs_idle_of_locate hb (by omega) (locate_reserved ho.1 ho.2)

/-! Writes. -/

/-- While idle a write stores at its location, `KEYCTL` apart. -/
theorem writeLeaves_idle {s : State} (hb : s.busy = false) {o : Nat} (v : Word) (ho : WordOffset o) (hk : o ≠ 0x03C) :
    WriteLeaves s o v (storeLoc s v (locate o)) :=
  writeLeaves_storeLoc ho (fun h => absurd h hk) (by simp [hb])

/-- A register of the map at its offset, while idle. -/
theorem writeLeaves_idle_of_locate {s : State} (hb : s.busy = false) {o : Nat} {l : Loc} (v : Word)
    (ho : WordOffset o) (hk : o ≠ 0x03C) (hl : locate o = l) : WriteLeaves s o v (storeLoc s v l) :=
  hl ▸ writeLeaves_idle hb v ho hk

/-- Settles O17: the scalar registers by evaluation of the map, the groups by its laws. -/
theorem operandRegistersStore : Obligations.OperandRegistersStore := by
  intro s v hb
  have hwrite {o : Nat} (ho : WordOffset o) (hk : o ≠ 0x03C) := writeLeaves_idle hb v ho hk
  refine ⟨hwrite (by decide) (by decide), hwrite (by decide) (by decide), hwrite (by decide) (by decide),
    hwrite (by decide) (by decide), hwrite (by decide) (by decide), hwrite (by decide) (by decide),
    hwrite (by decide) (by decide), fun i => ?_, fun i => ?_⟩
  · exact writeLeaves_idle_of_locate hb v (by omega) (by omega) (locate_iv i)
  · exact writeLeaves_idle_of_locate hb v (by omega) (by omega) (locate_tag i)

/-- Settles O18: the staging registers are busy-blocked and no result locations, and read 0. -/
theorem aesKeyRegistersAreWriteOnlyStaging : Obligations.AesKeyRegistersAreWriteOnlyStaging := by
  refine ⟨fun s v i => ⟨?_, fun hb => ?_, fun hb => ?_⟩, regBytes_getElem?, rfl⟩
  · have hr := readsAs_of_not_resultLoc s (o := 0x040 + 4 * i) (by omega) (by rw [locate_aesKey]; rfl)
    rwa [locate_aesKey] at hr
  · exact writeLeaves_idle_of_locate hb v (by omega) (by omega) (locate_aesKey i)
  · exact writeLeaves_blocked v hb (by omega)

end Sys2Proof.Machine
end

section
/-! PROOFS. What changes STATUS and the key, over all steps (10_state.md section 2), and the order of errors
(60_exceptions.md R219). -/

namespace Sys2Proof.Machine
open Sys2Proof Sys2Proof.Claims

/-! STATUS. -/

/-- BUSY is set by an accepted `CMD` write (10_state.md R25). -/
theorem step_sets_busy {s t : State} (h : step s = .next t) (hs : s.busy = false) (ht : t.busy = true) :
    ∃ v rest, NextIsWrite s 0x004 v rest ∧ t.cmd = v ∧ t.done = false := by
  cases step_status h with
  | start v rest he _ _ h2 _ _ _ _ h7 => exact ⟨v, rest, he, h7, h2⟩
  | same h | intEn _ _ _ h | blocked _ _ _ _ _ _ _ _ h | reset _ _ h =>
    obtain ⟨hbusy, -⟩ := h
    exact absurd ht (by simp [hbusy, hs, State.reset])
  | engine _ hb => exact absurd hb (by simp [hs])
  | status _ _ _ _ _ h3 => exact absurd ht (by simp [h3, hs])

/-- BUSY is cleared by completion or reset (10_state.md R25). -/
theorem step_clears_busy {s t : State} (h : step s = .next t) (hs : s.busy = true) (ht : t.busy = false) :
    (t.done = true ∧ ∃ u, turn s = .engineStep u) ∨ ∃ rest, s.events = .reset :: rest := by
  cases step_status h with
  | engine hturn _ _ h2 => exact .inl ⟨h2, hturn⟩
  | reset rest he => exact .inr ⟨rest, he⟩
  | same h | intEn _ _ _ h | blocked _ _ _ _ _ _ _ _ h =>
    obtain ⟨hbusy, -⟩ := h
    exact absurd ht (by simp [hbusy, hs])
  | start _ _ _ hb => exact absurd hb (by simp [hs])
  | status _ _ _ _ _ h3 => exact absurd ht (by simp [h3, hs])

/-- DONE is set by completion (10_state.md R26). -/
theorem step_sets_done {s t : State} (h : step s = .next t) (hs : s.done = false) (ht : t.done = true) :
    s.busy = true ∧ t.busy = false ∧ ∃ u, turn s = .engineStep u := by
  cases step_status h with
  | engine hturn hb h1 => exact ⟨hb, h1, hturn⟩
  | same h | intEn _ _ _ h | blocked _ _ _ _ _ _ _ _ h | reset _ _ h =>
    obtain ⟨-, hdone, -⟩ := h
    exact absurd ht (by simp [hdone, hs, State.reset])
  | start _ _ _ _ _ h2 => exact absurd ht (by simp [h2])
  | status _ _ _ h1 => exact absurd ht (by simp [h1, hs])

/-- DONE is cleared by its W1C write, an accepted `CMD` write or reset (10_state.md R26). -/
theorem step_clears_done {s t : State} (h : step s = .next t) (hs : s.done = true) (ht : t.done = false) :
    (∃ v rest, NextIsWrite s 0x008 v rest ∧ v.getLsbD 1 = true) ∨
      (s.busy = false ∧ ∃ v rest, NextIsWrite s 0x004 v rest) ∨ ∃ rest, s.events = .reset :: rest := by
  cases step_status h with
  | status v rest he h1 => exact .inl ⟨v, rest, he, by simpa [h1, hs] using ht⟩
  | start v rest he hb => exact .inr (.inl ⟨hb, v, rest, he⟩)
  | reset rest he => exact .inr (.inr ⟨rest, he⟩)
  | same h | intEn _ _ _ h | blocked _ _ _ _ _ _ _ _ h =>
    obtain ⟨-, hdone, -⟩ := h
    exact absurd ht (by simp [hdone, hs])
  | engine _ _ _ h2 => exact absurd ht (by simp [h2])

/-- Settles O23, a clause for each way the two flags can change. -/
theorem busyAndDoneChangeOnlyAsStated : Obligations.BusyAndDoneChangeOnlyAsStated := fun _ _ h =>
  ⟨step_sets_busy h, step_clears_busy h, step_sets_done h, step_clears_done h⟩

/-- ERR and ERRCODE hold until the next accepted `CMD` write, completion or reset (10_state.md R27). -/
theorem step_changes_err {s t : State} (h : step s = .next t) (hne : t.err ≠ s.err ∨ t.errCode ≠ s.errCode) :
    (s.busy = false ∧ (∃ v rest, NextIsWrite s 0x004 v rest) ∧ t.err = false ∧ t.errCode = 0) ∨
      (s.busy = true ∧ t.busy = false ∧ ∃ u, turn s = .engineStep u) ∨ ∃ rest, s.events = .reset :: rest := by
  cases step_status h with
  | start v rest he hb _ _ h3 h4 => exact .inl ⟨hb, ⟨v, rest, he⟩, h3, h4⟩
  | engine hturn hb h1 => exact .inr (.inl ⟨hb, h1, hturn⟩)
  | reset rest he => exact .inr (.inr ⟨rest, he⟩)
  | same h | intEn _ _ _ h | blocked _ _ _ _ _ _ _ _ h =>
    obtain ⟨-, -, herr, hcode, -⟩ := h
    exact absurd hne (by simp [herr, hcode])
  | status _ _ _ _ _ _ h4 h5 => exact absurd hne (by simp [h4, h5])

/-- WBUSY is set by an ignored busy write (10_state.md R28, R47). -/
theorem step_sets_wbusy {s t : State} (h : step s = .next t) (hs : s.wbusy = false) (ht : t.wbusy = true) :
    s.busy = true ∧ ∃ o v rest, NextIsWrite s o v rest ∧ BusyBlockedOffset o := by
  cases step_status h with
  | blocked o v rest he hw ha hl hb =>
    rw [busyBlocked_locate_iff ha] at hl
    exact ⟨hb, o, v, rest, he, ha, by omega⟩
  | same h | intEn _ _ _ h | reset _ _ h =>
    obtain ⟨-, -, -, -, hwbusy, -⟩ := h
    exact absurd ht (by simp [hwbusy, hs, State.reset])
  | engine _ _ _ _ h3 => exact absurd ht (by simp [h3, hs])
  | start _ _ _ _ _ _ _ _ h5 => exact absurd ht (by simp [h5, hs])
  | status _ _ _ _ h2 => exact absurd ht (by simp [h2, hs])

/-- WBUSY is cleared by its W1C write or reset (10_state.md R28). -/
theorem step_clears_wbusy {s t : State} (h : step s = .next t) (hs : s.wbusy = true) (ht : t.wbusy = false) :
    (∃ v rest, NextIsWrite s 0x008 v rest ∧ v.getLsbD 3 = true) ∨ ∃ rest, s.events = .reset :: rest := by
  cases step_status h with
  | status v rest he _ h2 => exact .inl ⟨v, rest, he, by simpa [h2, hs] using ht⟩
  | reset rest he => exact .inr ⟨rest, he⟩
  | same h | intEn _ _ _ h | blocked _ _ _ _ _ _ _ _ h =>
    obtain ⟨-, -, -, -, hwbusy, -⟩ := h
    exact absurd ht (by simp [hwbusy, hs])
  | engine _ _ _ _ h3 => exact absurd ht (by simp [h3, hs])
  | start _ _ _ _ _ _ _ _ h5 => exact absurd ht (by simp [h5, hs])

/-- Settles O24, a clause for each way the three fields can change. -/
theorem errAndWbusyChangeOnlyAsStated : Obligations.ErrAndWbusyChangeOnlyAsStated := fun _ _ h =>
  ⟨step_changes_err h, step_sets_wbusy h, step_clears_wbusy h⟩

/-! The key. -/

/-- Settles O30: by how the step moves the key. -/
theorem onlyKeyActionsAndResetChangeTheKey : Obligations.OnlyKeyActionsAndResetChangeTheKey := by
  intro s t h
  cases step_keyMove h with
  | same h => exact .inl h
  | load v rest he hb h1 h0 h =>
    obtain ⟨hkey, hvalid⟩ := h
    have hbytes := (congrArg Vector.toList hkey).trans (kIntBytes_loadKey s)
    exact .inr (.inl ⟨hb, ⟨v, rest, he, h1, h0⟩, hbytes, hvalid⟩)
  | clear v rest he hb h1 h =>
    obtain ⟨hkey, hvalid⟩ := h
    have hbytes := (congrArg Vector.toList hkey).trans (kIntBytes_clearKey s)
    exact .inr (.inr (.inl ⟨hb, ⟨v, rest, he, h1⟩, hbytes, hvalid⟩))
  | reset rest he h =>
    obtain ⟨hkey, hvalid⟩ := h
    exact .inr (.inr (.inr ⟨⟨rest, he⟩, congrArg Vector.toList hkey, hvalid⟩))

/-! The order of errors. -/

/-- A term with `DIGITS` other than 6 fails before every other check (log 8). -/
theorem hotp_failsWith_badDigits {d : BitVec 4} (hd : d ≠ 6) (s : State) : FailsWith (.hotp d) s 2 :=
  complete_error (e := .badDigits) (if_pos hd)

theorem hotpTrunc_failsWith_badDigits {d : BitVec 4} (hd : d ≠ 6) (s : State) : FailsWith (.hotpTrunc d) s 2 :=
  complete_error (e := .badDigits) (if_pos hd)

/-- Settles O39: each command's errors in the order of its checks. -/
theorem errorsAreReportedInPriorityOrder : Obligations.ErrorsAreReportedInPriorityOrder := by
  refine fun s => ⟨fun e => engineStep_of_decodeCmd_error, fun i => engineStep_of_decodeCmd_ok,
    fun d hd => ⟨hotp_failsWith_badDigits hd s, hotpTrunc_failsWith_badDigits hd s⟩,
    fun h => ⟨gcmEnc_failsWith_noKey h, gcmDec_failsWith_noKey h⟩, hotpTrunc_failsWith_badLen,
    hotp_failsWith_keyEmpty, hmacSha1_failsWith_range, hotp_failsWith_range, hotpTrunc_failsWith_range,
    b32Enc_failsWith_range, b32Dec_failsWith_range,
    fun hk h => ⟨gcmEnc_failsWith_range hk h, gcmDec_failsWith_range hk h⟩, fun hk hs hd hfail => ?_⟩
  refine gcmDec_failsWith_authFail hk hs hd fun htag => ?_
  rw [gcmAD_of_eq htag] at hfail
  cases hfail

end Sys2Proof.Machine
end

section
/-! PROOFS. The Base32 decoder (40_base32.md R103 to R106) and the round trip: what it skips, and the bits of its
output. -/

namespace Sys2Proof.Machine
open Sys2Proof

/-! What the decoder skips. -/

/-- Whether a byte is an alphabet character. -/
def isSymbol (c : Byte) : Bool := (b32SymVal c).isSome

/-- The loop takes the symbols alone (40_base32.md R105). -/
theorem b32DecodeLoop_filter (t : List Byte) (acc : BitVec 12) (n : Nat) :
    b32DecodeLoop (t.filter isSymbol) acc n = b32DecodeLoop t acc n := by
  induction t generalizing acc n with
  | nil => rfl
  | cons c t ih =>
    cases hc : b32SymVal c with
    | none =>
      have hskip : isSymbol c = false := by rw [isSymbol, hc]; rfl
      rw [List.filter_cons_of_neg (by simp [hskip]), ih, b32DecodeLoop, hc]
    | some v =>
      have htake : isSymbol c = true := by rw [isSymbol, hc]; rfl
      rw [List.filter_cons_of_pos htake, b32DecodeLoop, b32DecodeLoop, hc]
      simp only [ih]

/-- Stripping takes no symbol: `=` is none (40_base32.md R104). -/
theorem filter_stripEquals (t : List Byte) : (stripEquals t).filter isSymbol = t.filter isSymbol := by
  have hsuffix : (t.reverse.takeWhile (· == 0x3D)).filter isSymbol = [] := by
    refine List.filter_eq_nil_iff.2 fun c hc => ?_
    obtain rfl : c = 0x3D := by simpa using List.mem_takeWhile_imp hc
    decide
  have hsplit : t.reverse.filter isSymbol = (t.reverse.dropWhile (· == 0x3D)).filter isSymbol := by
    have happend := List.takeWhile_append_dropWhile (p := (· == 0x3D)) (l := t.reverse)
    rw [← congrArg (List.filter isSymbol) happend, List.filter_append, hsuffix, List.nil_append]
  rw [stripEquals, List.filter_reverse, ← hsplit, List.filter_reverse, List.reverse_reverse]

/-- The decoder is its loop on the folded text: the stripping is immaterial (40_base32.md R105). -/
theorem b32Decode_eq_loop (t : List Byte) : b32Decode t = b32DecodeLoop (t.map asciiUpper) 0 0 := by
  rw [b32Decode, ← b32DecodeLoop_filter, filter_stripEquals, b32DecodeLoop_filter]

/-- Folding leaves a symbol: its letters are upper-case. -/
theorem asciiUpper_of_isSymbol : ∀ c : Byte, isSymbol c = true → asciiUpper c = c := by decide

theorem map_asciiUpper_filter (t : List Byte) : (t.filter isSymbol).map asciiUpper = t.filter isSymbol :=
  (List.map_congr_left fun c hc => asciiUpper_of_isSymbol c (List.mem_filter.1 hc).2).trans (List.map_id _)

/-- Settles O45: the loop skips what is no symbol, and folding leaves the symbols. -/
theorem base32DecodeSkipsEverythingElse : Obligations.Base32DecodeSkipsEverythingElse := by
  refine fun t => ⟨b32Decode_eq_loop t, ?_⟩
  change b32Decode t = b32Decode ((t.map asciiUpper).filter isSymbol)
  rw [b32Decode_eq_loop, b32Decode_eq_loop, map_asciiUpper_filter, b32DecodeLoop_filter]

/-! The decoder's bits. -/

/-- Bit `q` of what the loop has still to give: the `n` bits held in the accumulator, then five of each symbol value,
the most significant first. -/
def pendingBit (acc : BitVec 12) (n : Nat) (vals : List Nat) (q : Nat) : Bool :=
  if q < n then acc.getLsbD (n - 1 - q) else (vals[(q - n) / 5]?.getD 0).testBit (4 - (q - n) % 5)

/-- Shifting a symbol value into the accumulator leaves the bits to give. -/
theorem pendingBit_shift {n v : Nat} (hn : n < 8) (hv : v < 32) (acc : BitVec 12) (vals : List Nat) (q : Nat) :
    pendingBit ((acc <<< 5) ||| BitVec.ofNat 12 v) (n + 5) vals q = pendingBit acc n (v :: vals) q := by
  unfold pendingBit
  rcases Nat.lt_or_ge q n with hheld | hnew
  · have hpow : 2 ^ 5 ≤ 2 ^ (n + 5 - 1 - q) := Nat.pow_le_pow_right (by decide) (by omega)
    have hhigh : v.testBit (n + 5 - 1 - q) = false := Nat.testBit_lt_two_pow (hv.trans_le hpow)
    have hindex : n + 5 - 1 - q - 5 = n - 1 - q := by omega
    rw [if_pos (by omega), if_pos hheld, BitVec.getLsbD_or, BitVec.getLsbD_shiftLeft, BitVec.getLsbD_ofNat, hhigh,
      hindex, decide_eq_true (by omega : n + 5 - 1 - q < 12), decide_eq_false (by omega : ¬n + 5 - 1 - q < 5)]
    simp
  · rcases Nat.lt_or_ge q (n + 5) with hfirst | hlater
    · have hdiv : (q - n) / 5 = 0 := by omega
      have hmod : 4 - (q - n) % 5 = n + 5 - 1 - q := by omega
      rw [if_pos hfirst, if_neg (by omega), BitVec.getLsbD_or, BitVec.getLsbD_shiftLeft, BitVec.getLsbD_ofNat, hdiv,
        hmod, decide_eq_true (by omega : n + 5 - 1 - q < 12), decide_eq_true (by omega : n + 5 - 1 - q < 5)]
      simp
    · have hdiv : (q - n) / 5 = (q - (n + 5)) / 5 + 1 := by omega
      have hmod : (q - n) % 5 = (q - (n + 5)) % 5 := by omega
      rw [if_neg (by omega), if_neg (by omega), hdiv, hmod, List.getElem?_cons_succ]

/-- A byte given is the first eight of the bits. -/
theorem pendingBit_drop {n : Nat} (hn : 8 ≤ n) (acc : BitVec 12) (vals : List Nat) (q : Nat) :
    pendingBit acc (n - 8) vals q = pendingBit acc n vals (q + 8) := by
  unfold pendingBit
  have hheld : (q < n - 8) = (q + 8 < n) := by simp; omega
  have hpos : n - 8 - 1 - q = n - 1 - (q + 8) := by omega
  have hlater : q - (n - 8) = q + 8 - n := by omega
  simp only [hheld, hpos, hlater]

/-- The byte the loop gives is the first eight bits it held. -/
theorem getLsbD_givenByte {n i : Nat} (hn : 8 ≤ n) (hi : i < 8) (acc : BitVec 12) (vals : List Nat) :
    ((acc >>> (n - 8)).setWidth 8).getLsbD (7 - i) = pendingBit acc n vals i := by
  have hindex : n - 8 + (7 - i) = n - 1 - i := by omega
  rw [pendingBit, if_pos (by omega), BitVec.getLsbD_setWidth, BitVec.getLsbD_ushiftRight, hindex,
    decide_eq_true (by omega), Bool.true_and]

/-- Bit `7 - i` of byte `k` of the loop's output is bit `8k + i` of the bits to give. -/
theorem b32DecodeLoop_getLsbD (t : List Byte) (acc : BitVec 12) {n k i : Nat} (hn : n < 8)
    (hk : k < (5 * (t.filterMap b32SymVal).length + n) / 8) (hi : i < 8) :
    ((b32DecodeLoop t acc n)[k]?.getD 0).getLsbD (7 - i) = pendingBit acc n (t.filterMap b32SymVal) (8 * k + i) := by
  induction t generalizing acc n k with
  | nil =>
    simp only [List.filterMap_nil, List.length_nil] at hk
    omega
  | cons c t ih =>
    cases hc : b32SymVal c with
    | none =>
      rw [List.filterMap_cons_none hc] at hk ⊢
      rw [b32DecodeLoop, hc]
      exact ih acc hn hk
    | some v =>
      rw [List.filterMap_cons_some hc] at hk ⊢
      obtain ⟨hv, -⟩ := b32Sym_of_b32SymVal hc
      rw [List.length_cons] at hk
      rw [← pendingBit_shift hn hv, b32DecodeLoop, hc]
      dsimp only
      split
      next hfull =>
        cases k with
        | zero =>
          rw [List.getElem?_cons_zero, Option.getD_some, Nat.mul_zero, Nat.zero_add]
          exact getLsbD_givenByte hfull hi _ _
        | succ k =>
          have hrest : 8 * (k + 1) + i = 8 * k + i + 8 := by omega
          rw [List.getElem?_cons_succ, hrest, ← pendingBit_drop hfull]
          exact ih _ (by omega) (by omega)
      next => exact ih _ (by omega) (by omega)

/-- Settles O44: at the start no bit is held. -/
theorem base32DecodeTakesEightBitsAByte : Obligations.Base32DecodeTakesEightBitsAByte := by
  intro t
  rw [b32Decode_eq_loop]
  have hlen := b32DecodeLoop_length (t.map asciiUpper) 0 0 (by decide)
  refine ⟨hlen, fun k hk i hi => ?_⟩
  exact b32DecodeLoop_getLsbD _ 0 (by decide) hk hi

/-! The round trip. -/

/-- The symbol values of an encoding, in order. -/
def b32Values (b : List Byte) : List Nat := (List.range (b32EncLen b.length)).map fun j => bitsVal (b32SymbolBits b j)

/-- An encoding is the symbols of its values. -/
theorem b32Encode_eq_map (b : List Byte) : b32Encode b = (b32Values b).map b32Sym := by
  refine List.ext_getElem? fun j => ?_
  rcases Nat.lt_or_ge j (b32EncLen b.length) with hj | hj
  · rw [b32Encode_getElem? hj]
    simp [b32Values, hj]
  · rw [List.getElem?_eq_none (by simpa using hj), List.getElem?_eq_none (by simpa [b32Values] using hj)]

theorem isSymbol_b32Sym {j : Nat} (hj : j < 32) : isSymbol (b32Sym j) = true := by
  rw [isSymbol, b32SymVal_b32Sym hj]
  rfl

/-- The decoder reads an encoding as its values. -/
theorem values_of_b32Encode (b : List Byte) : ((b32Encode b).map asciiUpper).filterMap b32SymVal = b32Values b := by
  have hsym : ∀ v ∈ b32Values b, b32SymVal (asciiUpper (b32Sym v)) = some v := by
    intro v hv
    obtain ⟨j, hj, rfl⟩ := List.mem_map.1 hv
    have hlt := bitsVal_b32SymbolBits_lt (List.mem_range.1 hj)
    rw [asciiUpper_of_isSymbol _ (isSymbol_b32Sym hlt), b32SymVal_b32Sym hlt]
  rw [b32Encode_eq_map, List.map_map, List.filterMap_map]
  exact (List.filterMap_congr hsym).trans List.filterMap_some

/-- Bit `q` of the values' bit string is bit `q` of the bytes' (40_base32.md R101). -/
theorem b32Values_testBit {b : List Byte} {q : Nat} (hq : q < 8 * b.length) :
    ((b32Values b)[q / 5]?.getD 0).testBit (4 - q % 5) = (b[q / 8]?.getD 0).getLsbD (7 - q % 8) := by
  have hj : q / 5 < b32EncLen b.length := by
    unfold b32EncLen
    omega
  rw [b32Values, List.getElem?_map, List.getElem?_range hj, Option.map_some, Option.getD_some,
    testBit_b32SymbolBits hj (Nat.mod_lt _ (by decide)), Nat.div_add_mod]

/-- The symbols of `n` bytes carry `n` bytes and less than one more. -/
theorem five_b32EncLen_div_eight (n : Nat) : 5 * b32EncLen n / 8 = n := by
  unfold b32EncLen
  omega

/-- Settles O46: the decoder's bits are the symbols' bits, which are the bytes' bits. -/
theorem base32RoundTrip : Obligations.Base32RoundTrip := by
  intro b
  obtain ⟨hlen, hbits⟩ := base32DecodeTakesEightBitsAByte (b32Encode b)
  have hvals : (b32Values b).length = b32EncLen b.length := by simp [b32Values]
  rw [values_of_b32Encode, hvals, five_b32EncLen_div_eight] at hlen hbits
  refine List.ext_getElem hlen fun k hdec hk => BitVec.eq_of_getLsbD_eq fun i hi => ?_
  have hbit := hbits k hk (7 - i) (by omega)
  have hbyte : (8 * k + (7 - i)) / 8 = k := by omega
  have hpos : 7 - (8 * k + (7 - i)) % 8 = i := by omega
  rw [b32Values_testBit (by omega), hbyte, hpos, Nat.sub_sub_self (by omega)] at hbit
  simpa [hdec, hk] using hbit

end Sys2Proof.Machine
end

section
/-! PROOFS. The identity of GF(2^128) (43_aes_gcm.md R179), and the round trips of authenticated encryption
(43_aes_gcm.md section 5), as an algorithm and through the engine. -/

namespace Sys2Proof.Machine
open Sys2Proof Sys2Proof.Claims

/-! The identity. -/

/-- The block 80 00 .. 00 as a number: GCM bit 0 alone (43_aes_gcm.md R179). -/
theorem blockVal_identity : blockVal ([0x80] ++ List.replicate 15 0) = BitVec.twoPow 128 127 := by decide

/-- No bit left to read in `X` leaves the sum as it is. -/
theorem gfMulLoop_of_clear {x : BitVec 128} {n : Nat} (h : ∀ i < n, x.getLsbD i = false) (v z : BitVec 128) :
    gfMulLoop x n v z = z := by
  induction n generalizing v with
  | zero => rfl
  | succ n ih =>
    rw [gfMulLoop, h n (Nat.lt_succ_self n)]
    exact ih (fun i hi => h i (Nat.lt_succ_of_lt hi)) _

/-- With the identity as multiplier only the first bit is set, and it adds the multiplicand itself. -/
theorem gfMul_identity_left (y : BitVec 128) : gfMul (BitVec.twoPow 128 127) y = y := by
  have hfirst : (BitVec.twoPow 128 127).getLsbD 127 = true := by decide
  have hrest : ∀ i < 127, (BitVec.twoPow 128 127).getLsbD i = false := by decide
  rw [gfMul, gfMulLoop, hfirst, gfMulLoop_of_clear hrest]
  exact BitVec.zero_xor

/-- Adding bit `n` of `X` and then the bits below it is adding the low `n + 1` bits. -/
theorem xor_bit_xor_low (x z : BitVec 128) (n : Nat) :
    (if x.getLsbD n then z ^^^ BitVec.twoPow 128 n else z) ^^^ (x.setWidth n).setWidth 128 =
      z ^^^ (x.setWidth (n + 1)).setWidth 128 := by
  cases hx : x.getLsbD n with
  | false =>
    rw [BitVec.setWidth_setWidth_succ_eq_setWidth_setWidth_of_getLsbD_false hx]
    rfl
  | true =>
    rw [BitVec.setWidth_setWidth_succ_eq_setWidth_setWidth_or_twoPow_of_getLsbD_true hx, if_pos rfl, BitVec.xor_assoc]
    congr 1
    ext i hi
    by_cases hin : i = n <;> simp [BitVec.getElem_twoPow, BitVec.getLsbD_setWidth, hin]

/-- A power of 2 above 1 halved. -/
theorem twoPow_succ_ushiftRight_one {n : Nat} (hn : n + 1 < 128) :
    BitVec.twoPow 128 (n + 1) >>> 1 = BitVec.twoPow 128 n := by
  apply BitVec.eq_of_toNat_eq
  have hsucc : 2 ^ (n + 1) < 2 ^ 128 := Nat.pow_lt_pow_right (by decide) hn
  have hpow : 2 ^ n < 2 ^ 128 := Nat.pow_lt_pow_right (by decide) (Nat.lt_of_succ_lt hn)
  rw [BitVec.toNat_ushiftRight, BitVec.toNat_twoPow, BitVec.toNat_twoPow, Nat.mod_eq_of_lt hsucc, Nat.mod_eq_of_lt hpow,
    Nat.shiftRight_eq_div_pow, Nat.pow_succ, Nat.pow_one, Nat.mul_div_cancel _ (by decide)]

/-- A power of 2 as multiplicand is halved at each bit of `X`, so that each picks its own bit: the loop adds the low
`n + 1` bits of `X`. -/
theorem gfMulLoop_twoPow (x : BitVec 128) {n : Nat} (hn : n < 128) (z : BitVec 128) :
    gfMulLoop x (n + 1) (BitVec.twoPow 128 n) z = z ^^^ (x.setWidth (n + 1)).setWidth 128 := by
  induction n generalizing z with
  | zero =>
    rw [← xor_bit_xor_low, gfMulLoop, gfMulLoop, BitVec.of_length_zero (x := x.setWidth 0)]
    simp
  | succ n ih =>
    have heven : (BitVec.twoPow 128 (n + 1)).getLsbD 0 = false := by simp
    rw [← xor_bit_xor_low, ← ih (by omega), gfMulLoop, heven, ← twoPow_succ_ushiftRight_one hn]
    rfl

theorem gfMul_identity_right (x : BitVec 128) : gfMul x (BitVec.twoPow 128 127) = x := by
  rw [gfMul, gfMulLoop_twoPow x (by decide)]
  simp

/-- Settles O55: the block 80 00 .. 00 is a power of 2, whose product each side picks out the other factor's bits. -/
theorem gfMulHasItsIdentity : Obligations.GfMulHasItsIdentity := by
  intro x
  rw [blockVal_identity]
  exact ⟨gfMul_identity_right x, gfMul_identity_left x⟩

/-! The round trips. -/

/-- GCTR under the same counters undoes itself: each byte is added to the same byte twice (43_aes_gcm.md R182). -/
theorem gctr_gctr {k : List Byte} (hk : k.length = 32) (icb x : List Byte) : gctr k icb (gctr k icb x) = x := by
  have hbyte := gctrIsAnXorWithEncipheredCounters.2 k icb
  have hlen := gctr_length k icb x hk
  refine List.ext_getElem? fun i => ?_
  rcases Nat.lt_or_ge i x.length with hi | hi
  · have hinner := (hbyte x hk).2 i hi
    have houter := (hbyte (gctr k icb x) hk).2 i (by omega)
    rw [houter, List.getD_eq_getElem?_getD, hinner, Option.getD_some, BitVec.xor_assoc, BitVec.xor_self,
      BitVec.xor_zero, List.getElem?_eq_getElem hi, List.getD_eq_getElem _ _ hi]
  · rw [List.getElem?_eq_none (by rw [gctr_length _ _ _ hk]; omega), List.getElem?_eq_none hi]

/-- Settles O58: the tag is the ciphertext's, and GCTR undoes itself. -/
theorem gcmRoundTrip : Obligations.GcmRoundTrip := by
  intro k iv p hk
  rw [gcmAE, gcmAD_of_eq rfl, gctr_gctr hk]

/-- What a successful `GCM_ENC` leaves: the ciphertext at `DST_ADDR` for `RES_LEN`, and its tag. -/
theorem gcmEnc_result {s t : State} (hm : Memory.wf s.buf) (h : exec .gcmEnc s = .next t) (herr : t.err = false) :
    let r := gcmAE (kIntBytes s) (regBytes s.iv) (src s)
    s.keyValid = true ∧ memRead t.buf t.dstAddr.toNat t.resLen.toNat = r.1 ∧ regBytes t.tag = r.2 := by
  obtain ⟨u, hu, rfl⟩ := complete_succeeds h herr
  obtain ⟨hk, hs, hd, -⟩ := (performGcmEnc_ok_iff s u).1 hu
  obtain ⟨-, henc⟩ := gcmEncryptWritesCiphertextAndTag
  obtain ⟨hok, -⟩ := henc s
  obtain ⟨t', ht', ⟨⟨hread, -⟩, hres, -⟩, -, htag, honly, -⟩ :=
    hok hm hk ((srcInBounds_iff s).1 hs) ((dstInBounds_iff s _).1 hd)
  obtain rfl : succeed u = t' := by
    rw [h] at ht'
    exact Host.Outcome.next.inj ht'
  have hdst : (succeed u).dstAddr = s.dstAddr := (congrArg State.dstAddr honly :)
  rw [hdst, hres]
  exact ⟨hk, hread, htag⟩

/-- Settles O59: the tag registers hold the ciphertext's tag, so `GCM_DEC` stores what GCTR makes of the ciphertext. -/
theorem gcmCommandsRoundTrip : Obligations.GcmCommandsRoundTrip := by
  intro s t u hm h herr hmu hkey hvalid hiv htag hlen hs hsrc hd
  obtain ⟨hk, hcipher, htagBytes⟩ := gcmEnc_result hm h herr
  have hkeyBytes : kIntBytes u = kIntBytes s := congrArg Vector.toList hkey
  rw [hcipher] at hsrc
  have hright : regBytes u.tag = gcmTag (kIntBytes u) (regBytes u.iv) (src u) := by
    rw [htag, htagBytes, hkeyBytes, hiv, hsrc]
    rfl
  obtain ⟨-, hdec⟩ := gcmDecryptChecksTheTagFirst
  obtain ⟨hok, -⟩ := hdec u
  obtain ⟨v, hv, hcompletes, -, hframe⟩ := hok hmu (hvalid.trans hk) hs hd hright
  refine ⟨v, hv, ?_, hframe⟩
  rw [hkeyBytes, hiv, hsrc] at hcompletes
  have hplain := gctr_gctr (kIntBytes_length s) (inc32 (preCounter (regBytes s.iv))) (src s)
  exact hplain ▸ hcompletes

end Sys2Proof.Machine
end

section
/-! PROOFS. Host programs (30_encoding.md R88, R89): running a list of accesses, and what each pseudo-instruction's
list ends in. -/

namespace Sys2Proof.Machine
open Sys2Proof Sys2Proof.Claims

/-! Runs of accesses. -/

theorem runs_nil (s : State) : Runs s [] 0 (.next { s with events := [] }) := rfl

/-- With a command pending and no access left, one step more is the engine step (log 1). -/
theorem runs_engineStep {s : State} (hb : s.busy = true) (he : s.events = []) : Runs s [] 1 (engineStep s) := by
  obtain ⟨t, ht⟩ := engineStep_next s
  have hs : { s with events := [] } = s := by rw [← he]
  rw [Runs, hs, ht]
  exact run_succ_of_step ((step_busy_nil hb he).trans ht) 0

/-- A write first leaves the state that the rest of the list runs from. -/
theorem runs_hostWr {s t : State} {o : Nat} {v : Word} {p : List Event} {n : Nat}
    {r : Host.Outcome State Fault Refusal} (hw : WriteLeaves s o v t)
    (hr : Runs { t with response := .written } p n r) : Runs s (hostWr o v :: p) n r := by
  have hlen : (hostWr o v :: p).length + n = p.length + n + 1 := by rw [List.length_cons]; omega
  rw [Runs, hlen]
  exact (run_succ_of_step (hw p) _).trans hr

/-- While idle a write stores at its location, and the rest of the list runs from there. -/
theorem runs_store {s : State} (hb : s.busy = false) {o : Nat} {v : Word} {p : List Event} {n : Nat}
    {r : Host.Outcome State Fault Refusal} (ho : WordOffset o) (hk : o ≠ 0x03C)
    (hr : Runs { storeLoc s v (locate o) with response := .written } p n r) : Runs s (hostWr o v :: p) n r :=
  runs_hostWr (writeLeaves_idle hb v ho hk) hr

/-- A run of one step. -/
theorem run_one_of_step {s : State} {t : State} (h : step s = .next t) : Host.Core.run core 1 s = .next t :=
  run_succ_of_step h 0

/-- While idle a legal command word written last to `CMD` runs at the engine step that follows. -/
theorem runs_cmdWrite {s : State} (hb : s.busy = false) {w : Word} {i : Instr} (hd : decode .cmd w = .ok i) :
    Runs s [hostWr 0x004 w] 1 (exec i (startCommand (written s) w)) := by
  refine runs_store hb (by decide) (by decide) ?_
  have hcmd : decode .cmd (startCommand (written s) w).cmd = .ok i := hd
  rw [← engineStep_of_decode_ok hcmd]
  exact runs_engineStep (s := startCommand (written s) w) rfl rfl

/-- While idle an action word written last to `KEYCTL` runs as that write. -/
theorem runs_keyctl (s : State) {w : Word} {i : Instr} (hi : decodeKeyctl w = some i) :
    Runs s [hostWr 0x03C w] 0 (exec i (written s)) := by
  obtain ⟨t, ht⟩ := exec_next i (written s)
  have hstep : step { s with events := [hostWr 0x03C w] } = exec i (written s) := step_keyctl rfl hi
  rw [ht] at hstep ⊢
  exact run_one_of_step hstep

/-- A pass of `POLL` reads STATUS (30_encoding.md R89). -/
theorem runs_hostPoll (s : State) :
    Runs s [hostPoll] 0 (.next { s with events := [], response := .data (statusWord s) }) :=
  run_one_of_step (readsAs_of_not_resultLoc s (o := 0x008) (by decide) rfl [])

/-- BUSY is bit 0 of STATUS (10_state.md R29). -/
theorem statusWord_getLsbD_zero (s : State) : (statusWord s).getLsbD 0 = s.busy := by
  cases hb : s.busy <;> simp [statusWord, bit, hb]

/-! The commands. -/

/-- The four commands with a source alone and HOTP_TRUNC share their list: source, destination, command word. -/
theorem runs_hostSourceOp {s : State} (hb : s.busy = false) (d a n : Word) {w : Word} {i : Instr}
    (hd : decode .cmd w = .ok i) : Runs s (hostSourceOp d a n w) 1
      (exec i (startCommand (written { s with srcAddr := a, srcLen := n, dstAddr := d }) w)) := by
  refine runs_store (o := 0x010) (by exact hb) (by decide) (by decide) ?_
  refine runs_store (o := 0x014) (by exact hb) (by decide) (by decide) ?_
  refine runs_store (o := 0x020) (by exact hb) (by decide) (by decide) ?_
  exact runs_cmdWrite (s := written { s with srcAddr := a, srcLen := n, dstAddr := d }) hb hd

theorem runs_hostHmacSha1 {s : State} (hb : s.busy = false) (d a n k m : Word) : Runs s (hostHmacSha1 d a n k m) 1
    (exec .hmacSha1 (startCommand
      { written { s with srcAddr := a, srcLen := n, dstAddr := d } with keyAddr := k, keyLen := m } 0x00000001)) := by
  refine runs_store (o := 0x010) (by exact hb) (by decide) (by decide) ?_
  refine runs_store (o := 0x014) (by exact hb) (by decide) (by decide) ?_
  refine runs_store (o := 0x018) (by exact hb) (by decide) (by decide) ?_
  refine runs_store (o := 0x01C) (by exact hb) (by decide) (by decide) ?_
  refine runs_store (o := 0x020) (by exact hb) (by decide) (by decide) ?_
  exact runs_cmdWrite
    (s := { written { s with srcAddr := a, srcLen := n, dstAddr := d } with keyAddr := k, keyLen := m }) hb (by decide)

theorem runs_hostHotp {s : State} (hb : s.busy = false) (d k m : Word) (c : BitVec 64) : Runs s (hostHotp d k m c) 1
    (exec (.hotp 6) (startCommand (written { s with
      keyAddr := k, keyLen := m, cntLo := c.extractLsb' 0 32, cntHi := c.extractLsb' 32 32, dstAddr := d })
        0x00000602)) := by
  refine runs_store (o := 0x018) (by exact hb) (by decide) (by decide) ?_
  refine runs_store (o := 0x01C) (by exact hb) (by decide) (by decide) ?_
  refine runs_store (o := 0x028) (by exact hb) (by decide) (by decide) ?_
  refine runs_store (o := 0x02C) (by exact hb) (by decide) (by decide) ?_
  refine runs_store (o := 0x020) (by exact hb) (by decide) (by decide) ?_
  exact runs_cmdWrite (s := written { s with
    keyAddr := k, keyLen := m, cntLo := c.extractLsb' 0 32, cntHi := c.extractLsb' 32 32, dstAddr := d }) hb (by decide)

/-! Register groups. -/

/-- The states `f` of a group's value and the last answer are those that writes from `base` on move between: a write at
the offset of register `i` stores there and leaves the rest. -/
def StoresGroup {n : Nat} (base : Nat) (f : Vector Word n → Response → State) : Prop :=
  ∀ v q, { f v q with response := .written } = f v .written ∧
    ∀ (i : Fin n) x, WriteLeaves (f v q) (base + 4 * i) x (f (v.set i x i.isLt) q)

/-- Writes of the last `j` words of a group, whose first `k` are right already, complete it. With no word to write the
last answer has to be there already. -/
theorem runs_hostWrs_groupRest {n base m : Nat} {f : Vector Word n → Response → State} {w : Vector Word n}
    {p : List Event} {r : Host.Outcome State Fault Refusal} (hf : StoresGroup base f) (hr : Runs (f w .written) p m r)
    {j k : Nat} (hk : k + j = n) {v : Vector Word n} {q : Response} (hv : ∀ i (hi : i < n), i < k → v[i] = w[i])
    (hq : j = 0 → q = .written) : Runs (f v q) (hostWrs (base + 4 * k) (w.toList.drop k) ++ p) m r := by
  induction j generalizing k v q with
  | zero =>
    obtain rfl : v = w := Vector.ext fun i hi => hv i hi (by omega)
    obtain rfl := hq rfl
    rw [List.drop_of_length_le (by simp; omega)]
    exact hr
  | succ j ih =>
    have hlt : k < n := by omega
    obtain ⟨-, hw⟩ := hf v q
    obtain ⟨hanswer, -⟩ := hf (v.set k w[k]) q
    rw [List.drop_eq_getElem_cons (by simpa using hlt), hostWrs, List.cons_append, Vector.getElem_toList]
    refine runs_hostWr (hw ⟨k, hlt⟩ w[k]) ?_
    rw [hanswer]
    refine ih (k := k + 1) (by omega) (fun i hi hik => ?_) (fun _ => rfl)
    rw [Vector.getElem_set]
    split
    next heq => subst heq; rfl
    next hne => exact hv i hi (by omega)

/-- Writes of all words of a group fill it. -/
theorem runs_hostWrs_group {n base m : Nat} {f : Vector Word n → Response → State} (hf : StoresGroup base f)
    (hn : 0 < n) (v w : Vector Word n) (q : Response) {p : List Event} {r : Host.Outcome State Fault Refusal}
    (hr : Runs (f w .written) p m r) : Runs (f v q) (hostWrs base w.toList ++ p) m r :=
  runs_hostWrs_groupRest hf hr (j := n) (k := 0) (Nat.zero_add n) (by simp) (by omega)

theorem storesGroup_iv {s : State} (hb : s.busy = false) :
    StoresGroup 0x060 fun v q => { s with iv := v, response := q } := fun v q =>
  ⟨rfl, fun i x => writeLeaves_idle_of_locate (s := { s with iv := v, response := q }) hb x (by omega) (by omega)
    (locate_iv i)⟩

theorem storesGroup_tag {s : State} (hb : s.busy = false) :
    StoresGroup 0x070 fun v q => { s with tag := v, response := q } := fun v q =>
  ⟨rfl, fun i x => writeLeaves_idle_of_locate (s := { s with tag := v, response := q }) hb x (by omega) (by omega)
    (locate_tag i)⟩

theorem storesGroup_aesKey {s : State} (hb : s.busy = false) :
    StoresGroup 0x040 fun v q => { s with aesKey := v, response := q } := fun v q =>
  ⟨rfl, fun i x => writeLeaves_idle_of_locate (s := { s with aesKey := v, response := q }) hb x (by omega) (by omega)
    (locate_aesKey i)⟩

theorem runs_hostSetIv {s : State} (hb : s.busy = false) (w : Vector Word 3) :
    Runs s (hostSetIv w) 0 (.next (written { s with iv := w })) := by
  rw [hostSetIv, ← List.append_nil (hostWrs _ _)]
  exact runs_hostWrs_group (storesGroup_iv hb) (by decide) s.iv w s.response (runs_nil _)

theorem runs_hostSetTag {s : State} (hb : s.busy = false) (w : Vector Word 4) :
    Runs s (hostSetTag w) 0 (.next (written { s with tag := w })) := by
  rw [hostSetTag, ← List.append_nil (hostWrs _ _)]
  exact runs_hostWrs_group (storesGroup_tag hb) (by decide) s.tag w s.response (runs_nil _)

theorem runs_hostKeyLoad {s : State} (hb : s.busy = false) (w : Vector Word 8) :
    Runs s (hostKeyLoad w) 0 (exec .keyLoad (written { s with aesKey := w })) :=
  runs_hostWrs_group (storesGroup_aesKey hb) (by decide) s.aesKey w s.response
    (runs_keyctl { s with aesKey := w, response := .written } (by decide))

/-! The buffer. -/

theorem memWrite_append (m : Memory) (a : Nat) (b c : List Byte) :
    memWrite m a (b ++ c) = memWrite (memWrite m a b) (a + b.length) c := by
  induction b generalizing m a with
  | nil => rfl
  | cons x b ih =>
    rw [List.cons_append, memWrite, memWrite, ih, List.length_cons, Nat.add_assoc, Nat.add_comm 1]

theorem stores_memWrite {m : Memory} (hm : Memory.wf m) (a : Nat) (out : List Byte) :
    Stores m (memWrite m a out) a out := ⟨memRead_memWrite_self hm a out, readByte_memWrite_outside m a out⟩

/-- The bytes of bus words, each word's least significant first (20_memory.md R61). -/
def wordsBytes (ws : List Word) : List Byte := ws.flatMap fun w => leBytes 4 w.toNat

/-- The bytes of `WRW` by their place: byte `i mod 4` of word `floor(i / 4)`. -/
theorem wordsBytes_eq_map (ws : List Word) : wordsBytes ws =
    (List.range (4 * ws.length)).map fun i => (ws.getD (i / 4) 0).extractLsb' (8 * (i % 4)) 8 := by
  have hlen : (wordsBytes ws).length = 4 * ws.length := by
    simp [wordsBytes, Nat.mul_comm]
  refine List.ext_getElem? fun i => ?_
  rcases Nat.lt_or_ge i (4 * ws.length) with hi | hi
  · have hword : i / 4 < ws.length := by omega
    have hbyte := flatMap_getElem? (fun w : Word => leBytes 4 w.toNat) 4 (fun _ => leBytes_length _ _) ws (i / 4)
      (i % 4) hword (Nat.mod_lt _ (by decide))
    rw [Nat.div_add_mod, leBytes_getElem? _ _ (Nat.mod_lt _ (by decide))] at hbyte
    rw [wordsBytes, hbyte, List.getElem?_map, List.getElem?_range hi, Option.map_some, List.getD_eq_getElem _ _ hword]
  · rw [List.getElem?_eq_none (by omega), List.getElem?_eq_none (by simpa using hi)]

/-- Writes of consecutive buffer words store their bytes in order, and nothing else. -/
theorem runs_hostWrs_buf {s : State} (hb : s.busy = false) (ws : List Word) {a : Nat} (ha : a % 4 = 0)
    (hlen : a + 4 * ws.length ≤ 4096) : ∃ q, Runs s (hostWrs (0x1000 + a) ws) 0
      (.next { s with buf := memWrite s.buf a (wordsBytes ws), events := [], response := q }) := by
  induction ws generalizing s a with
  | nil => exact ⟨s.response, runs_nil s⟩
  | cons w ws ih =>
    rw [List.length_cons] at hlen
    obtain ⟨j, rfl⟩ := Nat.dvd_of_mod_eq_zero ha
    obtain ⟨q, hq⟩ := ih (s := { s with buf := memWrite s.buf (4 * j) (leBytes 4 w.toNat), response := .written }) hb
      (a := 4 * j + 4) (by omega) (by omega)
    refine ⟨q, runs_hostWr (writeLeaves_bufWord w hb (by omega)) ?_⟩
    rw [wordsBytes, List.flatMap_cons, memWrite_append, leBytes_length]
    exact hq

/-- What `WRW` leaves, by the bytes of its words. -/
theorem runs_hostWrw {s : State} (hb : s.busy = false) (hm : Memory.wf s.buf) {boff : Nat} {ws : List Word}
    (ha : boff % 4 = 0) (hlen : boff + 4 * ws.length ≤ 4096) :
    ∃ t, Runs s (hostWrw boff ws) 0 (.next t) ∧ t = { s with buf := t.buf, events := [], response := t.response } ∧
      Stores s.buf t.buf boff (wordsBytes ws) := by
  obtain ⟨q, hq⟩ := runs_hostWrs_buf hb ws ha hlen
  exact ⟨_, hq, rfl, stores_memWrite hm boff _⟩

theorem leVal_zeros (n : Nat) : leVal (List.replicate n 0) = 0 := by
  induction n with
  | zero => rfl
  | succ n ih => exact (congrArg (0 + 256 * ·) ih :)

/-- Zeros above a little-endian number leave its value. -/
theorem leVal_append_zeros (b : List Byte) (n : Nat) : leVal (b ++ List.replicate n 0) = leVal b := by
  rw [leVal, List.foldr_append, ← leVal, leVal_zeros, leVal]

/-- A piece of at most four bytes packed to a word is the piece with zeros behind it (30_encoding.md R88). -/
theorem leBytes_leWord {b : List Byte} (hb : b.length ≤ 4) :
    leBytes 4 (leWord b).toNat = b ++ List.replicate (4 - b.length) 0 := by
  rw [leWord, ← leVal_append_zeros b (4 - b.length)]
  exact leBytes4_leVal_of_length _ (by simp; omega)

/-- The words `WRB` packs hold its bytes and zeros behind them (30_encoding.md R88). -/
theorem wordsBytes_pieces {n : Nat} {b : List Byte} (hb : b.length ≤ 4 * n) :
    wordsBytes ((pieces 4 n b).map leWord) = b ++ List.replicate (4 * n - b.length) 0 := by
  induction n generalizing b with
  | zero =>
    obtain rfl := List.length_eq_zero_iff.1 (Nat.le_zero.1 hb)
    rfl
  | succ n ih =>
    have hrest := ih (b := b.drop 4) (by simp; omega)
    have hfirst := leBytes_leWord (b := b.take 4) (by simp)
    rw [pieces, List.map_cons, wordsBytes, List.flatMap_cons, hfirst, ← wordsBytes, hrest]
    rcases Nat.lt_or_ge b.length 4 with hshort | hlong
    · rw [List.take_of_length_le hshort.le, List.drop_of_length_le hshort.le, List.append_assoc, List.nil_append,
        List.replicate_append_replicate, List.length_nil]
      congr 2
      omega
    · have hfull : 4 - (b.take 4).length = 0 := by simp; omega
      have hpad : 4 * n - (b.drop 4).length = 4 * (n + 1) - b.length := by simp; omega
      rw [hfull, hpad, List.replicate_zero, List.append_nil, ← List.append_assoc, List.take_append_drop]

/-- `ACK` clears DONE alone (30_encoding.md R89, 10_state.md R26). -/
theorem runs_hostAck (s : State) : Runs s [hostAck] 0 (.next (written { s with done := false })) := by
  obtain ⟨hw, -⟩ := statusWriteClearsDoneAndWbusyOnly s 0x2
  exact runs_hostWr hw (runs_nil _)

/-- Settles O60: each expansion's run, a command's with the engine step behind it. -/
theorem expansionsRunTheirCommands : Obligations.ExpansionsRunTheirCommands := by
  refine ⟨fun s => ⟨runs_hostPoll s, statusWord_getLsbD_zero s⟩, fun s hb d a n k m c => ?_⟩
  refine ⟨runs_hostHmacSha1 hb d a n k m, runs_hostHotp hb d k m c, runs_hostSourceOp hb d a 20 (by decide),
    runs_hostSourceOp hb d a n (by decide), runs_hostSourceOp hb d a n (by decide),
    runs_hostSourceOp hb d a n (by decide), runs_hostSourceOp hb d a n (by decide), runs_hostKeyLoad hb,
    runs_keyctl s (by decide), runs_hostSetIv hb, runs_hostSetTag hb, runs_hostAck s, fun boff ws hm ha hlen => ?_,
    fun boff b hm ha hlen => ?_⟩
  · rw [← wordsBytes_eq_map]
    exact runs_hostWrw hb hm ha hlen
  · have hwords := wordsBytes_pieces (n := (b.length + 3) / 4) (b := b) (by omega)
    rw [← hwords]
    exact runs_hostWrw hb hm ha (by simpa using hlen)

end Sys2Proof.Machine
end
